-- ==== Sys2Proof/Word.lean ====
section
/-! DEFINITION. The value kinds of the spec (00_scope R7): octets and octet strings. Naturals are Lean's `Nat`:
the spec's integers are exact mathematical naturals, so they are no bit vectors. -/

namespace Sys2Proof

/-- An octet, an 8-bit value 0..255 (R7 (b)). -/
abbrev Octet := BitVec 8

/-- An octet string: a finite sequence of octets, octet 0 first, its length part of the value (R7 (b)). -/
abbrev Octets := List Octet

end Sys2Proof
end

