-- ==== Sys2Proof/Syntax.lean ====
section
/-! DEFINITION. The commands and micro-operations of spec/opcode_table.json, the host registers, and the
transactions a host program is made of (30_encoding R71, R73, R76 to R78). -/

namespace Sys2Proof

/-- One constructor per row of the opcode table: eight host commands (format CMD8) and thirteen micro-operations of
the engine (format STAGE4). None has an operand field (R70, R80). -/
inductive Instr where
  | bits2int
  | int2octets
  | bits2intmodq
  | bits2octets
  | generate
  | accept
  | reject
  | clear
  | seed
  | init
  | ratchD
  | ratchE
  | ratchF
  | ratchG
  | tReset
  | tBlock
  | formK
  | range
  | predWait
  | updK
  | updV
  deriving DecidableEq, Repr

/-- Where an instruction's code stands, with the code: the octet written to CMD (CMD8, R70) or the 4-bit code in the
stage register (STAGE4, R73). The two share code values; the place tells them apart. -/
inductive Encoding where
  | cmd8 (c : BitVec 8)
  | stage4 (c : BitVec 4)
  deriving DecidableEq, Repr

/-- Why a code is no instruction. -/
inductive DecodeError where
  /-- one of the 248 opcodes that R72 calls illegal -/
  | undefinedOpcode (c : BitVec 8)
  /-- stage codes 0 (IDLE) and 15 (FAULT), where the engine performs no micro-operation (R32) -/
  | noMicroOperation (c : BitVec 4)
  /-- stage code 14, reserved and unreachable (R73) -/
  | reservedStage
  deriving DecidableEq, Repr

/-- The thirteen host registers r0 to r12 (R76). -/
inductive Reg where
  | cmd | status | q | x | ibuf | aint | rint | obuf | kout | eout | qlen | rolen | hlen
  deriving DecidableEq, Repr

/-- A whole register value: a natural or an octet string (R77). -/
inductive Value where
  | nat (n : Nat)
  | octets (o : Octets)
  deriving DecidableEq, Repr

/-- The conditions of the script line `WAIT <cond>` (R78). -/
inductive Cond where
  | predReq | resultValid | notBusy | fault
  deriving DecidableEq, Repr

/-- What the outside, or the order of the interleaving, does next (R10, R57, R77, R78). -/
inductive Event where
  /-- `W(n, value)`: the host writes register number `n`. -/
  | write (n : Nat) (v : Value)
  /-- `R(n)`: the host reads register number `n`. -/
  | read (n : Nat)
  /-- `WAIT <cond>`: the host reads STATUS until the condition holds. -/
  | await (c : Cond)
  /-- it is the engine's turn: one micro-operation, if STAGE is a running stage -/
  | engine
  /-- the platform resets the machine (R210) -/
  | reset
  deriving DecidableEq, Repr

end Sys2Proof
end

