-- ==== Sys2Proof/Machine/State.lean ====
section
/-! DEFINITION. The state of one instance of the engine (10_state R20), the two fields of the model's own, the reasons a
step can stop, and the state after reset (R40). -/

namespace Sys2Proof.Machine

/-- The sequencer's positions (R32). Code 14 is never produced and has no constructor (log 11). -/
inductive Stage where
  | idle | seed | init | ratchD | ratchE | ratchF | ratchG | tReset | tBlock | formK | range | predWait | updK | updV
  | fault
  deriving DecidableEq, Repr

/-- The stage classes of R32. -/
inductive StageClass where
  | idle | run | wait | fault
  deriving DecidableEq, Repr

/-- The fault causes of R181; codes 7 to 15 are never produced (log 11). -/
inductive Cause where
  | none | illegalCmd | protocol | qRange | xRange | intRange | operandSize
  deriving DecidableEq, Repr

/-- The fifteen items of R20. -/
inductive Item where
  | q | x | ibuf | aint | rint | obuf | kout | eout | stage | rv | cause | k | v | t | seed
  deriving DecidableEq, Repr

/-- The buffer spaces of R50 that are state (MSG is the operand of one HMAC call and no state). -/
inductive Buffer where
  | ibuf | obuf | seed | t | k | v
  deriving DecidableEq, Repr

/-- Why the model stops (Outcome.fault). These are NOT the spec's faults, which are next states (fault entry, R188). -/
inductive Fault where
  /-- raised by a micro-operation that reads a register holding `none`, and by a permitted read of KOUT or EOUT that
  holds `none`: "reading none inside the engine never happens" (R8), no state reached from reset does it. Safe. -/
  | noValue (i : Item)
  /-- raised by SEED where X or e does not fit rolen octets: `I2OS(v, n)` with `v >= 256^n` has no value (R52, R92), and
  GENERATE's admission excludes it (R112). Safe. -/
  | octetsDoNotFit
  deriving DecidableEq, Repr

/-- Why a step has no meaning (Outcome.refused). -/
inductive Refusal where
  /-- an arm of exec that has no meaning yet; no arm is left. Safe. -/
  | notModelled (mnemonic : String)
  /-- raised by `step` where the script's next event writes a value that is not of the register's kind: no transaction
  of the spec (R77). Safe. -/
  | malformedTransaction
  /-- raised by `stepInstance` for a number that names no instance (R198). Safe. -/
  | noInstance
  deriving DecidableEq, Repr

/-- One instance: the items of R20, then the model's own `script` (what happens next, log 1) and `reply` (what the last
host read returned, log 3). -/
structure State where
  /-- r2, the group order q (R21) -/
  q : Nat
  /-- r3, the private scalar x, write-only (R22) -/
  x : Option Nat
  /-- r4, the digest and the codec's octet operand (R23) -/
  ibuf : Octets
  /-- r5, the codec's integer operand (R24) -/
  aint : Nat
  /-- r6, the codec's integer result (R25) -/
  rint : Nat
  /-- r7, the codec's octet result (R26) -/
  obuf : Octets
  /-- r8, the candidate k (R27) -/
  kout : Option Nat
  /-- r9, the normalised digest integer e (R28) -/
  eout : Option Nat
  /-- the sequencer's position, the engine's program counter (R32) -/
  stage : Stage
  /-- result valid, STATUS bit 2 (R31) -/
  rv : Bool
  /-- fault cause, STATUS bits 7:4 (R31) -/
  cause : Cause
  /-- the HMAC key register (R33) -/
  k : Option Octets
  /-- the HMAC value register (R34) -/
  v : Option Octets
  /-- the candidate accumulation buffer (R35) -/
  t : Option Octets
  /-- the seed string (R36) -/
  seed : Option Octets
  /-- MODEL'S OWN: the events still to come, in the one total order of R57 -/
  script : List Event
  /-- MODEL'S OWN: the value the last host read returned -/
  reply : Option Value
  deriving DecidableEq, Repr

/-- The machine right after reset: the table of R40, with nothing to come and nothing read yet (log 20). -/
def State.reset : State where
  q := 0
  x := none
  ibuf := []
  aint := 0
  rint := 0
  obuf := []
  kout := none
  eout := none
  stage := .idle
  rv := false
  cause := .none
  k := none
  v := none
  t := none
  seed := none
  script := []
  reply := none

end Sys2Proof.Machine
end

