-- ==== Sys2Proof/Machine/Flags.lean ====
section
/-! DEFINITION. Stage codes and classes, cause codes, and STATUS, the machine's only flags: a pure view of STAGE, RV and
CAUSE (10_state R31, R32; 60_exceptions R181). -/

namespace Sys2Proof.Machine

/-- The 4-bit code of a stage (R32, R73). -/
def Stage.code : Stage → BitVec 4
  | .idle => 0#4
  | .seed => 1#4
  | .init => 2#4
  | .ratchD => 3#4
  | .ratchE => 4#4
  | .ratchF => 5#4
  | .ratchG => 6#4
  | .tReset => 7#4
  | .tBlock => 8#4
  | .formK => 9#4
  | .range => 10#4
  | .predWait => 11#4
  | .updK => 12#4
  | .updV => 13#4
  | .fault => 15#4

/-- The class of a stage (R32). -/
def Stage.cls : Stage → StageClass
  | .idle => .idle
  | .predWait => .wait
  | .fault => .fault
  | .seed | .init | .ratchD | .ratchE | .ratchF | .ratchG | .tReset | .tBlock | .formK | .range | .updK | .updV => .run

/-- The class of the current stage. -/
def State.cls (s : State) : StageClass := s.stage.cls

/-- The 4-bit code of a cause (R181). -/
def Cause.code : Cause → Nat
  | .none => 0
  | .illegalCmd => 1
  | .protocol => 2
  | .qRange => 3
  | .xRange => 4
  | .intRange => 5
  | .operandSize => 6

/-- STATUS bit 0: STAGE is a running stage, codes 1 to 13, PRED_WAIT included (R31). -/
def State.busy (s : State) : Bool := s.cls == .run || s.cls == .wait

/-- STATUS bit 1: a candidate is offered (R31). -/
def State.predReq (s : State) : Bool := s.stage == .predWait

/-- STATUS bit 2: the stored bit RV (R31). -/
def State.resultValid (s : State) : Bool := s.rv

/-- STATUS bit 3: STAGE = FAULT (R31). -/
def State.faulted (s : State) : Bool := s.stage == .fault

/-- STATUS, 8 bits (R31, R74). -/
def State.status (s : State) : BitVec 8 :=
  BitVec.ofNat 8 (s.busy.toNat + 2 * s.predReq.toNat + 4 * s.resultValid.toNat + 8 * s.faulted.toNat
    + 16 * s.cause.code)

/-- The condition of a `WAIT` line, read off STATUS (R78). -/
def condHolds (c : Cond) (s : State) : Bool :=
  match c with
  | .predReq => s.predReq
  | .resultValid => s.resultValid
  | .notBusy => !s.busy
  | .fault => s.faulted

end Sys2Proof.Machine
end

