-- ==== Sys2Proof/Config.lean ====
section
/-! DEFINITION. What an implementation fixes (00_scope R6): the OPEN parameters of the spec, as one opaque constant. -/

namespace Sys2Proof

/-- The OPEN parameters of R6. The constraints `HLEN >= 1`, `QBITS_MAX >= QLEN_MIN`, `N_INST >= 1` and "the result of
HMAC has HLEN octets" hold by the way the fields are read below, for every value of the fields (log 5). -/
structure Params where
  /-- `HLEN - 1` (D23: `HLEN >= 1`). -/
  hlenPred : Nat
  /-- octet number `i` of `HMAC(key, msg)`. -/
  mac : Octets → Octets → Nat → Octet
  /-- `QBITS_MAX - 8`, or none where QBITS_MAX is infinite (D22). -/
  qbitsSlack : Option Nat
  /-- DLEN_MAX, or none where it is infinite (D22). -/
  dlenMax : Option Nat
  /-- `N_INST - 1` (D30). -/
  ninstPred : Nat
  deriving Inhabited

/-- HLEN, the number of octets of an HMAC result, of K and of V (R6). -/
def Params.hlen (P : Params) : Nat := P.hlenPred + 1

/-- The HMAC unit: a total function of its two operands alone, with HLEN octets of result (R6, R159). -/
def Params.hmac (P : Params) (key msg : Octets) : Octets := (List.range P.hlen).map (P.mac key msg)

/-- QBITS_MAX, none where it is infinite (R6). -/
def Params.qbitsMax (P : Params) : Option Nat := P.qbitsSlack.map (· + 8)

/-- N_INST (R6, R43). -/
def Params.ninst (P : Params) : Nat := P.ninstPred + 1

/-- The parameters of the machine that is modelled: no value is fixed, nothing in Lean can evaluate them (log 4). -/
opaque Config.params : Params

end Sys2Proof
end

