-- ==== Sys2Proof/Machine/Operands.lean ====
section
/-! DEFINITION. Every operand computation: derived quantities (00_scope R9), the big-endian conversions (20_memory R52),
the codec functions (40_codec R91 to R94), the HMAC messages (20_memory R62) and the size checks (60_exceptions R187). -/

namespace Sys2Proof.Machine

/-- Bit length: the least `L` with `n < 2^L` (R9). -/
def bitlen (n : Nat) : Nat := if n = 0 then 0 else n.log2 + 1

/-- `ceil(n/8) = floor((n + 7)/8)` (R9, R99). -/
def ceilDiv8 (n : Nat) : Nat := (n + 7) / 8

/-- qlen, the bit length of the group order (R9). -/
def qlenOf (q : Nat) : Nat := bitlen q

/-- rolen, its byte length rounded up (R9). -/
def rolenOf (q : Nat) : Nat := ceilDiv8 (qlenOf q)

/-- The threshold of the production loop, in octets: `floor(qlen/8)` (R9, R119). -/
def thresholdOf (q : Nat) : Nat := qlenOf q / 8

/-- Blocks per attempt: `nb = ceil(floor(qlen/8) / HLEN)` (R119). -/
def blocksOf (P : Params) (q : Nat) : Nat := (thresholdOf q + P.hlenPred) / P.hlen

/-- QLEN_MIN, the least qlen GENERATE admits (R6). -/
def qlenMin : Nat := 8

/-- `rep(b, n)` (R7). -/
def rep (b : Octet) (n : Nat) : Octets := List.replicate n b

/-- OS2I: big-endian, octet 0 the most significant (R51, R52). -/
def os2i (s : Octets) : Nat := s.foldl (fun acc b => acc * 256 + b.toNat) 0

/-- The octets `floor(v / 256^(n-1-i)) mod 256`, `i = 0..n-1` (R52); I2OS where `v < 256^n`. -/
def i2os (v : Nat) : Nat → Octets
  | 0 => []
  | n + 1 => BitVec.ofNat 8 (v / 256 ^ n) :: i2os v n

/-- bits2int: the first qlen bits of a wider string, a string no wider than qlen unchanged (R91). -/
def bits2int (bytes : Octets) (qlen : Nat) : Nat :=
  let v := os2i bytes
  let blen := 8 * bytes.length
  if blen > qlen then v >>> (blen - qlen) else v

/-- int2octets: exactly rolen octets, no value for `v >= 2^(8*rolen)` (R92). -/
def int2octets (v rolen : Nat) : Option Octets :=
  if v < 2 ^ (8 * rolen) then some (i2os v rolen) else none

/-- bits2IntModQ: bits2int, then q subtracted once where the result is not below q; never repeated (R93). -/
def bits2IntModQ (bytes : Octets) (q qlen : Nat) : Nat :=
  let z := bits2int bytes qlen
  if z ≥ q then z - q else z

/-- bits2octets (R94). -/
def bits2octets (hash : Octets) (q qlen rolen : Nat) : Option Octets :=
  int2octets (bits2IntModQ hash q qlen) rolen

/-- The fill octets of V and K at initialisation (R75, R113). -/
def initV (P : Params) : Octets := rep 0x01#8 P.hlen

/-- As `initV`, for K. -/
def initK (P : Params) : Octets := rep 0x00#8 P.hlen

/-- HMAC message (a) of R62: V alone. -/
def msgV (v : Octets) : Octets := v

/-- HMAC message (b) of R62: V, one separator octet, the seed. -/
def msgSeed (v : Octets) (sep : Octet) (seed : Octets) : Octets := v ++ [sep] ++ seed

/-- HMAC message (c) of R62: V and the octet 0x00. -/
def msgRetry (v : Octets) : Octets := v ++ [0x00#8]

/-- An integer register holds the value: `bitlen(v) <= QBITS_MAX` (R21, R187). -/
def fitsInt (P : Params) (n : Nat) : Bool :=
  match P.qbitsMax with
  | some m => decide (bitlen n ≤ m)
  | none => true

/-- IBUF holds the string: `len(v) <= DLEN_MAX` (R23, R187). -/
def fitsOctets (P : Params) (o : Octets) : Bool :=
  match P.dlenMax with
  | some m => decide (o.length ≤ m)
  | none => true

/-- OBUF holds the string: at most `ceil(QBITS_MAX/8)` octets (R26, R50). -/
def fitsObuf (P : Params) (o : Octets) : Bool :=
  match P.qbitsMax with
  | some m => decide (o.length ≤ ceilDiv8 m)
  | none => true

end Sys2Proof.Machine
end

