-- ==== Sys2Proof/Machine/Ops.lean ====
section
/-! DEFINITION. The shared operations: reading an item that may hold no value, buffers by octet offset, erasure, taking a
fault and the one way out of it, and the admission of a command by stage class. -/

namespace Sys2Proof.Machine

/-- The outcome of a step of this machine. -/
abbrev Out := Host.Outcome State Fault Refusal

/-- Reads an item that holds a value; an item that holds `none` is never read (R8, log 6). -/
def need {α : Type} (o : Option α) (f : Fault) (body : α → Out) : Out :=
  match o with
  | some a => body a
  | none => .fault f

/-- `MemRead(buf + off, n)`: the `n` octets from offset `off`, inside one buffer (R8, R50). -/
def memRead (b : Octets) (off n : Nat) : Octets := (b.drop off).take n

/-- `MemWrite(buf + off, n, v)`, `n = len(v)`: the octets of `v` stored from offset `off` (R8, R50). -/
def memWrite (b : Octets) (off : Nat) (v : Octets) : Octets := b.take off ++ v ++ b.drop (off + v.length)

/-- The octet string a buffer space holds, none where the item holds no value (R50). -/
def State.buffer (s : State) : Buffer → Option Octets
  | .ibuf => some s.ibuf
  | .obuf => some s.obuf
  | .seed => s.seed
  | .t => s.t
  | .k => s.k
  | .v => s.v

/-- One octet of a buffer space, none beyond the string's end (R50). -/
def State.octetAt (s : State) (b : Buffer) (off : Nat) : Option Octet := (s.buffer b).bind (fun o => o[off]?)

/-- Every buffer is within its capacity (R50; K, V, T, SEED by R33 to R36). -/
def Memory.wf (P : Params) (s : State) : Prop :=
  fitsOctets P s.ibuf = true ∧ fitsObuf P s.obuf = true
    ∧ (∀ o, s.k = some o → o.length = P.hlen) ∧ (∀ o, s.v = some o → o.length = P.hlen)
    ∧ (∀ o, s.t = some o → P.hlen ∣ o.length ∧ o.length ≤ P.hlen * blocksOf P s.q)
    ∧ (∀ o, s.seed = some o → o.length = 2 * rolenOf s.q)

/-- Every item of R20 to its reset value (R40): the whole effect of reset (R210), and of CLEAR (R153). -/
def eraseItems (s : State) : State := { State.reset with script := s.script, reply := s.reply }

/-- Fault entry, the machine's one exception: every item but STAGE and CAUSE to its reset value, CAUSE set, STAGE to
FAULT; nothing is saved (R188). -/
def faultEntry (c : Cause) (s : State) : State := { eraseItems s with cause := c, stage := .fault }

/-- The only way out of FAULT (R189): reset (R210). -/
def resetEntry (s : State) : State := eraseItems s

/-- `raise C` (R8, R188). -/
def raise (c : Cause) (s : State) : Out := .next (faultEntry c s)

/-- A command admitted in one stage class: performed there, PROTOCOL in any other class (R71, R183), and ignored in
FAULT like every write (R189, log 13). -/
def command (admitted : StageClass) (body : State → Out) (s : State) : Out :=
  if s.cls = .fault then .next s
  else if s.cls = admitted then body s
  else raise .protocol s

end Sys2Proof.Machine
end

