-- ==== Sys2Proof/Machine/Codec.lean ====
section
/-! DEFINITION. The four codec commands (40_codec R95 to R98). -/

namespace Sys2Proof.Machine

/-- BITS2INT: `RINT <- bits2int(IBUF, bitlen(Q))` (R95). -/
def execBits2int (s : State) : Out :=
  command .idle (fun s => .next { s with rint := bits2int s.ibuf (qlenOf s.q) }) s

/-- INT2OCTETS: `OBUF <- int2octets(AINT, rolen)`, INT_RANGE where there is no such value (R96, R186). -/
def execInt2octets (s : State) : Out :=
  command .idle (fun s =>
    match int2octets s.aint (rolenOf s.q) with
    | some o => .next { s with obuf := o }
    | none => raise .intRange s) s

/-- BITS2INTMODQ: `RINT <- bits2IntModQ(IBUF, Q, bitlen(Q))`, Q_RANGE where `Q = 0` (R97). -/
def execBits2intmodq (s : State) : Out :=
  command .idle (fun s =>
    if s.q = 0 then raise .qRange s
    else .next { s with rint := bits2IntModQ s.ibuf s.q (qlenOf s.q) }) s

/-- BITS2OCTETS: `OBUF <- bits2octets(IBUF, Q, qlen, rolen)`, Q_RANGE where `Q = 0`; the octets always exist (R98, R94). -/
def execBits2octets (s : State) : Out :=
  command .idle (fun s =>
    if s.q = 0 then raise .qRange s
    else need (bits2octets s.ibuf s.q (qlenOf s.q) (rolenOf s.q)) .octetsDoNotFit
      fun o => .next { s with obuf := o }) s

end Sys2Proof.Machine
end

