-- ==== Sys2Proof/Machine/Generator.lean ====
section
/-! DEFINITION. GENERATE and the thirteen micro-operations (41_generator R111 to R124). Each micro-operation that uses the
HMAC unit or HLEN is written over the parameters `P` first, so that the spec's toy MAC can be put in; its meaning in the
machine is that at `Config.params`. A micro-operation does not test STAGE: the engine performs the one STAGE names. -/

namespace Sys2Proof.Machine

/-- GENERATE: the admission checks in the order Q_RANGE, X_RANGE, then a generation is started (R111). -/
def execGenerate (s : State) : Out :=
  command .idle (fun s =>
    if qlenOf s.q < qlenMin then raise .qRange s
    else match s.x with
      | none => raise .xRange s
      | some x =>
        if x = 0 ∨ x ≥ s.q then raise .xRange s
        else .next { s with rv := false, kout := none, eout := none, stage := .seed }) s

/-- SEED, stage code 1: `e`, then `int2octets(X, rolen) ‖ int2octets(e, rolen)` (R112). -/
def execSeed (s : State) : Out :=
  let rolen := rolenOf s.q
  let e := bits2IntModQ s.ibuf s.q (qlenOf s.q)
  need s.x (.noValue .x) fun x =>
  need (int2octets x rolen) .octetsDoNotFit fun xo =>
  need (int2octets e rolen) .octetsDoNotFit fun eo =>
  .next { s with eout := some e, seed := some (xo ++ eo), stage := .init }

/-- INIT, stage code 2 (R113). -/
def initOp (P : Params) (s : State) : Out :=
  .next { s with v := some (initV P), k := some (initK P), stage := .ratchD }

/-- `K <- HMAC(K, V ‖ sep ‖ SEED)`, then the stage `next`. -/
def ratchKey (P : Params) (sep : Octet) (next : Stage) (s : State) : Out :=
  need s.k (.noValue .k) fun k =>
  need s.v (.noValue .v) fun v =>
  need s.seed (.noValue .seed) fun sd =>
  .next { s with k := some (P.hmac k (msgSeed v sep sd)), stage := next }

/-- `V <- HMAC(K, V)`, then what `after` does to the state with the new V. -/
def stepValue (P : Params) (after : State → State) (s : State) : Out :=
  need s.k (.noValue .k) fun k =>
  need s.v (.noValue .v) fun v =>
  .next (after { s with v := some (P.hmac k (msgV v)) })

/-- RATCH_D, stage code 3: separator 0x00 (R114). -/
def ratchD (P : Params) (s : State) : Out := ratchKey P 0x00#8 .ratchE s

/-- RATCH_E, stage code 4 (R115). -/
def ratchE (P : Params) (s : State) : Out := stepValue P (fun s => { s with stage := .ratchF }) s

/-- RATCH_F, stage code 5: separator 0x01 (R116). -/
def ratchF (P : Params) (s : State) : Out := ratchKey P 0x01#8 .ratchG s

/-- RATCH_G, stage code 6: SEED and X are erased (R117). -/
def ratchG (P : Params) (s : State) : Out :=
  stepValue P (fun s => { s with seed := none, x := none, stage := .tReset }) s

/-- T_RESET, stage code 7 (R118). -/
def execTReset (s : State) : Out := .next { s with t := some [], stage := .tBlock }

/-- T_BLOCK, stage code 8: one more block while `len(T) < floor(qlen/8)` octets, tested first (R119). -/
def tBlock (P : Params) (s : State) : Out :=
  need s.t (.noValue .t) fun t =>
  if t.length < thresholdOf s.q then
    need s.k (.noValue .k) fun k =>
    need s.v (.noValue .v) fun v =>
    let v' := P.hmac k (msgV v)
    .next { s with v := some v', t := some (memWrite t t.length v'), stage := .tBlock }
  else .next { s with stage := .formK }

/-- FORM_K, stage code 9: every candidate is written, in range or not (R120). -/
def execFormK (s : State) : Out :=
  need s.t (.noValue .t) fun t =>
  .next { s with kout := some (bits2int t (qlenOf s.q)), stage := .range }

/-- RANGE, stage code 10: the predicate is consulted only for `1 <= KOUT < Q` (R121). -/
def execRange (s : State) : Out :=
  need s.kout (.noValue .kout) fun k =>
  .next { s with stage := if 1 ≤ k ∧ k < s.q then .predWait else .updK }

/-- PRED_WAIT, stage code 11: the engine has no step here, it holds (R122). -/
def execPredWait (s : State) : Out := .next s

/-- UPD_K, stage code 12 (R123). -/
def updK (P : Params) (s : State) : Out :=
  need s.k (.noValue .k) fun k =>
  need s.v (.noValue .v) fun v =>
  .next { s with k := some (P.hmac k (msgRetry v)), stage := .updV }

/-- UPD_V, stage code 13 (R124). -/
def updV (P : Params) (s : State) : Out := stepValue P (fun s => { s with stage := .tReset }) s

/-- INIT of the machine (R113). -/
def execInit (s : State) : Out := initOp Config.params s

/-- RATCH_D of the machine (R114). -/
def execRatchD (s : State) : Out := ratchD Config.params s

/-- RATCH_E of the machine (R115). -/
def execRatchE (s : State) : Out := ratchE Config.params s

/-- RATCH_F of the machine (R116). -/
def execRatchF (s : State) : Out := ratchF Config.params s

/-- RATCH_G of the machine (R117). -/
def execRatchG (s : State) : Out := ratchG Config.params s

/-- T_BLOCK of the machine (R119). -/
def execTBlock (s : State) : Out := tBlock Config.params s

/-- UPD_K of the machine (R123). -/
def execUpdK (s : State) : Out := updK Config.params s

/-- UPD_V of the machine (R124). -/
def execUpdV (s : State) : Out := updV Config.params s

end Sys2Proof.Machine
end

