-- ==== Sys2Proof/Machine/Predicate.lean ====
section
/-! DEFINITION. The commands of the predicate port and CLEAR (42_predicate_and_host R151 to R153). -/

namespace Sys2Proof.Machine

/-- ACCEPT: the generation ends, KOUT and EOUT stay readable (R151). -/
def execAccept (s : State) : Out :=
  command .wait (fun s => .next { s with rv := true, k := none, v := none, t := none, stage := .idle }) s

/-- REJECT: the path of an out-of-range candidate (R152). -/
def execReject (s : State) : Out :=
  command .wait (fun s => .next { s with stage := .updK }) s

/-- CLEAR: every item of R20 to its reset value (R153). -/
def execClear (s : State) : Out := command .idle (fun s => .next (eraseItems s)) s

end Sys2Proof.Machine
end

