-- ==== Sys2Proof/Machine/Dispatch.lean ====
section
/-! DEFINITION. What each instruction does: one arm per row of the opcode table. -/

namespace Sys2Proof.Machine

def exec (i : Instr) (s : State) : Host.Outcome State Fault Refusal :=
  match i with
  | .bits2int => Sys2Proof.Machine.execBits2int s
  | .int2octets => Sys2Proof.Machine.execInt2octets s
  | .bits2intmodq => Sys2Proof.Machine.execBits2intmodq s
  | .bits2octets => Sys2Proof.Machine.execBits2octets s
  | .generate => Sys2Proof.Machine.execGenerate s
  | .accept => Sys2Proof.Machine.execAccept s
  | .reject => Sys2Proof.Machine.execReject s
  | .clear => Sys2Proof.Machine.execClear s
  | .seed => Sys2Proof.Machine.execSeed s
  | .init => Sys2Proof.Machine.execInit s
  | .ratchD => Sys2Proof.Machine.execRatchD s
  | .ratchE => Sys2Proof.Machine.execRatchE s
  | .ratchF => Sys2Proof.Machine.execRatchF s
  | .ratchG => Sys2Proof.Machine.execRatchG s
  | .tReset => Sys2Proof.Machine.execTReset s
  | .tBlock => Sys2Proof.Machine.execTBlock s
  | .formK => Sys2Proof.Machine.execFormK s
  | .range => Sys2Proof.Machine.execRange s
  | .predWait => Sys2Proof.Machine.execPredWait s
  | .updK => Sys2Proof.Machine.execUpdK s
  | .updV => Sys2Proof.Machine.execUpdV s

end Sys2Proof.Machine
end

