-- ==== Sys2Proof/Decode.lean ====
section
/-! DEFINITION. Codes to instructions and back (30_encoding R71 to R73, R76), total, rejecting by name. -/

namespace Sys2Proof

/-- The opcode map of R71. -/
def cmd8Table : List (BitVec 8 × Instr) :=
  [(0x01#8, .bits2int), (0x02#8, .int2octets), (0x03#8, .bits2intmodq), (0x04#8, .bits2octets),
   (0x10#8, .generate), (0x11#8, .accept), (0x12#8, .reject), (0x1F#8, .clear)]

/-- The micro-operations by stage code (R73, R32). -/
def stage4Table : List (BitVec 4 × Instr) :=
  [(1#4, .seed), (2#4, .init), (3#4, .ratchD), (4#4, .ratchE), (5#4, .ratchF), (6#4, .ratchG), (7#4, .tReset),
   (8#4, .tBlock), (9#4, .formK), (10#4, .range), (11#4, .predWait), (12#4, .updK), (13#4, .updV)]

/-- The decoder of a CMD write: a value that matches no CMD8 row is illegal (R72, R80). -/
def decodeCmd8 (c : BitVec 8) : Except DecodeError Instr :=
  match cmd8Table.find? (fun r => r.1 == c) with
  | some r => .ok r.2
  | none => .error (.undefinedOpcode c)

/-- The decoder of the stage register: which micro-operation the engine performs next (R32). -/
def decodeStage4 (c : BitVec 4) : Except DecodeError Instr :=
  match stage4Table.find? (fun r => r.1 == c) with
  | some r => .ok r.2
  | none => if c = 14#4 then .error .reservedStage else .error (.noMicroOperation c)

/-- Decoding, by the place the code stands in (R80). -/
def decode : Encoding → Except DecodeError Instr
  | .cmd8 c => decodeCmd8 c
  | .stage4 c => decodeStage4 c

/-- The code of an instruction, from the tables R71 and R73. -/
def encode : Instr → Encoding
  | .bits2int => .cmd8 0x01#8
  | .int2octets => .cmd8 0x02#8
  | .bits2intmodq => .cmd8 0x03#8
  | .bits2octets => .cmd8 0x04#8
  | .generate => .cmd8 0x10#8
  | .accept => .cmd8 0x11#8
  | .reject => .cmd8 0x12#8
  | .clear => .cmd8 0x1F#8
  | .seed => .stage4 1#4
  | .init => .stage4 2#4
  | .ratchD => .stage4 3#4
  | .ratchE => .stage4 4#4
  | .ratchF => .stage4 5#4
  | .ratchG => .stage4 6#4
  | .tReset => .stage4 7#4
  | .tBlock => .stage4 8#4
  | .formK => .stage4 9#4
  | .range => .stage4 10#4
  | .predWait => .stage4 11#4
  | .updK => .stage4 12#4
  | .updV => .stage4 13#4

/-- The instruction of a decoder's answer, if any. -/
def instrOf : Except DecodeError Instr → Option Instr
  | .ok i => some i
  | .error _ => none

/-- The instruction whose table bits are `w`. A row of up to four bits is a STAGE4 row. A whole octet is a CMD8
opcode; where no CMD8 row has it and its upper four bits are zero, it is a STAGE4 code filled up to a whole byte
(the table's two formats share the codes 1 to 4, which then name the CMD8 row; log 9). This numbering is the table's:
the machine itself never takes an octet written to CMD for a stage code (`decodeCmd8`). -/
def decodeTableWord (nbits w : Nat) : Option Instr :=
  if nbits ≤ 4 then
    if w < 16 then instrOf (decodeStage4 (BitVec.ofNat 4 w)) else none
  else if w < 256 then
    match decodeCmd8 (BitVec.ofNat 8 w) with
    | .ok i => some i
    | .error _ => if w < 16 then instrOf (decodeStage4 (BitVec.ofNat 4 w)) else none
  else none

/-- The registers in the order of their numbers (R76). -/
def regTable : List Reg :=
  [.cmd, .status, .q, .x, .ibuf, .aint, .rint, .obuf, .kout, .eout, .qlen, .rolen, .hlen]

/-- The register with number `n`; numbers 13 and above are unassigned (R76). -/
def regOfNum (n : Nat) : Option Reg := regTable[n]?

/-- The number of a register (R76). -/
def regNum : Reg → Nat
  | .cmd => 0
  | .status => 1
  | .q => 2
  | .x => 3
  | .ibuf => 4
  | .aint => 5
  | .rint => 6
  | .obuf => 7
  | .kout => 8
  | .eout => 9
  | .qlen => 10
  | .rolen => 11
  | .hlen => 12

end Sys2Proof
end

