-- ==== Sys2Proof/WellFormed.lean ====
section
/-! DEFINITION. Which transactions are well formed: a value written is "a whole abstract value of the register's kind"
(30_encoding R77). An instruction has no operand field, so every `Instr` is well formed. -/

namespace Sys2Proof

/-- The value is of the register's kind: an 8-bit natural for CMD and STATUS, an octet string for IBUF and OBUF, a
natural for every other register (R77). -/
def valueFits : Reg → Value → Bool
  | .cmd, .nat n => decide (n < 256)
  | .status, .nat n => decide (n < 256)
  | .cmd, .octets _ => false
  | .status, .octets _ => false
  | .ibuf, .octets _ => true
  | .ibuf, .nat _ => false
  | .obuf, .octets _ => true
  | .obuf, .nat _ => false
  | _, .nat _ => true
  | _, .octets _ => false

/-- A write of an assigned register carries a value of its kind; every other event is well formed. -/
def eventWf : Event → Bool
  | .write n v => match regOfNum n with
    | some r => valueFits r v
    | none => true
  | .read _ => true
  | .await _ => true
  | .engine => true
  | .reset => true

/-- Every event of a script is well formed. -/
def scriptWf (es : List Event) : Bool := es.all eventWf

end Sys2Proof
end

