-- ==== Sys2Proof/Machine/Access.lean ====
section
/-! DEFINITION. The access table (10_state R39), what a permitted read returns, and what a permitted data write stores. -/

namespace Sys2Proof.Machine

/-- Reading or writing. -/
inductive AccessKind where
  | read | write
  deriving DecidableEq, Repr

/-- An entry of the table of R39: performed, PROTOCOL, or (class FAULT) the reset image is read and a write is ignored. -/
inductive Permission where
  | ok | protocol | image
  deriving DecidableEq, Repr

/-- An entry that is ok in one class of the three and PROTOCOL in the others. -/
def onlyIn (want have_ : StageClass) : Permission := if have_ = want then .ok else .protocol

/-- The rows of R39 for the classes IDLE, RUN and WAIT. -/
def accessOutsideFault (r : Reg) (a : AccessKind) (c : StageClass) (rv : Bool) : Permission :=
  match r, a with
  | .cmd, .write => .ok
  | .cmd, .read => .protocol
  | .status, .read => .ok
  | .status, .write => .protocol
  | .q, .read | .ibuf, .read | .aint, .read => .ok
  | .q, .write | .ibuf, .write | .aint, .write => onlyIn .idle c
  | .x, .write => onlyIn .idle c
  | .x, .read => .protocol
  | .rint, .read | .obuf, .read | .qlen, .read | .rolen, .read | .hlen, .read => .ok
  | .rint, .write | .obuf, .write | .qlen, .write | .rolen, .write | .hlen, .write => .protocol
  | .kout, .read | .eout, .read =>
    match c with
    | .idle => if rv then .ok else .protocol
    | .run => .protocol
    | .wait => .ok
    | .fault => .image
  | .kout, .write | .eout, .write => .protocol

/-- The access table (R39). -/
def access (r : Reg) (a : AccessKind) (c : StageClass) (rv : Bool) : Permission :=
  if c = .fault then (if r = .status ∧ a = .read then .ok else .image)
  else accessOutsideFault r a c rv

/-- The reset image a read returns in FAULT; HLEN still reads HLEN (R39, R189). -/
def resetImage (P : Params) : Reg → Value
  | .ibuf | .obuf => .octets []
  | .hlen => .nat P.hlen
  | .cmd | .status | .q | .x | .aint | .rint | .kout | .eout | .qlen | .rolen => .nat 0

/-- What a permitted read returns (R21 to R31); QLEN and ROLEN are functions of the current Q (R29). `none` where the
register has no value to give: CMD and X are never readable, KOUT and EOUT may hold `none`. -/
def regValue (P : Params) (s : State) : Reg → Option Value
  | .cmd => none
  | .status => some (.nat s.status.toNat)
  | .q => some (.nat s.q)
  | .x => none
  | .ibuf => some (.octets s.ibuf)
  | .aint => some (.nat s.aint)
  | .rint => some (.nat s.rint)
  | .obuf => some (.octets s.obuf)
  | .kout => s.kout.map .nat
  | .eout => s.eout.map .nat
  | .qlen => some (.nat (qlenOf s.q))
  | .rolen => some (.nat (rolenOf s.q))
  | .hlen => some (.nat P.hlen)

/-- A permitted data write in IDLE: the register takes the whole value, or OPERAND_SIZE where it cannot hold it (R187).
Only Q, X, IBUF and AINT are ever written by the host (R39). -/
def storeOperand (P : Params) (r : Reg) (v : Value) (s : State) : State :=
  match r, v with
  | .q, .nat n => if fitsInt P n then { s with q := n } else faultEntry .operandSize s
  | .x, .nat n => if fitsInt P n then { s with x := some n } else faultEntry .operandSize s
  | .aint, .nat n => if fitsInt P n then { s with aint := n } else faultEntry .operandSize s
  | .ibuf, .octets o => if fitsOctets P o then { s with ibuf := o } else faultEntry .operandSize s
  | _, _ => s

end Sys2Proof.Machine
end

