-- ==== Sys2Proof/Machine/Fetch.lean ====
section
/-! DEFINITION. What happens next: the head of the script, a host transaction, a reset, or the engine's turn. A CMD write
and an engine's turn yield an instruction; everything else is settled here. -/

namespace Sys2Proof.Machine

/-- What the fetch finds. -/
inductive Fetched where
  /-- an instruction to perform in the given state -/
  | instr (i : Instr) (s : State)
  /-- no instruction: the transaction, the reset or the idle turn leaves this state -/
  | settled (s : State)
  /-- a permitted read of an item that holds no value (no state reached from reset has one; log 18) -/
  | stuck (f : Fault)
  /-- a value that is not of the register's kind: no transaction (R77; log 8) -/
  | malformed
  deriving DecidableEq, Repr

/-- The engine's turn: the micro-operation STAGE names; in IDLE and FAULT there is none (R32, R189). -/
def engineTurn (s : State) : Fetched :=
  match decodeStage4 s.stage.code with
  | .ok i => .instr i s
  | .error _ => .settled s

/-- The value a host read returns goes to the host: `R(n) -> value` (R77). -/
def answer (v : Value) (s : State) : State := { s with reply := some v }

/-- A read that is not permitted: PROTOCOL, and no value is returned (R39, U15; log 17). -/
def refuseRead (s : State) : State := { faultEntry .protocol s with reply := none }

/-- The item a gated register reads. -/
def itemOf : Reg → Item
  | .eout => .eout
  | .x => .x
  | _ => .kout

/-- A host read `R(n)` (R39, R55). A number above 12 is PROTOCOL outside FAULT and reads natural 0 there. -/
def hostRead (P : Params) (n : Nat) (s : State) : Fetched :=
  match regOfNum n with
  | none => if s.cls = .fault then .settled (answer (.nat 0) s) else .settled (refuseRead s)
  | some r =>
    match access r .read s.cls s.rv with
    | .protocol => .settled (refuseRead s)
    | .image => .settled (answer (resetImage P r) s)
    | .ok =>
      match regValue P s r with
      | some v => .settled (answer v s)
      | none => .stuck (.noValue (itemOf r))

/-- A CMD write outside FAULT: decode first, an undefined opcode is ILLEGAL_CMD whatever the class (R30, R72, R190). -/
def issue (c : BitVec 8) (s : State) : Fetched :=
  match decodeCmd8 c with
  | .ok i => .instr i s
  | .error _ => .settled (faultEntry .illegalCmd s)

/-- A host write `W(n, v)` (R39, R190). -/
def hostWrite (P : Params) (n : Nat) (v : Value) (s : State) : Fetched :=
  match regOfNum n with
  | none => if s.cls = .fault then .settled s else .settled (faultEntry .protocol s)
  | some r =>
    if valueFits r v = false then .malformed
    else match access r .write s.cls s.rv with
      | .image => .settled s
      | .protocol => .settled (faultEntry .protocol s)
      | .ok =>
        match r, v with
        | .cmd, .nat c => issue (BitVec.ofNat 8 c) s
        | _, _ => .settled (storeOperand P r v s)

/-- A `WAIT` line (R78): where STATUS shows the condition, its read returns STATUS and the line is done; else the engine
has its turn and the line is tried again (log 12). -/
def hostAwait (c : Cond) (rest : List Event) (s : State) : Fetched :=
  if condHolds c s then .settled (answer (.nat s.status.toNat) { s with script := rest })
  else engineTurn s

/-- The next atomic step in the one total order of R57. With nothing to come the engine runs on alone (log 2). -/
def fetch (P : Params) (s : State) : Fetched :=
  match s.script with
  | [] => engineTurn s
  | .engine :: rest => engineTurn { s with script := rest }
  | .write n v :: rest => hostWrite P n v { s with script := rest }
  | .read n :: rest => hostRead P n { s with script := rest }
  | .await c :: rest => hostAwait c rest s
  | .reset :: rest => .settled (resetEntry { s with script := rest })

/-- The stage whose micro-operation an instruction is. -/
def stageOf : Instr → Option Stage
  | .seed => some .seed
  | .init => some .init
  | .ratchD => some .ratchD
  | .ratchE => some .ratchE
  | .ratchF => some .ratchF
  | .ratchG => some .ratchG
  | .tReset => some .tReset
  | .tBlock => some .tBlock
  | .formK => some .formK
  | .range => some .range
  | .predWait => some .predWait
  | .updK => some .updK
  | .updV => some .updV
  | .bits2int | .int2octets | .bits2intmodq | .bits2octets | .generate | .accept | .reject | .clear => none

/-- What a value-less item holds when a generation has reached the stages that read it: K and V as INIT writes them, T
empty, zero octets of seed, zero for X and KOUT. An item that holds a value keeps it. Used by `placeWord` alone (log 9). -/
def fillForEngine (P : Params) (s : State) : State :=
  { s with
    x := some (s.x.getD 0)
    kout := some (s.kout.getD 0)
    k := some (s.k.getD (initK P))
    v := some (s.v.getD (initV P))
    t := some (s.t.getD [])
    seed := some (s.seed.getD (rep 0x00#8 (2 * rolenOf s.q))) }

/-- The instruction whose table bits are `w` placed where the next step finds it: a command is the host's next CMD write;
a micro-operation is what STAGE names, with the engine's turn next and the items it may read holding values; bits that are
no instruction are a CMD write all the same (log 9). -/
def placeWord (P : Params) (s : State) (nbits w : Nat) : State :=
  match decodeTableWord nbits w with
  | none => { s with script := .write 0 (.nat (w % 256)) :: s.script }
  | some i =>
    match stageOf i with
    | none => { s with script := .write 0 (.nat w) :: s.script }
    | some g => { fillForEngine P s with stage := g, script := .engine :: s.script }

end Sys2Proof.Machine
end

