-- ==== Sys2Proof/Machine/Step.lean ====
section
/-! DEFINITION. One atomic step: fetch what happens next, and perform the instruction it yields. -/

namespace Sys2Proof.Machine

/-- One step of the machine: one host transaction, one micro-operation or one reset (00_scope R10). -/
def step (s : State) : Host.Outcome State Fault Refusal :=
  match fetch Config.params s with
  | .instr i t => exec i t
  | .settled t => .next t
  | .stuck f => .fault f
  | .malformed => .refused .malformedTransaction

/-- `s` with the instruction of the table bits `w` where `step` fetches next (log 9). -/
def State.withFetchWord (s : State) (nbits w : Nat) : State := placeWord Config.params s nbits w

end Sys2Proof.Machine
end

