-- ==== Sys2Proof/Machine/BigStep.lean ====
section
/-! DEFINITION. GenerateSecret, the reference big-step form of the generator (41_generator R125), under fuel since the
retry loop has no bound (R127). It is not used by the step; R132 says the two define the same thing. -/

namespace Sys2Proof.Machine

/-- The production loop of one attempt (stage 4): V and T after it. Every block adds at least one octet, so the
threshold is fuel enough. -/
def produceLoop (P : Params) (threshold : Nat) (k : Octets) : Nat → Octets → Octets → Octets × Octets
  | 0, v, t => (v, t)
  | fuel + 1, v, t =>
    if t.length < threshold then
      let v' := P.hmac k v
      produceLoop P threshold k fuel v' (t ++ v')
    else (v, t)

/-- Stage 4: V and T after an attempt that starts from K and V with T empty. -/
def produce (P : Params) (q : Nat) (k v : Octets) : Octets × Octets :=
  produceLoop P (thresholdOf q) k (thresholdOf q) v []

/-- What a generation comes to: a nonce accepted, a candidate the predicate agent has not answered, or fuel used up before
the attempt that K and V stand at, with the answers left. `offered` lists the candidates offered before, in order. -/
inductive GenResult where
  | accepted (k e : Nat) (offered : List Nat)
  | pending (k e : Nat) (offered : List Nat)
  | outOfFuel (k v : Octets) (e : Nat) (answers : List Bool) (offered : List Nat)
  deriving DecidableEq, Repr

/-- The loop of R125: `fuel` candidates at most; the predicate's answers are a list, consulted only for a candidate in
range. -/
def genLoop (P : Params) (q e : Nat) : Nat → Octets → Octets → List Bool → List Nat → GenResult
  | 0, k, v, answers, offered => .outOfFuel k v e answers offered
  | fuel + 1, k, v, answers, offered =>
    let vt := produce P q k v
    let cand := bits2int vt.2 (qlenOf q)
    let k' := P.hmac k (msgRetry vt.1)
    let v' := P.hmac k' vt.1
    if 1 ≤ cand ∧ cand < q then
      match answers with
      | [] => .pending cand e offered
      | true :: _ => .accepted cand e offered
      | false :: rest => genLoop P q e fuel k' v' rest (offered ++ [cand])
    else genLoop P q e fuel k' v' answers offered

/-- GenerateSecret (R125); no value where its precondition `qlen >= 8`, `1 <= x < q` fails (R185, U2). -/
def generateSecret (P : Params) (fuel q x : Nat) (digest : Octets) (answers : List Bool) : Option GenResult :=
  if qlenOf q < qlenMin ∨ x = 0 ∨ x ≥ q then none
  else
    let e := bits2IntModQ digest q (qlenOf q)
    match int2octets x (rolenOf q), int2octets e (rolenOf q) with
    | some xo, some eo =>
      let seed := xo ++ eo
      let k1 := P.hmac (initK P) (msgSeed (initV P) 0x00#8 seed)
      let v1 := P.hmac k1 (initV P)
      let k2 := P.hmac k1 (msgSeed v1 0x01#8 seed)
      let v2 := P.hmac k2 v1
      some (genLoop P q e fuel k2 v2 answers [])
    | _, _ => none

end Sys2Proof.Machine
end

