-- ==== Sys2Proof/Machine/Script.lean ====
section
/-! DEFINITION. The script notation (30_encoding R78) and its pseudo-instructions (R79), as lists of events. -/

namespace Sys2Proof.Machine

/-- `WR <reg>, <value>` (R78). -/
def wr (r : Reg) (v : Value) : Event := .write (regNum r) v

/-- `RD <reg>` (R78). -/
def rd (r : Reg) : Event := .read (regNum r)

/-- `CMD <mnemonic>`: a write of the opcode to register 0; a micro-operation cannot be issued (R73, R78). -/
def cmd (i : Instr) : List Event :=
  match encode i with
  | .cmd8 c => [wr .cmd (.nat c.toNat)]
  | .stage4 _ => []

/-- GENSECRET q, x, d (R79). -/
def genSecret (q x : Nat) (d : Octets) : List Event :=
  [wr .q (.nat q), wr .x (.nat x), wr .ibuf (.octets d)] ++ cmd .generate

/-- ACCEPTFIRST (R79). -/
def acceptFirst : List Event := .await .predReq :: cmd .accept

/-- REJECTN n (R79). -/
def rejectN : Nat → List Event
  | 0 => []
  | n + 1 => .await .predReq :: (cmd .reject ++ rejectN n)

/-- B2I d (R79). -/
def b2i (d : Octets) : List Event := wr .ibuf (.octets d) :: (cmd .bits2int ++ [rd .rint])

/-- I2O v (R79). -/
def i2o (v : Nat) : List Event := wr .aint (.nat v) :: (cmd .int2octets ++ [rd .obuf])

/-- B2IQ d (R79). -/
def b2iq (d : Octets) : List Event := wr .ibuf (.octets d) :: (cmd .bits2intmodq ++ [rd .rint])

/-- B2O d (R79). -/
def b2o (d : Octets) : List Event := wr .ibuf (.octets d) :: (cmd .bits2octets ++ [rd .obuf])

/-- A predicate agent that gives the listed answers, one per request (R154 (a)). -/
def answers : List Bool → List Event
  | [] => []
  | true :: as => .await .predReq :: (cmd .accept ++ answers as)
  | false :: as => .await .predReq :: (cmd .reject ++ answers as)

end Sys2Proof.Machine
end

