-- ==== Sys2Proof/Machine/Assembler.lean ====
section
/-! DEFINITION. The host's software, outside the engine (42_predicate_and_host R155 to R158, 60_exceptions R191, R192): the
out-of-scope collaborators as parameters, the two predicates over them, and the contract checks before a generation. -/

namespace Sys2Proof.Machine

/-- The source's two error kinds, raised by assembler software, never by the engine (R191, R192). -/
inductive HostError where
  | invalidDomainParameters
  | invalidPrivateKey
  deriving DecidableEq, Repr

/-- The host's external collaborators, "parameters of the model, never defined by it" (00_scope R3; 42 R155, R156, R160):
uninterpreted functions, of which nothing is assumed. The modular operations are among them (log 21). -/
structure Collaborators where
  /-- `modinv(a, n)`, of the big-integer collaborator -/
  modInv : Nat → Nat → Nat
  /-- `a mod n`, where the predicates reduce a collaborator's result -/
  modRed : Nat → Nat → Nat
  /-- modular multiplication, `a * b mod n` -/
  modMul : Nat → Nat → Nat → Nat
  /-- modular addition, `a + b mod n` -/
  modAdd : Nat → Nat → Nat → Nat
  /-- the affine x-coordinate of `k * G`, of the elliptic-curve collaborator -/
  xcoord : Nat → Nat
  /-- `g^k mod p`, of the modular-exponentiation collaborator -/
  modExp : Nat → Nat → Nat → Nat

/-- The modular operations are the exact ones. No definition assumes it; a statement that needs it says so (log 21). -/
def ModularExact (C : Collaborators) : Prop :=
  (∀ a n, C.modRed a n = a % n) ∧ (∀ a b n, C.modMul a b n = a * b % n) ∧ ∀ a b n, C.modAdd a b n = (a + b) % n

/-- The common second half: reject `r = 0`, then `s = inv*(e + d*r) mod n`, reject `s = 0`, else accept with `(r, s)`.
DESIGN CHOICE (log 21): the formula is spelt as modular multiplications and one modular addition, each modulo `n`. -/
def signWith (C : Collaborators) (n d inv r e : Nat) : Option (Nat × Nat) :=
  if r = 0 then none
  else
    let s := C.modMul inv (C.modAdd e (C.modMul d r n) n) n
    if s = 0 then none else some (r, s)

/-- pred_ECDSA (R155). None is reject. -/
def predEcdsa (C : Collaborators) (n d k e : Nat) : Option (Nat × Nat) :=
  signWith C n d (C.modInv k n) (C.modRed (C.xcoord k) n) e

/-- pred_DSA (R156). None is reject. -/
def predDsa (C : Collaborators) (p q g x k e : Nat) : Option (Nat × Nat) :=
  signWith C q x (C.modInv k q) (C.modRed (C.modExp g k p) q) e

/-- The answer a predicate agent issues: ACCEPT where the predicate gives a signature, REJECT where it gives none (R150). -/
def answerOf (verdict : Option (Nat × Nat)) : List Event :=
  match verdict with
  | some _ => cmd .accept
  | none => cmd .reject

/-- SignECDSA up to GENERATE: InvalidPrivateKey where the scalar is not below the curve order (R157, R192, C6). -/
def startEcdsa (n d : Nat) (digest : Octets) : Except HostError (List Event) :=
  if d ≥ n then .error .invalidPrivateKey else .ok (genSecret n d digest)

/-- SignDSA up to GENERATE: InvalidDomainParameters where the order's bit length is no multiple of 8 (R158, R191). -/
def startDsa (q x : Nat) (digest : Octets) : Except HostError (List Event) :=
  if bitlen q % 8 ≠ 0 then .error .invalidDomainParameters else .ok (genSecret q x digest)

end Sys2Proof.Machine
end

