-- ==== Sys2Proof/Machine/Signing.lean ====
section
/-! DEFINITION. SignECDSA and SignDSA whole (42_predicate_and_host R157, R158; 70_reset_and_hazards R213): the host program
beside one instance. The program acts on the engine through its transactions alone: what it learns is `reply`, what it
does is the engine's script. -/

namespace Sys2Proof.Machine

/-- Which assembler; DSA's parameters P and G belong to its predicate (R156). -/
inductive Scheme where
  | ecdsa
  | dsa (p g : Nat)
  deriving DecidableEq, Repr

/-- One call of an assembler. The hash constructor is the HMAC unit attached to the instance (R159, R161). -/
structure Call where
  scheme : Scheme
  /-- the group order, N or Q -/
  order : Nat
  /-- the private scalar, D or x -/
  scalar : Nat
  digest : Octets
  deriving DecidableEq, Repr

/-- What a call comes to. -/
inductive SignResult where
  /-- the pair kept by the predicate on accept -/
  | signature (r s : Nat)
  /-- a returned error (SignDSA, R191) -/
  | returned (e : HostError)
  /-- a fatal abort (SignECDSA, R192) -/
  | aborted (e : HostError)
  /-- the engine took a fault: what the program's last read returned (log 23) -/
  | engineFault (reply : Option Value)
  deriving DecidableEq, Repr

/-- Where the host program stands, once the transactions it issued last are done. -/
inductive Phase where
  /-- called, nothing issued yet -/
  | called
  /-- GENSECRET issued, STATUS read -/
  | started
  /-- a request awaited, KOUT read -/
  | candidate
  /-- EOUT read, `k` known -/
  | digestInt (k : Nat)
  /-- ACCEPT and CLEAR issued, `(r, s)` kept -/
  | returning (r s : Nat)
  | done (res : SignResult)
  deriving DecidableEq, Repr

/-- The predicate of a call (R155, R156). -/
def verdictOf (C : Collaborators) (c : Call) (k e : Nat) : Option (Nat × Nat) :=
  match c.scheme with
  | .ecdsa => predEcdsa C c.order c.scalar k e
  | .dsa p g => predDsa C p c.order g c.scalar k e

/-- The contract check of a call and the start of its generation (R157, R158). -/
def startOf (c : Call) : Except HostError (List Event) :=
  match c.scheme with
  | .ecdsa => startEcdsa c.order c.scalar c.digest
  | .dsa _ _ => startDsa c.order c.scalar c.digest

/-- How a failed check leaves the call: SignECDSA aborts, SignDSA returns the error (R191, R192). -/
def failureOf (c : Call) (e : HostError) : SignResult :=
  match c.scheme with
  | .ecdsa => .aborted e
  | .dsa _ _ => .returned e

/-- Wait for the next predicate call and read its candidate (R150). -/
def nextCandidate : List Event := [.await .predReq, rd .kout]

/-- The host program's next move: where it stands then, and the transactions it issues. It checks the contract, starts the
generation, answers each request with the predicate of KOUT and EOUT, and on accept issues CLEAR and returns the kept pair
(R157, R158). The order of its reads, and the look at STATUS after GENERATE, are the model's (log 23). -/
def hostTurn (C : Collaborators) (c : Call) (reply : Option Value) : Phase → Phase × List Event
  | .called =>
    match startOf c with
    | .error e => (.done (failureOf c e), [])
    | .ok es => (.started, es ++ [rd .status])
  | .started =>
    match reply with
    | some (.nat st) => if st.testBit 3 then (.done (.engineFault reply), []) else (.candidate, nextCandidate)
    | some (.octets _) | none => (.done (.engineFault reply), [])
  | .candidate =>
    match reply with
    | some (.nat k) => (.digestInt k, [rd .eout])
    | some (.octets _) | none => (.done (.engineFault reply), [])
  | .digestInt k =>
    match reply with
    | some (.nat e) =>
      match verdictOf C c k e with
      | some (r, s) => (.returning r s, answerOf (some (r, s)) ++ cmd .clear)
      | none => (.candidate, answerOf none ++ nextCandidate)
    | some (.octets _) | none => (.done (.engineFault reply), [])
  | .returning r s => (.done (.signature r s), [])
  | .done res => (.done res, [])

/-- The assembled system: one instance and the host program that serves it. -/
structure SignState where
  engine : State
  phase : Phase
  deriving DecidableEq, Repr

/-- One step of the assembled system: a step of the engine while a transaction is still to come, else the program's move. -/
def signStep (C : Collaborators) (c : Call) (g : SignState) : Host.Outcome SignState Fault Refusal :=
  match g.engine.script with
  | [] =>
    let move := hostTurn C c g.engine.reply g.phase
    .next { engine := { g.engine with script := move.2 }, phase := move.1 }
  | _ :: _ =>
    match step g.engine with
    | .next t => .next { g with engine := t }
    | .fault f => .fault f
    | .refused r => .refused r

/-- `n` steps of the assembled system. -/
def signRun (C : Collaborators) (c : Call) : Nat → SignState → Host.Outcome SignState Fault Refusal
  | 0, g => .next g
  | n + 1, g =>
    match signStep C c g with
    | .next g' => signRun C c n g'
    | .fault f => .fault f
    | .refused r => .refused r

end Sys2Proof.Machine
end

