-- ==== Sys2Proof/Machine/System.lean ====
section
/-! DEFINITION. Several instances (10_state R43, 60_exceptions R198): each a whole State of its own, stepped one at a time
in one order, sharing nothing but the pure HMAC function. -/

namespace Sys2Proof.Machine

/-- The instances of the implementation after reset: N_INST of them (R6, R43). -/
def instancesReset : List State := List.replicate Config.params.ninst State.reset

/-- A step of instance number `i`; the others are not touched (R43, R60). -/
def stepInstance (i : Nat) (all : List State) : Host.Outcome (List State) Fault Refusal :=
  match all[i]? with
  | none => .refused .noInstance
  | some s =>
    match step s with
    | .next t => .next (all.set i t)
    | .fault f => .fault f
    | .refused r => .refused r

end Sys2Proof.Machine
end

