-- ==== Sys2Proof/Safety.lean ====
section
/-! DEFINITION. The terms claims are made in: frames, what a fault and an erasure leave, the invariant of an instance, the
stage graph, and what the host can observe. -/

namespace Sys2Proof.Machine

/-- The item holds the same in both states. -/
def SameItem (i : Item) (s t : State) : Prop :=
  match i with
  | .q => t.q = s.q
  | .x => t.x = s.x
  | .ibuf => t.ibuf = s.ibuf
  | .aint => t.aint = s.aint
  | .rint => t.rint = s.rint
  | .obuf => t.obuf = s.obuf
  | .kout => t.kout = s.kout
  | .eout => t.eout = s.eout
  | .stage => t.stage = s.stage
  | .rv => t.rv = s.rv
  | .cause => t.cause = s.cause
  | .k => t.k = s.k
  | .v => t.v = s.v
  | .t => t.t = s.t
  | .seed => t.seed = s.seed

/-- The item a buffer space belongs to. -/
def bufferItem : Buffer → Item
  | .ibuf => .ibuf
  | .obuf => .obuf
  | .seed => .seed
  | .t => .t
  | .k => .k
  | .v => .v

/-- Frame: every item of R20 but the ones written is unchanged, every octet of every buffer that is not written reads as
before, and the model's own fields are unchanged (R38). -/
def Frame (written : List Item) (s t : State) : Prop :=
  (∀ i, i ∉ written → SameItem i s t)
    ∧ (∀ b off, bufferItem b ∉ written → t.octetAt b off = s.octetAt b off)
    ∧ t.script = s.script ∧ t.reply = s.reply

/-- Every item of R20 but STAGE and CAUSE at its reset value (R40). -/
def DataErased (t : State) : Prop :=
  t.q = 0 ∧ t.x = none ∧ t.ibuf = [] ∧ t.aint = 0 ∧ t.rint = 0 ∧ t.obuf = [] ∧ t.kout = none ∧ t.eout = none
    ∧ t.rv = false ∧ t.k = none ∧ t.v = none ∧ t.t = none ∧ t.seed = none

/-- What fault entry with cause `c` leaves of `s` (R188), the model's own fields apart. -/
def Faulted (c : Cause) (t : State) : Prop :=
  DataErased t ∧ t.stage = .fault ∧ t.cause = c ∧ t.status.toNat = 16 * c.code + 8

/-- What reset and CLEAR leave (R40, R153, R210), the model's own fields apart. -/
def ResetItems (t : State) : Prop :=
  DataErased t ∧ t.stage = .idle ∧ t.cause = .none ∧ t.status.toNat = 0

/-- `bitlen(n) <= QBITS_MAX`, always so where QBITS_MAX is infinite (R187). -/
def FitsQbitsMax (P : Params) (n : Nat) : Prop := ∀ m, P.qbitsMax = some m → bitlen n ≤ m

/-- `len(o) <= DLEN_MAX`, always so where DLEN_MAX is infinite (R187). -/
def FitsDlenMax (P : Params) (o : Octets) : Prop := ∀ m, P.dlenMax = some m → o.length ≤ m

/-- The step from `s` takes the fault `c` and nothing else happens but that the script goes on at `rest` (R180, R188). -/
def StepFaults (c : Cause) (s : State) (rest : List Event) : Prop :=
  ∃ t, step s = .next t ∧ Faulted c t ∧ t.script = rest ∧ t.reply = s.reply

/-- The transaction at the head of the script takes the fault `c`, in an implementation with the parameters `P`. -/
def FetchFaults (P : Params) (c : Cause) (s : State) (rest : List Event) : Prop :=
  ∃ t, fetch P s = .settled t ∧ Faulted c t ∧ t.script = rest ∧ t.reply = s.reply

/-- The instruction takes the fault `c` in `s` (R188). -/
def ExecFaults (i : Instr) (c : Cause) (s : State) : Prop :=
  ∃ t, exec i s = .next t ∧ Faulted c t ∧ t.script = s.script ∧ t.reply = s.reply

/-- Every integer register within QBITS_MAX (R20, R21). -/
def IntegersFit (P : Params) (s : State) : Prop :=
  fitsInt P s.q = true ∧ (∀ n, s.x = some n → fitsInt P n = true) ∧ fitsInt P s.aint = true ∧ fitsInt P s.rint = true
    ∧ (∀ n, s.kout = some n → fitsInt P n = true) ∧ (∀ n, s.eout = some n → fitsInt P n = true)

/-- A generation is under way: admitted order, no result, no fault (R111). -/
def Generating (s : State) : Prop := qlenMin ≤ qlenOf s.q ∧ s.rv = false ∧ s.cause = .none

/-- X holds a scalar in `[1, q-1]` (R22, R111). -/
def ScalarHeld (s : State) : Prop := ∃ x, s.x = some x ∧ 1 ≤ x ∧ x < s.q

/-- EOUT holds the normalised digest integer, below q (R28). -/
def DigestHeld (s : State) : Prop := ∃ e, s.eout = some e ∧ e < s.q

/-- K and V hold values (R33, R34). -/
def ChainHeld (s : State) : Prop := (∃ k, s.k = some k) ∧ ∃ v, s.v = some v

/-- No hidden register holds a value (R33 to R36). -/
def Quiet (s : State) : Prop := s.k = none ∧ s.v = none ∧ s.t = none ∧ s.seed = none

/-- K and V held, X and SEED erased: the stages after RATCH_G (R117). -/
def Producing (s : State) : Prop := Generating s ∧ DigestHeld s ∧ ChainHeld s ∧ s.x = none ∧ s.seed = none

/-- What holds at each stage. -/
def StageFacts (s : State) : Prop :=
  match s.stage with
  | .idle => s.cause = .none ∧ Quiet s
      ∧ (s.rv = false → s.kout = none ∧ s.eout = none)
      ∧ (s.rv = true → (∃ k, s.kout = some k ∧ 1 ≤ k) ∧ ∃ e, s.eout = some e)
  | .seed => Generating s ∧ ScalarHeld s ∧ Quiet s ∧ s.kout = none ∧ s.eout = none
  | .init => Generating s ∧ ScalarHeld s ∧ DigestHeld s ∧ s.kout = none ∧ (∃ o, s.seed = some o)
      ∧ s.k = none ∧ s.v = none ∧ s.t = none
  | .ratchD | .ratchE | .ratchF | .ratchG => Generating s ∧ ScalarHeld s ∧ DigestHeld s ∧ s.kout = none
      ∧ (∃ o, s.seed = some o) ∧ ChainHeld s ∧ s.t = none
  | .tReset => Producing s
  | .tBlock => Producing s ∧ ∃ o, s.t = some o
  | .formK => Producing s ∧ ∃ o, s.t = some o ∧ thresholdOf s.q ≤ o.length
  | .range => Producing s ∧ (∃ o, s.t = some o) ∧ ∃ k, s.kout = some k ∧ k < 2 ^ qlenOf s.q
  | .predWait => Producing s ∧ (∃ o, s.t = some o) ∧ ∃ k, s.kout = some k ∧ 1 ≤ k ∧ k < s.q
  | .updK | .updV => Producing s
  | .fault => s.cause ≠ .none ∧ DataErased s

/-- The invariant of an instance: sizes, buffer capacities, and what each stage promises. -/
structure InvOf (P : Params) (s : State) : Prop where
  integers : IntegersFit P s
  buffers : Memory.wf P s
  stage : StageFacts s

/-- The invariant at the machine's parameters. -/
def Inv (s : State) : Prop := InvOf Config.params s

/-- The transitions of STAGE in R134, faults, reset and staying apart. -/
def stageGraph : List (Stage × Stage) :=
  [(.idle, .seed), (.seed, .init), (.init, .ratchD), (.ratchD, .ratchE), (.ratchE, .ratchF), (.ratchF, .ratchG),
   (.ratchG, .tReset), (.tReset, .tBlock), (.tBlock, .formK), (.formK, .range), (.range, .predWait), (.range, .updK),
   (.predWait, .idle), (.predWait, .updK), (.updK, .updV), (.updV, .tReset)]

/-- The stages that hold until a host transaction or reset comes: IDLE, PRED_WAIT, FAULT (R134, R200). -/
def restingStage (g : Stage) : Bool := g == .idle || g == .predWait || g == .fault

/-- KOUT and EOUT are readable: a candidate is offered, or a result is valid (R27). -/
def State.windowOpen (s : State) : Bool := s.cls == .wait || (s.cls == .idle && s.rv)

/-- Everything the host can read of an instance (R10, R39, R42). -/
structure HostView where
  status : BitVec 8
  q : Nat
  ibuf : Octets
  aint : Nat
  rint : Nat
  obuf : Octets
  kout : Option Nat
  eout : Option Nat
  deriving DecidableEq, Repr

/-- What the host can read now: in FAULT the reset images, elsewhere the readable registers, KOUT and EOUT inside their
window only. X, K, V, T, SEED and STAGE are no part of it (R42). -/
def State.hostView (s : State) : HostView :=
  if s.cls = .fault then
    { status := s.status, q := 0, ibuf := [], aint := 0, rint := 0, obuf := [], kout := none, eout := none }
  else
    { status := s.status, q := s.q, ibuf := s.ibuf, aint := s.aint, rint := s.rint, obuf := s.obuf
      kout := if s.windowOpen then s.kout else none
      eout := if s.windowOpen then s.eout else none }

/-- The items written by an instruction that runs to its effect (R95 to R98, R111 to R124, R151 to R153). -/
def writes : Instr → List Item
  | .bits2int => [.rint]
  | .int2octets => [.obuf]
  | .bits2intmodq => [.rint]
  | .bits2octets => [.obuf]
  | .generate => [.rv, .kout, .eout, .stage]
  | .accept => [.rv, .k, .v, .t, .stage]
  | .reject => [.stage]
  | .clear => [.q, .x, .ibuf, .aint, .rint, .obuf, .kout, .eout, .stage, .rv, .cause, .k, .v, .t, .seed]
  | .seed => [.eout, .seed, .stage]
  | .init => [.v, .k, .stage]
  | .ratchD => [.k, .stage]
  | .ratchE => [.v, .stage]
  | .ratchF => [.k, .stage]
  | .ratchG => [.v, .seed, .x, .stage]
  | .tReset => [.t, .stage]
  | .tBlock => [.v, .t, .stage]
  | .formK => [.kout, .stage]
  | .range => [.stage]
  | .predWait => []
  | .updK => [.k, .stage]
  | .updV => [.v, .stage]

/-- How many times an instruction applies the HMAC unit: once in each of R114 to R117, R123, R124, and in T_BLOCK where it
draws a block (R119). -/
def hmacCallsOf (i : Instr) (s : State) : Nat :=
  match i with
  | .ratchD | .ratchE | .ratchF | .ratchG | .updK | .updV => 1
  | .tBlock => if (s.t.getD []).length < thresholdOf s.q then 1 else 0
  | .bits2int | .int2octets | .bits2intmodq | .bits2octets | .generate | .accept | .reject | .clear | .seed | .init
  | .tReset | .formK | .range | .predWait => 0

/-- The HMAC calls of `n` steps from a state (R131). -/
def hmacCalls : Nat → State → Nat
  | 0, _ => 0
  | n + 1, s =>
    (match fetch Config.params s with
      | .instr i u => hmacCallsOf i u
      | .settled _ | .stuck _ | .malformed => 0)
    + (match step s with
      | .next t => hmacCalls n t
      | .fault _ | .refused _ => 0)

/-- The candidates formed in `n` steps from a state, in range and out of range alike: FORM_K performed (R120, R131). -/
def candidatesFormed : Nat → State → Nat
  | 0, _ => 0
  | n + 1, s =>
    (match fetch Config.params s with
      | .instr i _ => if i = .formK then 1 else 0
      | .settled _ | .stuck _ | .malformed => 0)
    + (match step s with
      | .next t => candidatesFormed n t
      | .fault _ | .refused _ => 0)

/-- What the predicate agent is shown in `n` steps from a state: KOUT and EOUT at each entry into PRED_WAIT, in order
(R132, R150). -/
def shown : Nat → State → List (Option Nat × Option Nat)
  | 0, _ => []
  | n + 1, s =>
    match step s with
    | .next t =>
      (if t.stage = .predWait ∧ s.stage ≠ .predWait then [(t.kout, t.eout)] else []) ++ shown n t
    | .fault _ | .refused _ => []

/-- What a predicate agent is shown when these candidates are offered with digest integer `e`. -/
def offers (e : Nat) (ks : List Nat) : List (Option Nat × Option Nat) := ks.map fun k => (some k, some e)

end Sys2Proof.Machine
end

