-- ==== Sys2Proof/Certificates/Slice0/Obligations.lean ====
section
/-! DEFINITION. The statements for the provers, from the numbered rules of spec/. Names of rules are those of spec/; a
statement about the HMAC unit holds for every unit, since `Config.params` is opaque. -/

open Sys2Proof Sys2Proof.Machine

/-! ### Codes -/

/-- A few words written out bit by bit from the tables of 30_encoding R71 and R73 decode to what they stand for. -/
def Obligations.WrittenOutWordsDecode : Prop :=
  decodeCmd8 0b00000001#8 = .ok .bits2int ∧ decodeCmd8 0b00000100#8 = .ok .bits2octets
    ∧ decodeCmd8 0b00010000#8 = .ok .generate ∧ decodeCmd8 0b00010001#8 = .ok .accept
    ∧ decodeCmd8 0b00010010#8 = .ok .reject ∧ decodeCmd8 0b00011111#8 = .ok .clear
    ∧ decodeStage4 0b0001#4 = .ok .seed ∧ decodeStage4 0b0110#4 = .ok .ratchG
    ∧ decodeStage4 0b1000#4 = .ok .tBlock ∧ decodeStage4 0b1011#4 = .ok .predWait
    ∧ decodeStage4 0b1101#4 = .ok .updV
    ∧ decodeCmd8 0b00000000#8 = .error (.undefinedOpcode 0#8) ∧ decodeStage4 0b1110#4 = .error .reservedStage

/-- R71, R73, R80: decoding an encoding gives the instruction back; a code that decodes is the one the table gives the
instruction, so no two rows overlap. -/
def Obligations.DecodingInvertsEncoding : Prop :=
  (∀ i, decode (encode i) = .ok i) ∧ (∀ w i, decode w = .ok i → w = encode i)

/-- R72, R182, R190: an opcode that R71 does not list is ILLEGAL_CMD in every class but FAULT, where it is ignored. -/
def Obligations.UndefinedOpcodeIsIllegalCommand : Prop :=
  ∀ (s : State) (c : Nat) (rest : List Event), s.script = .write 0 (.nat c) :: rest → c < 256 →
    c ∉ [0x01, 0x02, 0x03, 0x04, 0x10, 0x11, 0x12, 0x1F] →
    (s.stage ≠ .fault → StepFaults .illegalCmd s rest) ∧
    (s.stage = .fault → step s = .next { s with script := rest })

/-! ### The step -/

/-- R30, R32, R57: a step runs the decoded instruction. A host write of a defined opcode to CMD runs exactly that command,
in every stage. The engine's turn runs exactly the micro-operation whose code STAGE holds: when it is the engine's turn by
the script, when nothing is to come, and while the host polls STATUS in vain. In IDLE and FAULT there is none. -/
def Obligations.StepRunsTheDecodedInstruction : Prop :=
  (∀ (s : State) (c : BitVec 8) (i : Instr) (rest : List Event), s.script = .write 0 (.nat c.toNat) :: rest →
    decodeCmd8 c = .ok i → step s = exec i { s with script := rest }) ∧
  (∀ (s : State) (i : Instr), decodeStage4 s.stage.code = .ok i →
    (s.script = [] → step s = exec i s) ∧
    (∀ rest, s.script = .engine :: rest → step s = exec i { s with script := rest }) ∧
    (∀ c rest, s.script = .await c :: rest → condHolds c s = false → step s = exec i s)) ∧
  (∀ s : State, s.stage = .idle ∨ s.stage = .fault →
    (s.script = [] → step s = .next s) ∧
    (∀ rest, s.script = .engine :: rest → step s = .next { s with script := rest }))

/-- R43, R198: a step of one instance is that instance's own step and leaves every other instance as it was. -/
def Obligations.InstancesAreIndependent : Prop :=
  ∀ (i : Nat) (all all' : List State), stepInstance i all = .next all' →
    all'.length = all.length ∧ (∀ j, j ≠ i → all'[j]? = all[j]?) ∧
    ∃ s t, all[i]? = some s ∧ step s = .next t ∧ all'[i]? = some t

/-! ### Reset and faults -/

/-- R210: reset, at any time and in any stage, gives every item its reset value and lets STATUS read 0x00. -/
def Obligations.ResetEventRestoresEveryItem : Prop :=
  ResetItems State.reset ∧
  ∀ (s : State) (rest : List Event), s.script = .reset :: rest →
    ∃ t, step s = .next t ∧ ResetItems t ∧ t.script = rest ∧ t.reply = s.reply

/-- The invariant holds at reset. -/
def Obligations.InvariantHoldsAtReset : Prop := Inv State.reset

/-- R211: whatever ran before a reset, everything after it is the same. -/
def Obligations.ResetForgetsTheAbandonedGeneration : Prop :=
  ∀ (s u : State) (es : List Event) (n : Nat), s.script = .reset :: es → u.script = .reset :: es →
    s.reply = u.reply → core.run (n + 1) s = core.run (n + 1) u

/-- R189, R39: in FAULT the engine does nothing, every write is ignored, STATUS reads `(CAUSE << 4) | 0x08`, every other
register reads its reset image (HLEN reads HLEN), the cause is kept; reset leaves it and clears CAUSE. That CMD (n = 0), which
has no storage, and an unassigned number (13 and above) read the natural 0 there is the model's choice (log 22, DEDUCED). -/
def Obligations.FaultIsLeftByResetOnly : Prop :=
  ∀ s : State, Inv s → s.stage = .fault →
    (s.script = [] → step s = .next s) ∧
    (∀ rest, s.script = .engine :: rest → step s = .next { s with script := rest }) ∧
    (∀ n v rest, s.script = .write n v :: rest → eventWf (.write n v) = true →
      step s = .next { s with script := rest }) ∧
    (∀ n rest, s.script = .read n :: rest →
      step s = .next { s with
        script := rest
        reply := some (if n = 1 then .nat (16 * s.cause.code + 8) else if n = 12 then .nat Config.params.hlen
          else if n = 4 ∨ n = 7 then .octets [] else .nat 0) }) ∧
    (∀ c rest, s.script = .await c :: rest → ∃ t, step s = .next t ∧ t.stage = .fault ∧ t.cause = s.cause) ∧
    (∀ rest, s.script = .reset :: rest → ∃ t, step s = .next t ∧ ResetItems t ∧ t.script = rest)

/-- R71, R183: a defined command in a class that does not admit it is PROTOCOL; in FAULT it is ignored (R189). -/
def Obligations.CommandsOutsideTheirClassFault : Prop :=
  (∀ i ∈ [Instr.bits2int, .int2octets, .bits2intmodq, .bits2octets, .generate, .clear], ∀ s : State,
    s.cls = .run ∨ s.cls = .wait → ExecFaults i .protocol s) ∧
  (∀ i ∈ [Instr.accept, .reject], ∀ s : State, s.cls = .idle ∨ s.cls = .run → ExecFaults i .protocol s) ∧
  (∀ i ∈ [Instr.bits2int, .int2octets, .bits2intmodq, .bits2octets, .generate, .accept, .reject, .clear],
    ∀ s : State, s.cls = .fault → exec i s = .next s)

/-- R180, R8: a micro-operation never faults and never meets an item without a value. -/
def Obligations.EngineNeverRaisesAFault : Prop :=
  ∀ s : State, Inv s → s.stage ≠ .fault → (s.script = [] ∨ ∃ rest, s.script = .engine :: rest) →
    ∃ t, step s = .next t ∧ t.stage ≠ .fault ∧ t.cause = .none

/-! ### The access table -/

/-- R187, R39: in IDLE a write of Q, X, IBUF or AINT stores the whole value, whatever it is, where the register can hold
it, and is OPERAND_SIZE with nothing stored where it cannot. Stated of every implementation's parameters `P`; the step is
that at the machine's own. -/
def Obligations.OperandWriteStoresOrFaults : Prop :=
  (∀ (P : Params) (s : State) (rest : List Event), s.stage = .idle →
    (∀ n, s.script = .write 2 (.nat n) :: rest →
      (FitsQbitsMax P n → ∃ t, fetch P s = .settled t ∧ t.q = n ∧ Frame [.q] { s with script := rest } t) ∧
      (¬ FitsQbitsMax P n → FetchFaults P .operandSize s rest)) ∧
    (∀ n, s.script = .write 3 (.nat n) :: rest →
      (FitsQbitsMax P n → ∃ t, fetch P s = .settled t ∧ t.x = some n ∧ Frame [.x] { s with script := rest } t) ∧
      (¬ FitsQbitsMax P n → FetchFaults P .operandSize s rest)) ∧
    (∀ o, s.script = .write 4 (.octets o) :: rest →
      (FitsDlenMax P o → ∃ t, fetch P s = .settled t ∧ t.ibuf = o ∧ Frame [.ibuf] { s with script := rest } t) ∧
      (¬ FitsDlenMax P o → FetchFaults P .operandSize s rest)) ∧
    (∀ n, s.script = .write 5 (.nat n) :: rest →
      (FitsQbitsMax P n → ∃ t, fetch P s = .settled t ∧ t.aint = n ∧ Frame [.aint] { s with script := rest } t) ∧
      (¬ FitsQbitsMax P n → FetchFaults P .operandSize s rest))) ∧
  (∀ s t : State, fetch Config.params s = .settled t → step s = .next t)

/-- R214, R190: while a generation runs or waits, a write of Q, X, IBUF or AINT is PROTOCOL, whatever the value's size. -/
def Obligations.LockedOperandWriteFaults : Prop :=
  ∀ (s : State) (n : Nat) (v : Value) (rest : List Event), n ∈ [2, 3, 4, 5] → eventWf (.write n v) = true →
    s.busy = true → s.script = .write n v :: rest → StepFaults .protocol s rest

/-- R39: outside FAULT these are PROTOCOL: a write of a read-only register or of an unassigned number; a read of CMD, X
or an unassigned number; a read of KOUT or EOUT outside its window. No value is returned. -/
def Obligations.ForbiddenAccessFaults : Prop :=
  ∀ (s : State) (n : Nat) (rest : List Event), s.stage ≠ .fault →
    (∀ v, n = 1 ∨ 6 ≤ n → eventWf (.write n v) = true → s.script = .write n v :: rest →
      StepFaults .protocol s rest) ∧
    (n = 0 ∨ n = 3 ∨ 13 ≤ n ∨ ((n = 8 ∨ n = 9) ∧ s.windowOpen = false) → s.script = .read n :: rest →
      ∃ t, step s = .next t ∧ Faulted .protocol t ∧ t.script = rest ∧ t.reply = none)

/-- R39, R55, R29: outside FAULT a permitted read returns the register's value and changes nothing else. -/
def Obligations.PermittedReadReturnsTheRegister : Prop :=
  ∀ (s : State) (n : Nat) (rest : List Event), s.stage ≠ .fault → s.script = .read n :: rest →
    (n = 1 → step s = .next { s with script := rest, reply := some (.nat s.status.toNat) }) ∧
    (n = 2 → step s = .next { s with script := rest, reply := some (.nat s.q) }) ∧
    (n = 4 → step s = .next { s with script := rest, reply := some (.octets s.ibuf) }) ∧
    (n = 5 → step s = .next { s with script := rest, reply := some (.nat s.aint) }) ∧
    (n = 6 → step s = .next { s with script := rest, reply := some (.nat s.rint) }) ∧
    (n = 7 → step s = .next { s with script := rest, reply := some (.octets s.obuf) }) ∧
    (n = 10 → step s = .next { s with script := rest, reply := some (.nat (bitlen s.q)) }) ∧
    (n = 11 → step s = .next { s with script := rest, reply := some (.nat ((bitlen s.q + 7) / 8)) }) ∧
    (n = 12 → step s = .next { s with script := rest, reply := some (.nat Config.params.hlen) })

/-- R27, R28, R217: inside the window KOUT reads as a candidate of at least 1 and EOUT as e, changing nothing; while the
candidate waits for its answer both are below Q. -/
def Obligations.CandidateReadInsideItsWindow : Prop :=
  ∀ (s : State) (rest : List Event), Inv s → s.windowOpen = true →
    ∃ k e, s.kout = some k ∧ s.eout = some e ∧ 1 ≤ k ∧ (s.cls = .wait → k < s.q ∧ e < s.q) ∧
      (s.script = .read 8 :: rest → step s = .next { s with script := rest, reply := some (.nat k) }) ∧
      (s.script = .read 9 :: rest → step s = .next { s with script := rest, reply := some (.nat e) })

/-- R31: STATUS takes its listed values only: 0x00 and 0x04 in IDLE, 0x01 while running, 0x03 while a candidate waits,
0x18 to 0x68 in FAULT. -/
def Obligations.StatusShowsItsListedValues : Prop :=
  ∀ s : State, Inv s →
    (s.cls = .idle → s.status = if s.rv then 0x04#8 else 0x00#8) ∧
    (s.cls = .run → s.status = 0x01#8) ∧
    (s.cls = .wait → s.status = 0x03#8) ∧
    (s.cls = .fault → s.status ∈ [0x18#8, 0x28#8, 0x38#8, 0x48#8, 0x58#8, 0x68#8]
      ∧ s.status.toNat = 16 * s.cause.code + 8)

/-- R29, R9, R220: QLEN reads the least L with `Q < 2^L` and ROLEN `ceil(L/8)` the instant Q is written; RINT and OBUF
are not recomputed. -/
def Obligations.WidthViewsFollowQ : Prop :=
  ∀ (s : State) (n : Nat) (rest : List Event), s.stage = .idle → FitsQbitsMax Config.params n →
    s.script = .write 2 (.nat n) :: .read 10 :: .read 11 :: rest →
    ∃ (L : Nat) (t u : State), n < 2 ^ L ∧ (∀ m, n < 2 ^ m → L ≤ m) ∧
      core.run 2 s = .next t ∧ t.reply = some (.nat L) ∧
      core.run 3 s = .next u ∧ u.reply = some (.nat ((L + 7) / 8)) ∧ u.rint = s.rint ∧ u.obuf = s.obuf

/-! ### The codec -/

/-- R52: the two big-endian conversions and their laws; a natural of more than n octets has no n octets. -/
def Obligations.BigEndianConversionLaws : Prop :=
  os2i [] = 0 ∧ i2os 0 0 = [] ∧
  (∀ (b : Octet) (s : Octets), os2i (b :: s) = b.toNat * 256 ^ s.length + os2i s) ∧
  (∀ v n, (i2os v n).length = n ∧ (v < 256 ^ n → os2i (i2os v n) = v)) ∧
  (∀ s : Octets, i2os (os2i s) s.length = s) ∧
  (∀ v n i, i < n → (i2os v n)[i]? = some (BitVec.ofNat 8 (v / 256 ^ (n - 1 - i) % 256))) ∧
  (∀ s : Octets, os2i s < 256 ^ s.length) ∧
  (∀ (m : Nat) (s : Octets), os2i (rep 0x00#8 m ++ s) = os2i s) ∧
  (∀ s t : Octets, os2i (s ++ t) = os2i s * 256 ^ t.length + os2i t) ∧
  (∀ v n, (v < 256 ^ n → int2octets v n = some (i2os v n)) ∧ (256 ^ n ≤ v → int2octets v n = none))

/-- R100: how bits2int undoes int2octets; octets beyond the first `ceil(m/8)` never matter; bits2octets is no inverse;
its length is rolen whatever the digest's length. -/
def Obligations.CodecRelations : Prop :=
  (∀ v n m o, int2octets v n = some o →
    (8 * n ≤ m → bits2int o m = v) ∧ (m < 8 * n → bits2int o m = v / 2 ^ (8 * n - m))) ∧
  (∀ (s t : Octets) (m : Nat), m ≤ 8 * s.length → bits2int (s ++ t) m = bits2int s m) ∧
  (∃ (h h' : Octets) (q : Nat), h ≠ h' ∧
    bits2octets h q (bitlen q) ((bitlen q + 7) / 8) = bits2octets h' q (bitlen q) ((bitlen q + 7) / 8)) ∧
  (∀ (h : Octets) (q : Nat), q ≠ 0 → ∃ o, bits2octets h q (bitlen q) ((bitlen q + 7) / 8) = some o ∧
    o.length = (bitlen q + 7) / 8)

/-- R95: BITS2INT writes RINT and nothing else: the first qlen bits of a string wider than qlen, a narrower string
unchanged, always below `2^qlen`; 0 for `Q = 0` and for the empty string; PROTOCOL in RUN and WAIT. -/
def Obligations.Bits2IntCommand : Prop :=
  decodeCmd8 0x01#8 = .ok .bits2int ∧ ∀ s : State,
    (s.stage = .idle → ∃ t, exec .bits2int s = .next t ∧
      t.rint = (if bitlen s.q < 8 * s.ibuf.length then os2i s.ibuf / 2 ^ (8 * s.ibuf.length - bitlen s.q)
        else os2i s.ibuf) ∧
      t.rint < 2 ^ bitlen s.q ∧ (s.q = 0 → t.rint = 0) ∧ (s.ibuf = [] → t.rint = 0) ∧ Frame [.rint] s t) ∧
    (s.cls = .run ∨ s.cls = .wait → ExecFaults .bits2int .protocol s)

/-- R96, R186: INT2OCTETS writes OBUF, exactly rolen octets that denote AINT, where AINT fits them; INT_RANGE where it
does not; PROTOCOL in RUN and WAIT. -/
def Obligations.Int2OctetsCommand : Prop :=
  decodeCmd8 0x02#8 = .ok .int2octets ∧ ∀ s : State,
    (s.stage = .idle → s.aint < 2 ^ (8 * ((bitlen s.q + 7) / 8)) → ∃ t, exec .int2octets s = .next t ∧
      t.obuf.length = (bitlen s.q + 7) / 8 ∧ os2i t.obuf = s.aint ∧ Frame [.obuf] s t) ∧
    (s.stage = .idle → 2 ^ (8 * ((bitlen s.q + 7) / 8)) ≤ s.aint → ExecFaults .int2octets .intRange s) ∧
    (s.cls = .run ∨ s.cls = .wait → ExecFaults .int2octets .protocol s)

/-- R97, R93: BITS2INTMODQ writes RINT with bits2int(IBUF) reduced modulo Q by its one subtraction, so below Q; Q_RANGE
for `Q = 0`; PROTOCOL in RUN and WAIT. -/
def Obligations.Bits2IntModQCommand : Prop :=
  decodeCmd8 0x03#8 = .ok .bits2intmodq ∧ ∀ s : State,
    (s.stage = .idle → s.q ≠ 0 → ∃ t, exec .bits2intmodq s = .next t ∧
      t.rint = (if s.q ≤ bits2int s.ibuf (bitlen s.q) then bits2int s.ibuf (bitlen s.q) - s.q
        else bits2int s.ibuf (bitlen s.q)) ∧
      t.rint = bits2int s.ibuf (bitlen s.q) % s.q ∧ t.rint < s.q ∧ Frame [.rint] s t) ∧
    (s.stage = .idle → s.q = 0 → ExecFaults .bits2intmodq .qRange s) ∧
    (s.cls = .run ∨ s.cls = .wait → ExecFaults .bits2intmodq .protocol s)

/-- R98, R94: BITS2OCTETS writes OBUF, exactly rolen octets that denote bits2IntModQ(IBUF), and nothing else, for every
`Q >= 1` (never INT_RANGE); Q_RANGE for `Q = 0`; PROTOCOL in RUN and WAIT. -/
def Obligations.Bits2OctetsCommand : Prop :=
  decodeCmd8 0x04#8 = .ok .bits2octets ∧ ∀ s : State,
    (s.stage = .idle → s.q ≠ 0 → ∃ t, exec .bits2octets s = .next t ∧
      t.obuf.length = (bitlen s.q + 7) / 8 ∧ os2i t.obuf = bits2IntModQ s.ibuf s.q (bitlen s.q) ∧
      os2i t.obuf < s.q ∧ Frame [.obuf] s t) ∧
    (s.stage = .idle → s.q = 0 → ExecFaults .bits2octets .qRange s) ∧
    (s.cls = .run ∨ s.cls = .wait → ExecFaults .bits2octets .protocol s)

/-! ### The generator -/

/-- R111, R184, R185, R190: GENERATE starts a generation when `qlen >= 8` and X holds a scalar in `[1, Q-1]`; Q_RANGE
comes before X_RANGE; PROTOCOL in RUN and WAIT. -/
def Obligations.GenerateAdmission : Prop :=
  ∀ s : State,
    (∀ x, s.stage = .idle → 8 ≤ bitlen s.q → s.x = some x → 1 ≤ x → x < s.q → ∃ t, exec .generate s = .next t ∧
      t.rv = false ∧ t.kout = none ∧ t.eout = none ∧ t.stage = .seed ∧ (s.cause = .none → t.status = 0x01#8) ∧
      Frame [.rv, .kout, .eout, .stage] s t) ∧
    (s.stage = .idle → bitlen s.q < 8 → ExecFaults .generate .qRange s) ∧
    (s.stage = .idle → 8 ≤ bitlen s.q → (∀ x, s.x = some x → x = 0 ∨ s.q ≤ x) → ExecFaults .generate .xRange s) ∧
    (s.cls = .run ∨ s.cls = .wait → ExecFaults .generate .protocol s)

/-- R112: SEED writes EOUT with the once-reduced digest integer, below Q, and SEED with exactly rolen octets of X followed
by exactly rolen octets of e. -/
def Obligations.SeedAssembly : Prop :=
  ∀ (s : State) (x : Nat), s.x = some x → x < s.q →
    ∃ t e xo eo, exec .seed s = .next t ∧ e = bits2IntModQ s.ibuf s.q (bitlen s.q) ∧ e < s.q ∧ t.eout = some e ∧
      t.seed = some (xo ++ eo) ∧ xo.length = (bitlen s.q + 7) / 8 ∧ eo.length = (bitlen s.q + 7) / 8 ∧
      os2i xo = x ∧ os2i eo = e ∧ (s.ibuf = [] → e = 0) ∧ t.stage = .init ∧ Frame [.eout, .seed, .stage] s t

/-- R113: INIT gives V HLEN octets 0x01 and K HLEN octets 0x00, in every state. -/
def Obligations.ChainInitialisation : Prop :=
  decodeStage4 2#4 = .ok .init ∧ ∀ s : State, ∃ t v k, exec .init s = .next t ∧ t.v = some v ∧ t.k = some k ∧
    v.length = Config.params.hlen ∧ (∀ b ∈ v, b = 0x01#8) ∧ k.length = Config.params.hlen ∧ (∀ b ∈ k, b = 0x00#8) ∧
    t.stage = .ratchD ∧ Frame [.v, .k, .stage] s t

/-- R114, R116, R62 (b): the two key rounds of the ratchet, with separator 0x00 and then 0x01; V is unchanged. -/
def Obligations.RatchetKeyRounds : Prop :=
  ∀ (s : State) (k v sd : Octets), s.k = some k → s.v = some v → s.seed = some sd →
    (∃ t, exec .ratchD s = .next t ∧ t.k = some (Config.params.hmac k (v ++ [0x00#8] ++ sd)) ∧ t.stage = .ratchE ∧
      Frame [.k, .stage] s t) ∧
    (∃ t, exec .ratchF s = .next t ∧ t.k = some (Config.params.hmac k (v ++ [0x01#8] ++ sd)) ∧ t.stage = .ratchG ∧
      Frame [.k, .stage] s t)

/-- R115, R117, R124, R62 (a): `V <- HMAC(K, V)`; RATCH_G erases SEED and X as well, UPD_V goes back to T_RESET. -/
def Obligations.ChainValueSteps : Prop :=
  ∀ (s : State) (k v : Octets), s.k = some k → s.v = some v →
    (∃ t, exec .ratchE s = .next t ∧ t.v = some (Config.params.hmac k v) ∧ t.stage = .ratchF ∧
      Frame [.v, .stage] s t) ∧
    (∃ t, exec .ratchG s = .next t ∧ t.v = some (Config.params.hmac k v) ∧ t.seed = none ∧ t.x = none ∧
      t.stage = .tReset ∧ Frame [.v, .seed, .x, .stage] s t) ∧
    (∃ t, exec .updV s = .next t ∧ t.v = some (Config.params.hmac k v) ∧ t.stage = .tReset ∧
      Frame [.v, .stage] s t)

/-- R118: T_RESET empties T, in every state. -/
def Obligations.ProductionStartsEmpty : Prop :=
  ∀ s : State, ∃ t, exec .tReset s = .next t ∧ t.t = some [] ∧ t.stage = .tBlock ∧ Frame [.t, .stage] s t

/-- R119: while T is shorter than `floor(qlen/8)` OCTETS, T_BLOCK appends one block of HLEN octets, the new V, after T's
last octet (every octet before it reads as before); else it goes on to FORM_K and writes nothing. -/
def Obligations.ProductionBlock : Prop :=
  ∀ (s : State) (o : Octets), s.t = some o →
    (∀ k v, o.length < bitlen s.q / 8 → s.k = some k → s.v = some v → ∃ t, exec .tBlock s = .next t ∧
      t.v = some (Config.params.hmac k v) ∧ t.t = some (o ++ Config.params.hmac k v) ∧
      (o ++ Config.params.hmac k v).length = o.length + Config.params.hlen ∧
      (∀ off, off < o.length → t.octetAt .t off = s.octetAt .t off) ∧ t.stage = .tBlock ∧
      Frame [.v, .t, .stage] s t) ∧
    (bitlen s.q / 8 ≤ o.length → ∃ t, exec .tBlock s = .next t ∧ t.stage = .formK ∧ Frame [.stage] s t)

/-- R120: FORM_K writes KOUT with the first qlen bits of T where T is wider, with all of T where it is not. -/
def Obligations.CandidateFormation : Prop :=
  ∀ (s : State) (o : Octets), s.t = some o → ∃ t k, exec .formK s = .next t ∧ t.kout = some k ∧
    k = (if bitlen s.q < 8 * o.length then os2i o / 2 ^ (8 * o.length - bitlen s.q) else os2i o) ∧
    k < 2 ^ bitlen s.q ∧ t.stage = .range ∧ Frame [.kout, .stage] s t

/-- R121: RANGE offers a candidate in `[1, Q-1]` and sends every other to UPD_K, writing nothing but STAGE. -/
def Obligations.RangeTestBranches : Prop :=
  ∀ (s : State) (k : Nat), s.kout = some k → ∃ t, exec .range s = .next t ∧
    (1 ≤ k ∧ k < s.q → t.stage = .predWait) ∧ (k = 0 ∨ s.q ≤ k → t.stage = .updK) ∧ Frame [.stage] s t

/-- R122: in PRED_WAIT the engine has no step: it holds for ever, unchanged, while no answer comes. -/
def Obligations.PredicateWaitHolds : Prop :=
  (∀ s : State, exec .predWait s = .next s) ∧
  (∀ (s : State) (n : Nat), s.stage = .predWait → s.script = [] → core.run n s = .next s)

/-- R123, R62 (c): `K <- HMAC(K, V ‖ 0x00)`, without the seed. -/
def Obligations.RetryKeyUpdate : Prop :=
  ∀ (s : State) (k v : Octets), s.k = some k → s.v = some v → ∃ t, exec .updK s = .next t ∧
    t.k = some (Config.params.hmac k (v ++ [0x00#8])) ∧ t.stage = .updV ∧ Frame [.k, .stage] s t

/-! ### The predicate port and CLEAR -/

/-- R151: ACCEPT ends the generation, keeps KOUT and EOUT and erases K, V and T; X and SEED were erased before, so no
hidden item holds a value; PROTOCOL in IDLE and RUN. -/
def Obligations.AcceptEndsTheGeneration : Prop :=
  ∀ s : State,
    (s.stage = .predWait → ∃ t, exec .accept s = .next t ∧ t.rv = true ∧ t.k = none ∧ t.v = none ∧ t.t = none ∧
      t.stage = .idle ∧ Frame [.rv, .k, .v, .t, .stage] s t ∧
      (Inv s → t.status = 0x04#8 ∧ t.x = none ∧ t.seed = none ∧ ∃ k, t.kout = some k ∧ 1 ≤ k ∧ k < t.q)) ∧
    (s.cls = .idle ∨ s.cls = .run → ExecFaults .accept .protocol s)

/-- R152: REJECT writes STAGE alone and takes the retry path; KOUT and EOUT are readable no more; PROTOCOL in IDLE and
RUN. -/
def Obligations.RejectTakesTheRetryPath : Prop :=
  ∀ s : State,
    (s.stage = .predWait → ∃ t, exec .reject s = .next t ∧ t.stage = .updK ∧ t.windowOpen = false ∧
      (Inv s → t.status = 0x01#8) ∧ Frame [.stage] s t) ∧
    (s.cls = .idle ∨ s.cls = .run → ExecFaults .reject .protocol s)

/-- R153: CLEAR gives every item its reset value, in IDLE only; in RUN and WAIT it is PROTOCOL. -/
def Obligations.ClearErasesEverything : Prop :=
  decodeCmd8 0x1F#8 = .ok .clear ∧ ∀ s : State,
    (s.stage = .idle → ∃ t, exec .clear s = .next t ∧ ResetItems t ∧ t.script = s.script ∧ t.reply = s.reply) ∧
    (s.cls = .run ∨ s.cls = .wait → ExecFaults .clear .protocol s)

/-- R215: a generation consumes X: after ACCEPT a second GENERATE without a new X is X_RANGE. -/
def Obligations.ScalarIsConsumed : Prop :=
  ∀ (s : State) (rest : List Event), Inv s → s.stage = .predWait →
    s.script = .write 0 (.nat 0x11) :: .write 0 (.nat 0x10) :: rest →
    ∃ t : State, core.run 2 s = .next t ∧ Faulted .xRange t ∧ t.script = rest

/-- R130, R152: after a REJECT the engine updates K and V and empties T before it produces again. -/
def Obligations.RejectionDrawsAfresh : Prop :=
  ∀ (s : State) (k v : Octets), Inv s → s.stage = .predWait → s.k = some k → s.v = some v →
    s.script = [.write 0 (.nat 0x12)] →
    ∃ t : State, core.run 4 s = .next t ∧ t.k = some (Config.params.hmac k (v ++ [0x00#8])) ∧
      t.v = some (Config.params.hmac (Config.params.hmac k (v ++ [0x00#8])) v) ∧ t.t = some [] ∧ t.stage = .tBlock ∧
      t.eout = s.eout

/-! ### The whole machine -/

/-- Every step keeps the invariant, from every state that meets it, whatever the script. -/
def Obligations.StepKeepsTheInvariant : Prop :=
  ∀ s t : State, Inv s → step s = .next t → Inv t

/-- R162, R180, R8: from every state that meets the invariant, with well-formed transactions, the step answers a next
state: there is no stuck state and no refusal. -/
def Obligations.EveryStepCompletes : Prop :=
  ∀ s : State, Inv s → scriptWf s.script = true → ∃ t, step s = .next t ∧ scriptWf t.script = true

/-- R38: an instruction writes the items its rule names and nothing else, in every state; or it takes a fault. -/
def Obligations.EveryInstructionKeepsItsFrame : Prop :=
  ∀ (i : Instr) (s t : State), exec i s = .next t →
    Frame (writes i) s t ∨
      (s.stage ≠ .fault ∧ ∃ c, c ≠ .none ∧ Faulted c t ∧ t.script = s.script ∧ t.reply = s.reply)

/-- R129: PRED_WAIT is entered from RANGE alone, with a candidate in `[1, Q-1]`; and a result becomes valid only by an
answer to such a candidate. In every state. -/
def Obligations.OnlyRangedCandidatesAreOffered : Prop :=
  ∀ s t : State, step s = .next t →
    (t.stage = .predWait → s.stage ≠ .predWait →
      s.stage = .range ∧ ∃ k, t.kout = some k ∧ 1 ≤ k ∧ k < t.q) ∧
    (t.rv = true → s.rv = false → s.stage = .predWait ∧ t.stage = .idle ∧ t.kout = s.kout ∧ t.eout = s.eout)

/-- R134: STAGE takes the transitions of the stage graph and no others; a fault from any stage but FAULT; FAULT is left by
reset only; and only IDLE, PRED_WAIT, FAULT and the block loop keep STAGE on the engine's turn. In every state. -/
def Obligations.StageGraphIsComplete : Prop :=
  ∀ s t : State, step s = .next t →
    ((s.stage, t.stage) ∈ stageGraph ∨ t.stage = s.stage ∨ (s.stage ≠ .fault ∧ t.stage = .fault) ∨
      (t.stage = .idle ∧ ∃ rest, s.script = .reset :: rest)) ∧
    (s.script = [] ∨ (∃ rest, s.script = .engine :: rest) →
      (s.stage, t.stage) ∈ stageGraph ∨ (t.stage = s.stage ∧ (restingStage s.stage = true ∨ s.stage = .tBlock)))

/-- R214, R21 to R24: while a generation runs or waits, Q, IBUF and AINT never change, and X changes only by RATCH_G's
erasure, unless the step is a fault or a reset. In every state. -/
def Obligations.OperandsAreImmutableDuringAGeneration : Prop :=
  ∀ s t : State, s.busy = true → step s = .next t → t.stage ≠ .fault → (∀ rest, s.script ≠ .reset :: rest) →
    t.q = s.q ∧ t.ibuf = s.ibuf ∧ t.aint = s.aint ∧ (t.x = s.x ∨ (s.stage = .ratchG ∧ t.x = none))

/-- R58 (2), (3), R122: an offered candidate and everything behind it stay unchanged until the answer; an accepted result
stays unchanged while it is valid. In every state. -/
def Obligations.ResultWindowsAreStable : Prop :=
  ∀ s t : State, step s = .next t →
    (s.stage = .predWait → t.stage = .predWait → Frame [] { s with script := t.script, reply := t.reply } t) ∧
    (s.stage = .idle → s.rv = true → t.rv = true → t.kout = s.kout ∧ t.eout = s.eout ∧ t.stage = .idle)

/-- R42, R195: a host read tells apart only states that differ in what the host can read: with equal views it returns the
same and leaves equal views. X, K, V, T, SEED and STAGE are no part of the view. In every state. -/
def Obligations.HostReadsRevealTheHostViewOnly : Prop :=
  ∀ (s u : State) (n : Nat) (rs ru : List Event), s.hostView = u.hostView → s.script = .read n :: rs →
    u.script = .read n :: ru →
    (∀ t, step s = .next t → ∃ w, step u = .next w ∧ w.reply = t.reply ∧ w.hostView = t.hostView) ∧
    (∀ f, step s = .fault f → step u = .fault f)

/-- R57: while a generation runs, a host read of Q, IBUF, AINT, RINT, OBUF, QLEN, ROLEN or HLEN and the engine's next
micro-operation may come in either order: the two orders leave the same state and return the same value. -/
def Obligations.ReadsCommuteWithTheEngine : Prop :=
  ∀ (s : State) (n : Nat) (rest : List Event), s.cls = .run → n ∈ [2, 4, 5, 6, 7, 10, 11, 12] →
    core.run 2 { s with script := .read n :: .engine :: rest } = core.run 2 { s with script := .engine :: .read n :: rest }

/-- R128, R211, R60: the candidates of a generation are a function of Q, X, IBUF and the HMAC unit, and of the predicate's
answers: two idle instances with the same three operands, the same GENERATE and the same answers show the same stage, KOUT
and EOUT after every number of steps. -/
def Obligations.GenerationIsDeterministic : Prop :=
  ∀ (s u t : State) (as : List Bool) (n : Nat), Inv s → Inv u → s.stage = .idle → u.stage = .idle →
    s.q = u.q → s.x = u.x → s.ibuf = u.ibuf →
    s.script = .write 0 (.nat 0x10) :: answers as → u.script = .write 0 (.nat 0x10) :: answers as →
    core.run (n + 1) s = .next t →
    ∃ w : State, core.run (n + 1) u = .next w ∧ w.stage = t.stage ∧ w.kout = t.kout ∧ w.eout = t.eout ∧ w.rv = t.rv ∧
      w.cause = t.cause ∧ w.script = t.script

/-- R119, R134: an attempt always ends: T_RESET, exactly nb blocks of HLEN octets, the last test of the loop, FORM_K and
RANGE, then the candidate is offered or retried. -/
def Obligations.AttemptEndsAfterItsBlocks : Prop :=
  ∀ s : State, Inv s → s.stage = .tReset → s.script = [] →
    ∃ (t : State) (o : Octets) (k : Nat), core.run (blocksOf Config.params s.q + 4) s = .next t ∧ t.t = some o ∧
      o.length = blocksOf Config.params s.q * Config.params.hlen ∧ t.kout = some k ∧ k = bits2int o (bitlen s.q) ∧
      t.stage = (if 1 ≤ k ∧ k < s.q then .predWait else .updK)

/-- R131: a generation's HMAC calls, part by part: four up to the first attempt, nb in an attempt, two in a retry. And in
all: a run that starts with GENERATE has made `4 + a nb + 2 (a - 1)` calls when its `a`-th candidate, in
range or out of range, is offered, is retried, or has been accepted. -/
def Obligations.HmacCallsAreCounted : Prop :=
  (∀ s : State, Inv s → s.script = [] →
    (s.stage = .seed → hmacCalls 6 s = 4 ∧ ∃ t : State, core.run 6 s = .next t ∧ t.stage = .tReset) ∧
    (s.stage = .tReset → hmacCalls (blocksOf Config.params s.q + 4) s = blocksOf Config.params s.q) ∧
    (s.stage = .updK → hmacCalls 2 s = 2 ∧ ∃ t : State, core.run 2 s = .next t ∧ t.stage = .tReset)) ∧
  (∀ (s t : State) (as : List Bool) (n a : Nat), Inv s → s.stage = .idle →
    s.script = .write 0 (.nat 0x10) :: answers as → core.run (n + 1) s = .next t →
    t.stage = .predWait ∨ t.stage = .updK ∨ t.rv = true → candidatesFormed (n + 1) s = a →
    1 ≤ a ∧ hmacCalls (n + 1) s = 4 + a * blocksOf Config.params s.q + 2 * (a - 1))

/-- R119, R133: an attempt's T has nb blocks; where qlen is no multiple of 8 and HLEN divides `floor(qlen/8)`, T is narrower
than qlen and the candidate below `2^(8 floor(qlen/8))`; in every other case T has qlen bits at least. For every unit. -/
def Obligations.FloorThresholdBoundsCandidates : Prop :=
  ∀ (P : Params) (q : Nat) (k v : Octets),
    (produce P q k v).2.length = (bitlen q / 8 + (P.hlen - 1)) / P.hlen * P.hlen ∧
    (bitlen q % 8 ≠ 0 ∧ P.hlen ∣ bitlen q / 8 → 8 * (produce P q k v).2.length < bitlen q ∧
      bits2int (produce P q k v).2 (bitlen q) < 2 ^ (8 * (bitlen q / 8))) ∧
    (bitlen q % 8 = 0 ∨ ¬ P.hlen ∣ bitlen q / 8 → bitlen q ≤ 8 * (produce P q k v).2.length)

/-- R132, R125: the micro-operations carry out GenerateSecret. Whatever answers the predicate agent gives, the nonce the
function returns is accepted in KOUT with e in EOUT; where the answers run out, the candidate it stands at is offered;
where the fuel runs out, the next attempt begins, from the K and V and with the answers left that the function stands at;
where the function has no value, GENERATE is a fault. Up to there the predicate agent has been shown exactly the pairs
(k, e) the function consulted the predicate with, in that order. -/
def Obligations.GenerationRefinesGenerateSecret : Prop :=
  ∀ (s : State) (x fuel : Nat) (as : List Bool), Inv s → s.stage = .idle → s.x = some x →
    s.script = .write 0 (.nat 0x10) :: answers as →
    match generateSecret Config.params fuel s.q x s.ibuf as with
    | some (.accepted k e offered) => ∃ (n : Nat) (t : State), core.run n s = .next t ∧ t.stage = .idle ∧ t.rv = true ∧
        t.kout = some k ∧ t.eout = some e ∧ shown n s = offers e (offered ++ [k])
    | some (.pending k e offered) => ∃ (n : Nat) (t : State), core.run n s = .next t ∧ t.stage = .predWait ∧
        t.script = [] ∧ t.kout = some k ∧ t.eout = some e ∧ shown n s = offers e (offered ++ [k])
    | some (.outOfFuel k v e left offered) => ∃ (n : Nat) (t : State), core.run n s = .next t ∧ t.stage = .tReset ∧
        t.k = some k ∧ t.v = some v ∧ t.eout = some e ∧ t.script = answers left ∧ shown n s = offers e offered
    | none => ∃ t : State, core.run 1 s = .next t ∧ t.stage = .fault ∧ (t.cause = .qRange ∨ t.cause = .xRange)

/-! ### Programs' notation, instances, host software -/

/-- R79, R57: GENSECRET q, x, d starts a generation with exactly those three operands. -/
def Obligations.GensecretStartsAGeneration : Prop :=
  ∀ (s : State) (q x : Nat) (d : Octets) (rest : List Event), s.stage = .idle → FitsQbitsMax Config.params q → FitsDlenMax Config.params d →
    8 ≤ bitlen q → 1 ≤ x → x < q → s.script = genSecret q x d ++ rest →
    ∃ t : State, core.run 4 s = .next t ∧ t.q = q ∧ t.x = some x ∧ t.ibuf = d ∧ t.stage = .seed ∧ t.rv = false ∧
      t.script = rest

/-- R79, R95 to R98: the pseudo-instructions B2I, I2O, B2IQ and B2O return the codec function's value. -/
def Obligations.CodecScriptsReturnTheirResult : Prop :=
  ∀ (s : State) (d : Octets) (v : Nat) (rest : List Event), s.stage = .idle → s.q ≠ 0 →
    FitsDlenMax Config.params d → v < 2 ^ (8 * ((bitlen s.q + 7) / 8)) → FitsQbitsMax Config.params v →
    (s.script = b2i d ++ rest → ∃ t : State, core.run 3 s = .next t ∧ t.script = rest ∧ t.stage = .idle ∧
      t.reply = some (.nat (bits2int d (bitlen s.q)))) ∧
    (s.script = i2o v ++ rest → ∃ (t : State) (o : Octets), core.run 3 s = .next t ∧ t.script = rest ∧ t.stage = .idle ∧
      t.reply = some (.octets o) ∧ o.length = (bitlen s.q + 7) / 8 ∧ os2i o = v) ∧
    (s.script = b2iq d ++ rest → ∃ t : State, core.run 3 s = .next t ∧ t.script = rest ∧ t.stage = .idle ∧
      t.reply = some (.nat (bits2int d (bitlen s.q) % s.q))) ∧
    (s.script = b2o d ++ rest → ∃ (t : State) (o : Octets), core.run 3 s = .next t ∧ t.script = rest ∧ t.stage = .idle ∧
      t.reply = some (.octets o) ∧ o.length = (bitlen s.q + 7) / 8 ∧ os2i o = bits2int d (bitlen s.q) % s.q)

/-- R78: WAIT reads STATUS until the condition holds; then it is done, with the STATUS it read; until then the engine
runs. -/
def Obligations.WaitPollsStatus : Prop :=
  ∀ (s : State) (c : Cond) (rest : List Event), s.script = .await c :: rest →
    (condHolds c s = true → step s = .next { s with script := rest, reply := some (.nat s.status.toNat) }) ∧
    (∀ t, condHolds c s = false → step s = .next t → t.script = s.script ∧ step { s with script := [] } = .next { t with script := [] })

/-- R164, R155, R156: whatever the collaborators compute, the assemblers' predicates never accept with r = 0 or s = 0, and
the pair they keep is the one R155 and R156 name; nor does an assembled system ever come to return another. Where the modular
operations are the exact ones, both are below the order, and adding the order to e makes no difference. -/
def Obligations.AssemblersNeverEmitZero : Prop :=
  ∀ C : Collaborators,
    (∀ n d k e r s, predEcdsa C n d k e = some (r, s) → r ≠ 0 ∧ s ≠ 0 ∧ r = C.modRed (C.xcoord k) n ∧
      s = C.modMul (C.modInv k n) (C.modAdd e (C.modMul d r n) n) n) ∧
    (∀ p n g d k e r s, predDsa C p n g d k e = some (r, s) → r ≠ 0 ∧ s ≠ 0 ∧ r = C.modRed (C.modExp g k p) n ∧
      s = C.modMul (C.modInv k n) (C.modAdd e (C.modMul d r n) n) n) ∧
    (ModularExact C → ∀ p n g d k e, 0 < n →
      predEcdsa C n d k (e + n) = predEcdsa C n d k e ∧ predDsa C p n g d k (e + n) = predDsa C p n g d k e ∧
      (∀ r s, predEcdsa C n d k e = some (r, s) → r < n ∧ s < n ∧ r = C.xcoord k % n ∧
        s = C.modInv k n * (e + d * r) % n) ∧
      (∀ r s, predDsa C p n g d k e = some (r, s) → r < n ∧ s < n ∧ r = C.modExp g k p % n ∧
        s = C.modInv k n * (e + d * r) % n)) ∧
    (∀ (c : Call) (g g' : SignState), signStep C c g = .next g' →
      (∀ r s, g'.phase = .returning r s → g.phase = .returning r s ∨ (r ≠ 0 ∧ s ≠ 0 ∧
        ∃ k e, g.phase = .digestInt k ∧ g.engine.reply = some (.nat e) ∧ verdictOf C c k e = some (r, s))) ∧
      (∀ r s, g'.phase = .done (.signature r s) → g.phase = .done (.signature r s) ∨ g.phase = .returning r s))

/-- R191, R192, R157, R158: SignDSA raises InvalidDomainParameters exactly for an order whose bit length is no multiple of 8,
SignECDSA InvalidPrivateKey exactly for a scalar not below the order; neither then starts a generation, and the call is over
with the engine untouched. A scalar that passes unchecked, 0 among them, is caught by the engine's own fault. -/
def Obligations.HostContractChecks : Prop :=
  (∀ (n d : Nat) (digest : Octets),
    (startDsa n d digest = .error .invalidDomainParameters ↔ bitlen n % 8 ≠ 0) ∧
    (startDsa n d digest = .ok (genSecret n d digest) ↔ bitlen n % 8 = 0) ∧
    (startEcdsa n d digest = .error .invalidPrivateKey ↔ n ≤ d) ∧
    (startEcdsa n d digest = .ok (genSecret n d digest) ↔ d < n)) ∧
  (∀ (C : Collaborators) (n d p b : Nat) (digest : Octets) (s : State), s.script = [] →
    (n ≤ d → signStep C ⟨.ecdsa, n, d, digest⟩ ⟨s, .called⟩ = .next ⟨s, .done (.aborted .invalidPrivateKey)⟩) ∧
    (bitlen n % 8 ≠ 0 → signStep C ⟨.dsa p b, n, d, digest⟩ ⟨s, .called⟩
      = .next ⟨s, .done (.returned .invalidDomainParameters)⟩)) ∧
  (∀ (C : Collaborators) (c : Call) (s : State) (es : List Event), s.stage = .idle → s.script = [] →
    startOf c = .ok es → FitsQbitsMax Config.params c.order → FitsQbitsMax Config.params c.scalar →
    FitsDlenMax Config.params c.digest → bitlen c.order < 8 ∨ c.scalar = 0 ∨ c.order ≤ c.scalar →
    ∃ (t : State) (r : Option Value), signRun C c 7 ⟨s, .called⟩ = .next ⟨t, .done (.engineFault r)⟩ ∧ t.stage = .fault ∧
      t.cause = if bitlen c.order < 8 then .qRange else .xRange)

/-- R157, R158, R213 (3) to (7): the assembled system answers each request with the predicate of KOUT and EOUT; on reject the
generation goes on, on accept the kept pair is returned and the instance is cleared. So a call whose contract holds carries
out GenerateSecret (R125) with the predicate's own answers: it returns the signature of the first candidate the predicate
accepts, or, as long as there has been none, stands at the next attempt. -/
def Obligations.AssemblersReturnTheAcceptedSignature : Prop :=
  ∀ (C : Collaborators) (c : Call),
    (∀ (s : State) (k e : Nat), s.stage = .predWait → s.script = nextCandidate → s.kout = some k → s.eout = some e →
      (∀ r z, verdictOf C c k e = some (r, z) → ∃ t : State,
        signRun C c 8 ⟨s, .candidate⟩ = .next ⟨t, .done (.signature r z)⟩ ∧ ResetItems t ∧ t.script = []) ∧
      (verdictOf C c k e = none → ∃ t : State, signRun C c 6 ⟨s, .candidate⟩ = .next ⟨t, .candidate⟩ ∧ t.stage = .updK ∧
        t.script = nextCandidate ∧ Frame [.stage] { s with script := t.script, reply := t.reply } t)) ∧
    (∀ (s : State) (es : List Event) (fuel : Nat), s.stage = .idle → s.script = [] → startOf c = .ok es →
      FitsQbitsMax Config.params c.order → FitsDlenMax Config.params c.digest → ∃ as : List Bool,
      match generateSecret Config.params fuel c.order c.scalar c.digest as with
      | some (.accepted k e offered) => (∀ j ∈ offered, verdictOf C c j e = none) ∧
          ∃ (r z m : Nat) (t : State), verdictOf C c k e = some (r, z) ∧
            signRun C c m ⟨s, .called⟩ = .next ⟨t, .done (.signature r z)⟩ ∧ ResetItems t ∧ t.script = []
      | some (.outOfFuel k v e left offered) => left = [] ∧ (∀ j ∈ offered, verdictOf C c j e = none) ∧
          ∃ (m : Nat) (t : State), signRun C c m ⟨s, .called⟩ = .next ⟨t, .candidate⟩ ∧ t.stage = .tReset ∧
            t.k = some k ∧ t.v = some v ∧ t.eout = some e ∧ t.script = nextCandidate
      | some (.pending _ _ _) => False
      | none => bitlen c.order < 8 ∨ c.scalar = 0 ∨ c.order ≤ c.scalar)
end

