-- ==== Sys2Proof/Laws/Operands.lean ====
section
/-! SUPPORT. What the operand computations give: bit length, the big-endian conversions, the codec functions, HMAC. -/

namespace Sys2Proof.Machine

/-- R9: `bitlen(n)` is the least `L` with `n < 2^L`. -/
theorem bitlen_le_iff (n L : Nat) : bitlen n ≤ L ↔ n < 2 ^ L := by
  unfold bitlen
  split
  · next h => subst h; simp
  · next h => rw [← Nat.log2_lt h]; omega

theorem lt_two_pow_bitlen (n : Nat) : n < 2 ^ bitlen n := (bitlen_le_iff n _).mp le_rfl

theorem two_pow_le_of_bitlen (n : Nat) (h : n ≠ 0) : 2 ^ (bitlen n - 1) ≤ n := by
  by_contra hlt
  have hle := (bitlen_le_iff n (bitlen n - 1)).mpr (by omega)
  have hpos : bitlen n ≠ 0 := by unfold bitlen; simp [h]
  omega

@[simp] theorem bitlen_zero : bitlen 0 = 0 := by simp [bitlen]

theorem bitlen_mono {m n : Nat} (h : m ≤ n) : bitlen m ≤ bitlen n :=
  (bitlen_le_iff m _).mpr (lt_of_le_of_lt h (lt_two_pow_bitlen n))

theorem qlenOf_le_eight_mul_rolenOf (q : Nat) : qlenOf q ≤ 8 * rolenOf q := by
  simp only [rolenOf, ceilDiv8]; omega

/-- q itself fits rolen octets (R112). -/
theorem lt_two_pow_rolen (q : Nat) : q < 2 ^ (8 * rolenOf q) :=
  lt_of_lt_of_le (lt_two_pow_bitlen q) (Nat.pow_le_pow_right (by norm_num) (qlenOf_le_eight_mul_rolenOf q))

@[simp] theorem os2i_nil : os2i [] = 0 := rfl

theorem os2i_foldl (s : Octets) (acc : Nat) :
    s.foldl (fun acc b => acc * 256 + b.toNat) acc = acc * 256 ^ s.length + os2i s := by
  unfold os2i
  induction s generalizing acc with
  | nil => simp
  | cons b s ih => simp only [List.foldl_cons, List.length_cons]; rw [ih, ih (0 * 256 + b.toNat), pow_succ]; ring

/-- R52: the first octet is the most significant. -/
theorem os2i_cons (b : Octet) (s : Octets) : os2i (b :: s) = b.toNat * 256 ^ s.length + os2i s := by
  show s.foldl _ _ = _
  rw [os2i_foldl]; simp

theorem os2i_append (s t : Octets) : os2i (s ++ t) = os2i s * 256 ^ t.length + os2i t := by
  show (s ++ t).foldl _ _ = _
  rw [List.foldl_append, os2i_foldl]; rfl

theorem os2i_lt (s : Octets) : os2i s < 256 ^ s.length := by
  induction s with
  | nil => simp
  | cons b s ih =>
    rw [os2i_cons, List.length_cons, pow_succ]
    have hb : b.toNat ≤ 255 := by have := b.isLt; omega
    have := Nat.mul_le_mul_right (256 ^ s.length) hb
    omega

theorem pow256 (n : Nat) : 256 ^ n = 2 ^ (8 * n) := by rw [pow_mul]; norm_num

@[simp] theorem i2os_length (v n : Nat) : (i2os v n).length = n := by
  induction n with
  | zero => rfl
  | succ n ih => simp [i2os, ih]

/-- The octets of `v` written into `n` octets, read back: `v` modulo `256^n`. -/
theorem os2i_i2os_mod (v n : Nat) : os2i (i2os v n) = v % 256 ^ n := by
  induction n with
  | zero => simp [i2os, Nat.mod_one]
  | succ n ih =>
    have h8 : (2 : Nat) ^ 8 = 256 := rfl
    rw [i2os, os2i_cons, ih, i2os_length, BitVec.toNat_ofNat, h8, pow_succ, Nat.mod_mul (a := 256 ^ n),
      Nat.mul_comm, Nat.add_comm]

/-- R91: the result is in `[0, 2^qlen - 1]`. -/
theorem bits2int_lt (s : Octets) (qlen : Nat) : bits2int s qlen < 2 ^ qlen := by
  have h := os2i_lt s
  rw [pow256] at h
  unfold bits2int
  simp only
  split
  · next hgt =>
    rw [Nat.shiftRight_eq_div_pow]
    refine Nat.div_lt_of_lt_mul ?_
    rw [← pow_add]
    have : 8 * s.length - qlen + qlen = 8 * s.length := by omega
    rwa [this]
  · next hle => exact lt_of_lt_of_le h (Nat.pow_le_pow_right (by norm_num) (by omega))

/-- R93: with `qlen = bitlen(q)` and `q >= 1` one subtraction is a full reduction. -/
theorem bits2IntModQ_eq_mod (s : Octets) (q : Nat) (h : q ≠ 0) :
    bits2IntModQ s q (qlenOf q) = bits2int s (qlenOf q) % q := by
  have hz := bits2int_lt s (qlenOf q)
  have hq := two_pow_le_of_bitlen q h
  have hb : bitlen q ≠ 0 := by unfold bitlen; simp [h]
  have h2 : bits2int s (qlenOf q) < 2 * q := by
    have : 2 ^ qlenOf q = 2 * 2 ^ (bitlen q - 1) := by rw [← pow_succ']; congr 1; simp only [qlenOf]; omega
    omega
  unfold bits2IntModQ
  simp only
  split
  · next hge => rw [Nat.mod_eq_sub_mod hge, Nat.mod_eq_of_lt (by omega)]
  · next hlt => rw [Nat.mod_eq_of_lt (by omega)]

theorem bits2IntModQ_lt (s : Octets) (q : Nat) (h : q ≠ 0) : bits2IntModQ s q (qlenOf q) < q := by
  rw [bits2IntModQ_eq_mod s q h]; exact Nat.mod_lt _ (Nat.pos_of_ne_zero h)

/-- R92, where there is a result: exactly rolen octets, and they denote v. -/
theorem int2octets_spec {v rolen : Nat} {o : Octets} (h : int2octets v rolen = some o) :
    v < 2 ^ (8 * rolen) ∧ o.length = rolen ∧ os2i o = v := by
  unfold int2octets at h
  split at h
  · next hv =>
    cases h
    refine ⟨hv, i2os_length _ _, ?_⟩
    rw [os2i_i2os_mod, pow256, Nat.mod_eq_of_lt hv]
  · cases h

theorem int2octets_of_lt {v rolen : Nat} (h : v < 2 ^ (8 * rolen)) : int2octets v rolen = some (i2os v rolen) :=
  if_pos h

theorem int2octets_of_ge {v rolen : Nat} (h : 2 ^ (8 * rolen) ≤ v) : int2octets v rolen = none :=
  if_neg (by omega)

@[simp] theorem hmac_length (P : Params) (k m : Octets) : (P.hmac k m).length = P.hlen := by simp [Params.hmac]

theorem hlen_pos (P : Params) : 1 ≤ P.hlen := by simp [Params.hlen]

@[simp] theorem rep_length (b : Octet) (n : Nat) : (rep b n).length = n := by simp [rep]

@[simp] theorem initV_length (P : Params) : (initV P).length = P.hlen := by simp [initV]

@[simp] theorem initK_length (P : Params) : (initK P).length = P.hlen := by simp [initK]

/-- A write at the append position appends (R62). -/
@[simp] theorem memWrite_end (t v : Octets) : memWrite t t.length v = t ++ v := by simp [memWrite]

theorem fitsInt_of_le {P : Params} {m n : Nat} (h : bitlen n ≤ bitlen m) (hm : fitsInt P m = true) :
    fitsInt P n = true := by
  unfold fitsInt at *
  cases hq : P.qbitsMax with
  | none => simp
  | some M => simp only [hq, decide_eq_true_eq] at hm ⊢; omega

theorem fitsInt_of_lt_two_pow {P : Params} {q n : Nat} (h : n < 2 ^ qlenOf q) (hq : fitsInt P q = true) :
    fitsInt P n = true := fitsInt_of_le ((bitlen_le_iff n _).mpr h) hq

@[simp] theorem fitsInt_zero (P : Params) : fitsInt P 0 = true := by
  unfold fitsInt; split <;> simp

@[simp] theorem fitsOctets_nil (P : Params) : fitsOctets P [] = true := by
  unfold fitsOctets; split <;> simp

@[simp] theorem fitsObuf_nil (P : Params) : fitsObuf P [] = true := by
  unfold fitsObuf; split <;> simp

/-- rolen octets fit OBUF (R26). -/
theorem fitsObuf_of_rolen {P : Params} {q : Nat} {o : Octets} (h : o.length = rolenOf q) (hq : fitsInt P q = true) :
    fitsObuf P o = true := by
  unfold fitsInt at hq
  unfold fitsObuf
  cases hm : P.qbitsMax with
  | none => simp
  | some M =>
    simp only [hm, decide_eq_true_eq] at hq ⊢
    simp only [h, rolenOf, ceilDiv8, qlenOf]
    omega

/-- QBITS_MAX is at least QLEN_MIN (R6): every 8-bit natural fits. -/
theorem fitsInt_of_bitlen_le_eight {P : Params} {n : Nat} (h : bitlen n ≤ 8) : fitsInt P n = true := by
  unfold fitsInt Params.qbitsMax
  cases P.qbitsSlack with
  | none => simp
  | some m => simp only [Option.map_some, decide_eq_true_eq]; omega

/-- R119: block number `m` (from 0) is drawn exactly while T is below the threshold. -/
theorem lt_blocksOf_iff (P : Params) (q m : Nat) : m < blocksOf P q ↔ m * P.hlen < thresholdOf q := by
  have hp : P.hlen = P.hlenPred + 1 := rfl
  rw [blocksOf, Nat.lt_iff_add_one_le, Nat.le_div_iff_mul_le (hlen_pos P), hp]
  have : (m + 1) * (P.hlenPred + 1) = m * (P.hlenPred + 1) + (P.hlenPred + 1) := by ring
  omega

end Sys2Proof.Machine
end

