-- ==== Sys2Proof/Laws/State.lean ====
section
/-! SUPPORT. One lemma per field per named update of State, each true by rfl, so that no later proof unfolds a record
update. -/

namespace Sys2Proof.Machine

@[simp] theorem eraseItems_q (s : State) : (eraseItems s).q = 0 := rfl
@[simp] theorem eraseItems_x (s : State) : (eraseItems s).x = none := rfl
@[simp] theorem eraseItems_ibuf (s : State) : (eraseItems s).ibuf = [] := rfl
@[simp] theorem eraseItems_aint (s : State) : (eraseItems s).aint = 0 := rfl
@[simp] theorem eraseItems_rint (s : State) : (eraseItems s).rint = 0 := rfl
@[simp] theorem eraseItems_obuf (s : State) : (eraseItems s).obuf = [] := rfl
@[simp] theorem eraseItems_kout (s : State) : (eraseItems s).kout = none := rfl
@[simp] theorem eraseItems_eout (s : State) : (eraseItems s).eout = none := rfl
@[simp] theorem eraseItems_stage (s : State) : (eraseItems s).stage = .idle := rfl
@[simp] theorem eraseItems_rv (s : State) : (eraseItems s).rv = false := rfl
@[simp] theorem eraseItems_cause (s : State) : (eraseItems s).cause = .none := rfl
@[simp] theorem eraseItems_k (s : State) : (eraseItems s).k = none := rfl
@[simp] theorem eraseItems_v (s : State) : (eraseItems s).v = none := rfl
@[simp] theorem eraseItems_t (s : State) : (eraseItems s).t = none := rfl
@[simp] theorem eraseItems_seed (s : State) : (eraseItems s).seed = none := rfl
@[simp] theorem eraseItems_script (s : State) : (eraseItems s).script = s.script := rfl
@[simp] theorem eraseItems_reply (s : State) : (eraseItems s).reply = s.reply := rfl

@[simp] theorem faultEntry_q (c : Cause) (s : State) : (faultEntry c s).q = 0 := rfl
@[simp] theorem faultEntry_x (c : Cause) (s : State) : (faultEntry c s).x = none := rfl
@[simp] theorem faultEntry_ibuf (c : Cause) (s : State) : (faultEntry c s).ibuf = [] := rfl
@[simp] theorem faultEntry_aint (c : Cause) (s : State) : (faultEntry c s).aint = 0 := rfl
@[simp] theorem faultEntry_rint (c : Cause) (s : State) : (faultEntry c s).rint = 0 := rfl
@[simp] theorem faultEntry_obuf (c : Cause) (s : State) : (faultEntry c s).obuf = [] := rfl
@[simp] theorem faultEntry_kout (c : Cause) (s : State) : (faultEntry c s).kout = none := rfl
@[simp] theorem faultEntry_eout (c : Cause) (s : State) : (faultEntry c s).eout = none := rfl
@[simp] theorem faultEntry_stage (c : Cause) (s : State) : (faultEntry c s).stage = .fault := rfl
@[simp] theorem faultEntry_rv (c : Cause) (s : State) : (faultEntry c s).rv = false := rfl
@[simp] theorem faultEntry_cause (c : Cause) (s : State) : (faultEntry c s).cause = c := rfl
@[simp] theorem faultEntry_k (c : Cause) (s : State) : (faultEntry c s).k = none := rfl
@[simp] theorem faultEntry_v (c : Cause) (s : State) : (faultEntry c s).v = none := rfl
@[simp] theorem faultEntry_t (c : Cause) (s : State) : (faultEntry c s).t = none := rfl
@[simp] theorem faultEntry_seed (c : Cause) (s : State) : (faultEntry c s).seed = none := rfl
@[simp] theorem faultEntry_script (c : Cause) (s : State) : (faultEntry c s).script = s.script := rfl
@[simp] theorem faultEntry_reply (c : Cause) (s : State) : (faultEntry c s).reply = s.reply := rfl

@[simp] theorem resetEntry_q (s : State) : (resetEntry s).q = 0 := rfl
@[simp] theorem resetEntry_x (s : State) : (resetEntry s).x = none := rfl
@[simp] theorem resetEntry_ibuf (s : State) : (resetEntry s).ibuf = [] := rfl
@[simp] theorem resetEntry_aint (s : State) : (resetEntry s).aint = 0 := rfl
@[simp] theorem resetEntry_rint (s : State) : (resetEntry s).rint = 0 := rfl
@[simp] theorem resetEntry_obuf (s : State) : (resetEntry s).obuf = [] := rfl
@[simp] theorem resetEntry_kout (s : State) : (resetEntry s).kout = none := rfl
@[simp] theorem resetEntry_eout (s : State) : (resetEntry s).eout = none := rfl
@[simp] theorem resetEntry_stage (s : State) : (resetEntry s).stage = .idle := rfl
@[simp] theorem resetEntry_rv (s : State) : (resetEntry s).rv = false := rfl
@[simp] theorem resetEntry_cause (s : State) : (resetEntry s).cause = .none := rfl
@[simp] theorem resetEntry_k (s : State) : (resetEntry s).k = none := rfl
@[simp] theorem resetEntry_v (s : State) : (resetEntry s).v = none := rfl
@[simp] theorem resetEntry_t (s : State) : (resetEntry s).t = none := rfl
@[simp] theorem resetEntry_seed (s : State) : (resetEntry s).seed = none := rfl
@[simp] theorem resetEntry_script (s : State) : (resetEntry s).script = s.script := rfl
@[simp] theorem resetEntry_reply (s : State) : (resetEntry s).reply = s.reply := rfl

@[simp] theorem answer_q (w : Value) (s : State) : (answer w s).q = s.q := rfl
@[simp] theorem answer_x (w : Value) (s : State) : (answer w s).x = s.x := rfl
@[simp] theorem answer_ibuf (w : Value) (s : State) : (answer w s).ibuf = s.ibuf := rfl
@[simp] theorem answer_aint (w : Value) (s : State) : (answer w s).aint = s.aint := rfl
@[simp] theorem answer_rint (w : Value) (s : State) : (answer w s).rint = s.rint := rfl
@[simp] theorem answer_obuf (w : Value) (s : State) : (answer w s).obuf = s.obuf := rfl
@[simp] theorem answer_kout (w : Value) (s : State) : (answer w s).kout = s.kout := rfl
@[simp] theorem answer_eout (w : Value) (s : State) : (answer w s).eout = s.eout := rfl
@[simp] theorem answer_stage (w : Value) (s : State) : (answer w s).stage = s.stage := rfl
@[simp] theorem answer_rv (w : Value) (s : State) : (answer w s).rv = s.rv := rfl
@[simp] theorem answer_cause (w : Value) (s : State) : (answer w s).cause = s.cause := rfl
@[simp] theorem answer_k (w : Value) (s : State) : (answer w s).k = s.k := rfl
@[simp] theorem answer_v (w : Value) (s : State) : (answer w s).v = s.v := rfl
@[simp] theorem answer_t (w : Value) (s : State) : (answer w s).t = s.t := rfl
@[simp] theorem answer_seed (w : Value) (s : State) : (answer w s).seed = s.seed := rfl
@[simp] theorem answer_script (w : Value) (s : State) : (answer w s).script = s.script := rfl
@[simp] theorem answer_reply (w : Value) (s : State) : (answer w s).reply = some w := rfl

@[simp] theorem refuseRead_q (s : State) : (refuseRead s).q = 0 := rfl
@[simp] theorem refuseRead_x (s : State) : (refuseRead s).x = none := rfl
@[simp] theorem refuseRead_ibuf (s : State) : (refuseRead s).ibuf = [] := rfl
@[simp] theorem refuseRead_aint (s : State) : (refuseRead s).aint = 0 := rfl
@[simp] theorem refuseRead_rint (s : State) : (refuseRead s).rint = 0 := rfl
@[simp] theorem refuseRead_obuf (s : State) : (refuseRead s).obuf = [] := rfl
@[simp] theorem refuseRead_kout (s : State) : (refuseRead s).kout = none := rfl
@[simp] theorem refuseRead_eout (s : State) : (refuseRead s).eout = none := rfl
@[simp] theorem refuseRead_stage (s : State) : (refuseRead s).stage = .fault := rfl
@[simp] theorem refuseRead_rv (s : State) : (refuseRead s).rv = false := rfl
@[simp] theorem refuseRead_cause (s : State) : (refuseRead s).cause = .protocol := rfl
@[simp] theorem refuseRead_k (s : State) : (refuseRead s).k = none := rfl
@[simp] theorem refuseRead_v (s : State) : (refuseRead s).v = none := rfl
@[simp] theorem refuseRead_t (s : State) : (refuseRead s).t = none := rfl
@[simp] theorem refuseRead_seed (s : State) : (refuseRead s).seed = none := rfl
@[simp] theorem refuseRead_script (s : State) : (refuseRead s).script = s.script := rfl
@[simp] theorem refuseRead_reply (s : State) : (refuseRead s).reply = none := rfl

@[simp] theorem reset_q : State.reset.q = 0 := rfl
@[simp] theorem reset_x : State.reset.x = none := rfl
@[simp] theorem reset_ibuf : State.reset.ibuf = [] := rfl
@[simp] theorem reset_aint : State.reset.aint = 0 := rfl
@[simp] theorem reset_rint : State.reset.rint = 0 := rfl
@[simp] theorem reset_obuf : State.reset.obuf = [] := rfl
@[simp] theorem reset_kout : State.reset.kout = none := rfl
@[simp] theorem reset_eout : State.reset.eout = none := rfl
@[simp] theorem reset_stage : State.reset.stage = .idle := rfl
@[simp] theorem reset_rv : State.reset.rv = false := rfl
@[simp] theorem reset_cause : State.reset.cause = .none := rfl
@[simp] theorem reset_k : State.reset.k = none := rfl
@[simp] theorem reset_v : State.reset.v = none := rfl
@[simp] theorem reset_t : State.reset.t = none := rfl
@[simp] theorem reset_seed : State.reset.seed = none := rfl
@[simp] theorem reset_script : State.reset.script = [] := rfl
@[simp] theorem reset_reply : State.reset.reply = none := rfl

end Sys2Proof.Machine
end

