-- ==== Sys2Proof/Laws/Ops.lean ====
section
/-! SUPPORT. What each shared operation can do, said once: `need`, `command`, fault entry, erasure; and that every
operation that writes a buffer keeps `Memory.wf`. -/

namespace Sys2Proof.Machine

@[simp] theorem need_some {α : Type} (a : α) (f : Fault) (body : α → Out) : need (some a) f body = body a := rfl

@[simp] theorem need_none {α : Type} (f : Fault) (body : α → Out) : need (none : Option α) f body = .fault f := rfl

/-- If `need` answers a next state, the item held a value. -/
theorem need_next {α : Type} {o : Option α} {f : Fault} {body : α → Out} {t : State}
    (h : need o f body = .next t) : ∃ a, o = some a ∧ body a = .next t := by
  cases o with
  | none => cases h
  | some a => exact ⟨a, rfl, h⟩

@[simp] theorem raise_eq (c : Cause) (s : State) : raise c s = .next (faultEntry c s) := rfl

theorem command_admitted {c : StageClass} {body : State → Out} {s : State} (hf : c ≠ .fault) (h : s.cls = c) :
    command c body s = body s := by
  subst h; simp [command, hf]

theorem command_refused {c : StageClass} {body : State → Out} {s : State} (hf : s.cls ≠ .fault) (h : s.cls ≠ c) :
    command c body s = .next (faultEntry .protocol s) := by
  simp [command, hf, h]

theorem command_ignored {c : StageClass} {body : State → Out} {s : State} (hf : s.cls = .fault) :
    command c body s = .next s := by
  simp [command, hf]

/-- Everything a command can do: ignored in FAULT, performed in its class, PROTOCOL elsewhere. -/
theorem command_next {c : StageClass} {body : State → Out} {s t : State} (h : command c body s = .next t) :
    (s.cls = .fault ∧ t = s) ∨ (s.cls ≠ .fault ∧ s.cls = c ∧ body s = .next t)
      ∨ (s.cls ≠ .fault ∧ s.cls ≠ c ∧ t = faultEntry .protocol s) := by
  unfold command at h
  split at h
  · next hf => cases h; exact .inl ⟨hf, rfl⟩
  · next hf =>
    split at h
    · next hc => exact .inr (.inl ⟨hf, hc, h⟩)
    · next hc => cases h; exact .inr (.inr ⟨hf, hc, rfl⟩)

/-- Class and stage name each other where a class has one stage. -/
@[simp] theorem cls_idle_iff (s : State) : s.cls = .idle ↔ s.stage = .idle := by
  unfold State.cls; cases s.stage <;> simp [Stage.cls]

@[simp] theorem cls_wait_iff (s : State) : s.cls = .wait ↔ s.stage = .predWait := by
  unfold State.cls; cases s.stage <;> simp [Stage.cls]

@[simp] theorem cls_fault_iff (s : State) : s.cls = .fault ↔ s.stage = .fault := by
  unfold State.cls; cases s.stage <;> simp [Stage.cls]

theorem wf_erased {P : Params} {s : State} (hi : s.ibuf = []) (ho : s.obuf = []) (hk : s.k = none) (hv : s.v = none)
    (ht : s.t = none) (hs : s.seed = none) : Memory.wf P s := by
  simp [Memory.wf, hi, ho, hk, hv, ht, hs]

/-- Erasure, fault entry and reset keep the buffers within their capacities. -/
theorem wf_eraseItems (P : Params) (s : State) : Memory.wf P (eraseItems s) :=
  wf_erased rfl rfl rfl rfl rfl rfl

theorem wf_faultEntry (P : Params) (c : Cause) (s : State) : Memory.wf P (faultEntry c s) :=
  wf_erased rfl rfl rfl rfl rfl rfl

theorem wf_reset (P : Params) : Memory.wf P State.reset := wf_erased rfl rfl rfl rfl rfl rfl

/-- A new K or V of HLEN octets keeps the capacities. -/
theorem wf_setK {P : Params} {s : State} {o : Octets} (h : Memory.wf P s) (ho : o.length = P.hlen) :
    Memory.wf P { s with k := some o } :=
  ⟨h.1, h.2.1, by simpa using ho, h.2.2.2.1, h.2.2.2.2⟩

theorem wf_setV {P : Params} {s : State} {o : Octets} (h : Memory.wf P s) (ho : o.length = P.hlen) :
    Memory.wf P { s with v := some o } :=
  ⟨h.1, h.2.1, h.2.2.1, by simpa using ho, h.2.2.2.2⟩

/-- A new octet operand, or a new octet result, that fits. -/
theorem wf_setIbuf {P : Params} {s : State} {o : Octets} (h : Memory.wf P s) (ho : fitsOctets P o = true) :
    Memory.wf P { s with ibuf := o } :=
  ⟨ho, h.2⟩

theorem wf_setObuf {P : Params} {s : State} {o : Octets} (h : Memory.wf P s) (ho : fitsObuf P o = true) :
    Memory.wf P { s with obuf := o } :=
  ⟨h.1, ho, h.2.2⟩

/-- A seed of two groups of rolen octets; T emptied; K, V, T and SEED erased. -/
theorem wf_setSeed {P : Params} {s : State} {o : Octets} (h : Memory.wf P s) (ho : o.length = 2 * rolenOf s.q) :
    Memory.wf P { s with seed := some o } :=
  ⟨h.1, h.2.1, h.2.2.1, h.2.2.2.1, h.2.2.2.2.1, by simpa using ho⟩

theorem wf_emptyT {P : Params} {s : State} (h : Memory.wf P s) : Memory.wf P { s with t := some [] } :=
  ⟨h.1, h.2.1, h.2.2.1, h.2.2.2.1, by simp, h.2.2.2.2.2⟩

theorem wf_eraseHidden {P : Params} {s : State} (h : Memory.wf P s) :
    Memory.wf P { s with k := none, v := none, t := none, seed := none } :=
  ⟨h.1, h.2.1, by simp, by simp, by simp, by simp⟩

/-- The order may change only while T and SEED hold no value, as in IDLE. -/
theorem wf_setQ {P : Params} {s : State} (n : Nat) (h : Memory.wf P s) (ht : s.t = none) (hs : s.seed = none) :
    Memory.wf P { s with q := n } :=
  ⟨h.1, h.2.1, h.2.2.1, h.2.2.2.1, by simp [ht], by simp [hs]⟩

/-- One more block keeps T within its capacity while T is below the threshold (R35, R119). -/
theorem block_fits {P : Params} {q : Nat} {t v : Octets} (hv : v.length = P.hlen) (hd : P.hlen ∣ t.length)
    (hlt : t.length < thresholdOf q) :
    P.hlen ∣ (t ++ v).length ∧ (t ++ v).length ≤ P.hlen * blocksOf P q := by
  obtain ⟨m, hm⟩ := hd
  have hp : P.hlen = P.hlenPred + 1 := rfl
  have hpos : 0 < P.hlen := hlen_pos P
  refine ⟨⟨m + 1, by rw [List.length_append, hm, hv]; ring⟩, ?_⟩
  have hmb : m + 1 ≤ blocksOf P q := by
    unfold blocksOf
    rw [Nat.le_div_iff_mul_le hpos]
    have : (m + 1) * P.hlen = P.hlen * m + P.hlen := by ring
    omega
  calc (t ++ v).length = P.hlen * (m + 1) := by rw [List.length_append, hm, hv]; ring
    _ ≤ _ := Nat.mul_le_mul_left _ hmb

/-- T_BLOCK's two writes keep the capacities. -/
theorem wf_appendBlock {P : Params} {s : State} {o v : Octets} (h : Memory.wf P s) (ho : s.t = some o)
    (hv : v.length = P.hlen) (hlt : o.length < thresholdOf s.q) :
    Memory.wf P { s with v := some v, t := some (memWrite o o.length v) } := by
  refine ⟨h.1, h.2.1, h.2.2.1, by simpa using hv, ?_, h.2.2.2.2.2⟩
  rintro o' h'
  cases h'
  rw [memWrite_end]
  exact block_fits hv (h.2.2.2.2.1 o ho).1 hlt

end Sys2Proof.Machine
end

