-- ==== Sys2Proof/Laws/Step.lean ====
section
/-! SUPPORT. Everything a step can do, said once: `step_cases` splits it into an instruction performed and a transaction
settled; `fetch_instr` and `fetch_settled` say what those two can be. -/

namespace Sys2Proof.Machine

/-- The stage whose code decodes is the stage the micro-operation belongs to. -/
theorem decodeStage4_code (g : Stage) :
    decodeStage4 g.code = match g with
      | .idle => .error (.noMicroOperation 0#4)
      | .seed => .ok .seed
      | .init => .ok .init
      | .ratchD => .ok .ratchD
      | .ratchE => .ok .ratchE
      | .ratchF => .ok .ratchF
      | .ratchG => .ok .ratchG
      | .tReset => .ok .tReset
      | .tBlock => .ok .tBlock
      | .formK => .ok .formK
      | .range => .ok .range
      | .predWait => .ok .predWait
      | .updK => .ok .updK
      | .updV => .ok .updV
      | .fault => .error (.noMicroOperation 15#4) := by
  cases g <;> rfl

/-- A step performs an instruction or settles a transaction, if it answers a next state. -/
theorem step_cases {s t : State} (h : step s = .next t) :
    (∃ i u, fetch Config.params s = .instr i u ∧ exec i u = .next t) ∨ fetch Config.params s = .settled t := by
  unfold step at h
  split at h
  · next i u hf => exact .inl ⟨i, u, hf, h⟩
  · next u hf => cases h; exact .inr hf
  · cases h
  · cases h

theorem step_of_instr {s u : State} {i : Instr} (h : fetch Config.params s = .instr i u) : step s = exec i u := by
  unfold step; rw [h]

theorem step_of_settled {s u : State} (h : fetch Config.params s = .settled u) : step s = .next u := by
  unfold step; rw [h]

/-- What the engine's turn finds. -/
theorem engineTurn_instr {s u : State} {i : Instr} (h : engineTurn s = .instr i u) :
    decodeStage4 s.stage.code = .ok i ∧ u = s := by
  unfold engineTurn at h
  split at h
  · next j hj => cases h; exact ⟨hj, rfl⟩
  · cases h

theorem engineTurn_settled {s u : State} (h : engineTurn s = .settled u) :
    (s.stage = .idle ∨ s.stage = .fault) ∧ u = s := by
  unfold engineTurn at h
  split at h
  · cases h
  · next e he =>
    cases h
    refine ⟨?_, rfl⟩
    rw [decodeStage4_code] at he
    cases hg : s.stage <;> simp_all

/-- An instruction is fetched from a CMD write outside FAULT, or from the stage register on the engine's turn. -/
theorem fetch_instr {P : Params} {s u : State} {i : Instr} (h : fetch P s = .instr i u) :
    (∃ c rest, s.script = .write 0 (.nat c) :: rest ∧ c < 256 ∧ s.stage ≠ .fault
        ∧ decodeCmd8 (BitVec.ofNat 8 c) = .ok i ∧ u = { s with script := rest })
      ∨ (decodeStage4 s.stage.code = .ok i
        ∧ (u = s ∨ ∃ rest, s.script = .engine :: rest ∧ u = { s with script := rest })) := by
  unfold fetch at h
  split at h
  · obtain ⟨hd, rfl⟩ := engineTurn_instr h
    exact .inr ⟨hd, .inl rfl⟩
  · next rest hs =>
    obtain ⟨hd, rfl⟩ := engineTurn_instr h
    exact .inr ⟨hd, .inr ⟨rest, hs, rfl⟩⟩
  · next n v rest hs =>
    left
    unfold hostWrite at h
    split at h
    · split at h <;> cases h
    · next r hr =>
      split at h
      · cases h
      · next hfit =>
        split at h
        · cases h
        · cases h
        · next hacc =>
          split at h
          · next c =>
            unfold issue at h
            split at h
            · next j hj =>
              cases h
              have hn : n = 0 := by
                unfold regOfNum regTable at hr
                rcases n with _ | _ | _ | _ | _ | _ | _ | _ | _ | _ | _ | _ | _ | n <;> simp at hr ⊢
              subst hn
              refine ⟨c, rest, hs, by simpa [valueFits] using hfit, ?_, hj, rfl⟩
              intro hst
              have hc : s.cls = .fault := (cls_fault_iff s).mpr hst
              have hc' : State.cls { s with script := rest } = .fault := hc
              simp [access, hc'] at hacc
            · cases h
          · cases h
  · next n rest hs =>
    unfold hostRead at h
    split at h
    · split at h <;> cases h
    · split at h
      · cases h
      · cases h
      · split at h <;> cases h
  · next c rest hs =>
    unfold hostAwait at h
    split at h
    · cases h
    · obtain ⟨hd, rfl⟩ := engineTurn_instr h
      exact .inr ⟨hd, .inl rfl⟩
  · cases h

/-- A settled transaction changes no item (only the model's script and reply), or takes a fault, or is a reset, or stores
one operand in IDLE. -/
theorem fetch_settled {P : Params} {s u : State} (h : fetch P s = .settled u) :
    (∃ sc r, u = { s with script := sc, reply := r })
      ∨ (s.stage ≠ .fault ∧ ∃ c sc r, c ≠ .none ∧ u = { faultEntry c s with script := sc, reply := r })
      ∨ (∃ rest, s.script = .reset :: rest ∧ u = { eraseItems s with script := rest })
      ∨ (s.stage = .idle ∧ ∃ sc,
          (∃ n, fitsInt P n = true ∧ u = { s with script := sc, q := n })
          ∨ (∃ n, fitsInt P n = true ∧ u = { s with script := sc, x := some n })
          ∨ (∃ n, fitsInt P n = true ∧ u = { s with script := sc, aint := n })
          ∨ (∃ o, fitsOctets P o = true ∧ u = { s with script := sc, ibuf := o })) := by
  unfold fetch at h
  split at h
  · obtain ⟨-, rfl⟩ := engineTurn_settled h
    exact .inl ⟨u.script, u.reply, rfl⟩
  · next rest hs =>
    obtain ⟨-, rfl⟩ := engineTurn_settled h
    exact .inl ⟨rest, s.reply, rfl⟩
  · next n v rest hs =>
    unfold hostWrite at h
    split at h
    · split at h
      · cases h; exact .inl ⟨rest, s.reply, rfl⟩
      · next hc =>
        cases h
        exact .inr (.inl ⟨fun hf => hc ((cls_fault_iff _).mpr hf), .protocol, rest, s.reply, by decide, rfl⟩)
    · next r hr =>
      split at h
      · cases h
      · split at h
        · cases h; exact .inl ⟨rest, s.reply, rfl⟩
        · next hacc =>
          cases h
          refine .inr (.inl ⟨fun hf => ?_, .protocol, rest, s.reply, by decide, rfl⟩)
          have hc : State.cls { s with script := rest } = .fault := (cls_fault_iff _).mpr hf
          simp only [access, hc, if_true] at hacc
          split at hacc <;> cases hacc
        · next hacc =>
          have hnf : s.stage ≠ .fault := by
            intro hf
            have hc : State.cls { s with script := rest } = .fault := (cls_fault_iff _).mpr hf
            simp [access, hc] at hacc
          have hidle : r ≠ .cmd → s.stage = .idle := by
            intro hne
            have hc : State.cls { s with script := rest } ≠ .fault := fun hf => hnf ((cls_fault_iff _).mp hf)
            have : State.cls { s with script := rest } = .idle := by
              cases r <;> simp_all [access, accessOutsideFault, onlyIn]
            exact (cls_idle_iff _).mp this
          split at h
          · unfold issue at h
            split at h
            · cases h
            · cases h
              exact .inr (.inl ⟨hnf, .illegalCmd, rest, s.reply, by decide, rfl⟩)
          · next hne =>
            cases h
            cases r <;> cases v <;> simp only [storeOperand]
            all_goals first
              | exact .inl ⟨rest, s.reply, rfl⟩
              | skip
            all_goals
              split
              · next hfit =>
                refine .inr (.inr (.inr ⟨hidle (by simp), rest, ?_⟩))
                first
                  | exact .inl ⟨_, hfit, rfl⟩
                  | exact .inr (.inl ⟨_, hfit, rfl⟩)
                  | exact .inr (.inr (.inl ⟨_, hfit, rfl⟩))
                  | exact .inr (.inr (.inr ⟨_, hfit, rfl⟩))
              · exact .inr (.inl ⟨hnf, .operandSize, rest, s.reply, by decide, rfl⟩)
  · next n rest hs =>
    unfold hostRead at h
    split at h
    · split at h
      · cases h; exact .inl ⟨rest, _, rfl⟩
      · next hc =>
        cases h
        exact .inr (.inl ⟨fun hf => hc ((cls_fault_iff _).mpr hf), .protocol, rest, none, by decide, rfl⟩)
    · next r hr =>
      split at h
      · next hacc =>
        cases h
        refine .inr (.inl ⟨fun hf => ?_, .protocol, rest, none, by decide, rfl⟩)
        have hc : State.cls { s with script := rest } = .fault := (cls_fault_iff _).mpr hf
        simp only [access, hc, if_true] at hacc
        split at hacc <;> cases hacc
      · cases h; exact .inl ⟨rest, _, rfl⟩
      · split at h
        · cases h; exact .inl ⟨rest, _, rfl⟩
        · cases h
  · next c rest hs =>
    unfold hostAwait at h
    split at h
    · cases h; exact .inl ⟨rest, _, rfl⟩
    · obtain ⟨-, rfl⟩ := engineTurn_settled h
      exact .inl ⟨u.script, u.reply, rfl⟩
  · next rest hs =>
    cases h
    exact .inr (.inr (.inl ⟨rest, hs, rfl⟩))

end Sys2Proof.Machine
end

