-- ==== Sys2Proof/Laws/Access.lean ====
section
/-! SUPPORT. What the host's transactions can do, said once: a gated read inside and outside its window, an operand
store, and the script after a settled transaction. -/

namespace Sys2Proof.Machine

/-- A store of an operand takes the value, or the fault OPERAND_SIZE, or (never reached by the host) changes nothing; it
never touches the script. -/
theorem storeOperand_cases (P : Params) (r : Reg) (v : Value) (s : State) :
    (∃ n, fitsInt P n = true ∧ v = .nat n ∧ ((r = .q ∧ storeOperand P r v s = { s with q := n })
        ∨ (r = .x ∧ storeOperand P r v s = { s with x := some n })
        ∨ (r = .aint ∧ storeOperand P r v s = { s with aint := n })))
      ∨ (∃ o, fitsOctets P o = true ∧ v = .octets o ∧ r = .ibuf ∧ storeOperand P r v s = { s with ibuf := o })
      ∨ storeOperand P r v s = faultEntry .operandSize s ∨ storeOperand P r v s = s := by
  cases r <;> cases v <;> simp only [storeOperand] <;> (try split) <;> simp_all

@[simp] theorem storeOperand_script (P : Params) (r : Reg) (v : Value) (s : State) :
    (storeOperand P r v s).script = s.script := by
  unfold storeOperand
  repeat' (first | rfl | split)

/-- A settled transaction leaves the script, or takes its head off. -/
theorem fetch_settled_script {P : Params} {s u : State} (h : fetch P s = .settled u) :
    u.script = s.script ∨ ∃ e, s.script = e :: u.script := by
  unfold fetch at h
  split at h
  · obtain ⟨-, rfl⟩ := engineTurn_settled h; exact .inl rfl
  · next rest hs => obtain ⟨-, rfl⟩ := engineTurn_settled h; exact .inr ⟨_, hs⟩
  · next n v rest hs =>
    refine .inr ⟨.write n v, ?_⟩
    unfold hostWrite issue at h
    repeat' split at h
    all_goals cases h
    all_goals first | exact hs | rw [hs, storeOperand_script]
  · next n rest hs =>
    refine .inr ⟨.read n, ?_⟩
    unfold hostRead at h
    repeat' split at h
    all_goals cases h
    all_goals exact hs
  · next c rest hs =>
    unfold hostAwait at h
    split at h
    · cases h; exact .inr ⟨_, hs⟩
    · obtain ⟨-, rfl⟩ := engineTurn_settled h; exact .inl rfl
  · next rest hs => cases h; exact .inr ⟨_, hs⟩

end Sys2Proof.Machine
end

