-- ==== Sys2Proof/Laws/Exec.lean ====
section
/-! SUPPORT. One equation per instruction: the outcome where its operands are there, and, for a command, what it is in
terms of `command`. Cited instead of unfolding the meanings. -/

namespace Sys2Proof.Machine

/-- What an idle instance's codec command or CLEAR, or an answer in PRED_WAIT, does: its own effect. -/
theorem exec_bits2int {s : State} (h : s.stage = .idle) :
    exec .bits2int s = .next { s with rint := bits2int s.ibuf (qlenOf s.q) } := by
  simp [exec, execBits2int, command_admitted (c := .idle) (by decide) ((cls_idle_iff s).mpr h)]

theorem exec_int2octets {s : State} {o : Octets} (h : s.stage = .idle) (ho : int2octets s.aint (rolenOf s.q) = some o) :
    exec .int2octets s = .next { s with obuf := o } := by
  simp [exec, execInt2octets, command_admitted (c := .idle) (by decide) ((cls_idle_iff s).mpr h), ho]

theorem exec_int2octets_range {s : State} (h : s.stage = .idle) (ho : int2octets s.aint (rolenOf s.q) = none) :
    exec .int2octets s = .next (faultEntry .intRange s) := by
  simp [exec, execInt2octets, command_admitted (c := .idle) (by decide) ((cls_idle_iff s).mpr h), ho]

theorem exec_bits2intmodq {s : State} (h : s.stage = .idle) :
    exec .bits2intmodq s = .next (if s.q = 0 then faultEntry .qRange s
      else { s with rint := bits2IntModQ s.ibuf s.q (qlenOf s.q) }) := by
  simp only [exec, execBits2intmodq, command_admitted (c := .idle) (by decide) ((cls_idle_iff s).mpr h)]
  split <;> rfl

/-- The octets of BITS2OCTETS always exist (R94). -/
theorem exec_bits2octets {s : State} (h : s.stage = .idle) :
    exec .bits2octets s = .next (if s.q = 0 then faultEntry .qRange s
      else { s with obuf := i2os (bits2IntModQ s.ibuf s.q (qlenOf s.q)) (rolenOf s.q) }) := by
  simp only [exec, execBits2octets, command_admitted (c := .idle) (by decide) ((cls_idle_iff s).mpr h)]
  split
  · rfl
  · next hq =>
    simp [bits2octets, int2octets_of_lt (lt_trans (bits2IntModQ_lt s.ibuf s.q hq) (lt_two_pow_rolen s.q))]

theorem exec_generate {s : State} (h : s.stage = .idle) :
    exec .generate s = .next (
      if qlenOf s.q < qlenMin then faultEntry .qRange s
      else if (∃ x, s.x = some x ∧ 1 ≤ x ∧ x < s.q) then
        { s with rv := false, kout := none, eout := none, stage := .seed }
      else faultEntry .xRange s) := by
  simp only [exec, execGenerate, command_admitted (c := .idle) (by decide) ((cls_idle_iff s).mpr h)]
  split
  · rfl
  · cases hx : s.x with
    | none => simp
    | some x =>
      simp only [Option.some.injEq, exists_eq_left']
      by_cases hr : 1 ≤ x ∧ x < s.q
      · rw [if_neg (by omega), if_pos hr]
      · rw [if_pos (by omega), if_neg hr]; rfl

theorem exec_accept {s : State} (h : s.stage = .predWait) :
    exec .accept s = .next { s with rv := true, k := none, v := none, t := none, stage := .idle } := by
  simp [exec, execAccept, command_admitted (c := .wait) (by decide) ((cls_wait_iff s).mpr h)]

theorem exec_reject {s : State} (h : s.stage = .predWait) : exec .reject s = .next { s with stage := .updK } := by
  simp [exec, execReject, command_admitted (c := .wait) (by decide) ((cls_wait_iff s).mpr h)]

theorem exec_clear {s : State} (h : s.stage = .idle) : exec .clear s = .next (eraseItems s) := by
  simp [exec, execClear, command_admitted (c := .idle) (by decide) ((cls_idle_iff s).mpr h)]

/-- The micro-operations, where the items they read hold values. -/
theorem exec_seed {s : State} {x : Nat} (hx : s.x = some x) (hlt : x < s.q) :
    exec .seed s = .next { s with
      eout := some (bits2IntModQ s.ibuf s.q (qlenOf s.q))
      seed := some (i2os x (rolenOf s.q) ++ i2os (bits2IntModQ s.ibuf s.q (qlenOf s.q)) (rolenOf s.q))
      stage := .init } := by
  have hl := bits2IntModQ_lt s.ibuf s.q (by omega)
  simp [exec, execSeed, hx, int2octets_of_lt (lt_trans hl (lt_two_pow_rolen s.q)),
    int2octets_of_lt (lt_trans hlt (lt_two_pow_rolen s.q))]

theorem exec_init (s : State) :
    exec .init s = .next { s with v := some (initV Config.params), k := some (initK Config.params), stage := .ratchD } :=
  rfl

theorem exec_ratchD {s : State} {k v sd : Octets} (hk : s.k = some k) (hv : s.v = some v) (hs : s.seed = some sd) :
    exec .ratchD s = .next { s with k := some (Config.params.hmac k (msgSeed v 0x00#8 sd)), stage := .ratchE } := by
  simp [exec, execRatchD, ratchD, ratchKey, hk, hv, hs]

theorem exec_ratchE {s : State} {k v : Octets} (hk : s.k = some k) (hv : s.v = some v) :
    exec .ratchE s = .next { s with v := some (Config.params.hmac k v), stage := .ratchF } := by
  simp [exec, execRatchE, ratchE, stepValue, hk, hv, msgV]

theorem exec_ratchF {s : State} {k v sd : Octets} (hk : s.k = some k) (hv : s.v = some v) (hs : s.seed = some sd) :
    exec .ratchF s = .next { s with k := some (Config.params.hmac k (msgSeed v 0x01#8 sd)), stage := .ratchG } := by
  simp [exec, execRatchF, ratchF, ratchKey, hk, hv, hs]

theorem exec_ratchG {s : State} {k v : Octets} (hk : s.k = some k) (hv : s.v = some v) :
    exec .ratchG s = .next { s with v := some (Config.params.hmac k v), seed := none, x := none, stage := .tReset } := by
  simp [exec, execRatchG, ratchG, stepValue, hk, hv, msgV]

theorem exec_tReset (s : State) : exec .tReset s = .next { s with t := some [], stage := .tBlock } := rfl

theorem exec_tBlock_more {s : State} {o k v : Octets} (ho : s.t = some o) (hk : s.k = some k) (hv : s.v = some v)
    (hlt : o.length < thresholdOf s.q) :
    exec .tBlock s = .next { s with
      v := some (Config.params.hmac k v), t := some (o ++ Config.params.hmac k v), stage := .tBlock } := by
  simp [exec, execTBlock, tBlock, ho, hk, hv, hlt, msgV]

theorem exec_tBlock_done {s : State} {o : Octets} (ho : s.t = some o) (hge : thresholdOf s.q ≤ o.length) :
    exec .tBlock s = .next { s with stage := .formK } := by
  simp [exec, execTBlock, tBlock, ho, Nat.not_lt.mpr hge]

theorem exec_formK {s : State} {o : Octets} (ho : s.t = some o) :
    exec .formK s = .next { s with kout := some (bits2int o (qlenOf s.q)), stage := .range } := by
  simp [exec, execFormK, ho]

theorem exec_range {s : State} {k : Nat} (hk : s.kout = some k) :
    exec .range s = .next { s with stage := if 1 ≤ k ∧ k < s.q then .predWait else .updK } := by
  simp [exec, execRange, hk]

theorem exec_predWait (s : State) : exec .predWait s = .next s := rfl

theorem exec_updK {s : State} {k v : Octets} (hk : s.k = some k) (hv : s.v = some v) :
    exec .updK s = .next { s with k := some (Config.params.hmac k (msgRetry v)), stage := .updV } := by
  simp [exec, execUpdK, updK, hk, hv]

theorem exec_updV {s : State} {k v : Octets} (hk : s.k = some k) (hv : s.v = some v) :
    exec .updV s = .next { s with v := some (Config.params.hmac k v), stage := .tReset } := by
  simp [exec, execUpdV, updV, stepValue, hk, hv, msgV]

/-- Of the eight commands: outside its class a command is PROTOCOL, in FAULT it changes nothing. -/
theorem exec_idle_command_refused {i : Instr} {s : State}
    (hi : i ∈ [Instr.bits2int, .int2octets, .bits2intmodq, .bits2octets, .generate, .clear])
    (hf : s.stage ≠ .fault) (hs : s.stage ≠ .idle) : exec i s = .next (faultEntry .protocol s) := by
  have a : s.cls ≠ .fault := fun h => hf ((cls_fault_iff s).mp h)
  have b : s.cls ≠ .idle := fun h => hs ((cls_idle_iff s).mp h)
  simp only [List.mem_cons, List.not_mem_nil, or_false] at hi
  rcases hi with rfl | rfl | rfl | rfl | rfl | rfl <;>
    simp [exec, execBits2int, execInt2octets, execBits2intmodq, execBits2octets, execGenerate, execClear, command, a, b]

theorem exec_answer_refused {i : Instr} {s : State} (hi : i ∈ [Instr.accept, .reject])
    (hf : s.stage ≠ .fault) (hs : s.stage ≠ .predWait) : exec i s = .next (faultEntry .protocol s) := by
  have a : s.cls ≠ .fault := fun h => hf ((cls_fault_iff s).mp h)
  have b : s.cls ≠ .wait := fun h => hs ((cls_wait_iff s).mp h)
  simp only [List.mem_cons, List.not_mem_nil, or_false] at hi
  rcases hi with rfl | rfl <;> simp [exec, execAccept, execReject, command, a, b]

theorem exec_command_ignored {i : Instr} {s : State}
    (hi : i ∈ [Instr.bits2int, .int2octets, .bits2intmodq, .bits2octets, .generate, .clear, .accept, .reject])
    (hf : s.stage = .fault) : exec i s = .next s := by
  have a : s.cls = .fault := (cls_fault_iff s).mpr hf
  simp only [List.mem_cons, List.not_mem_nil, or_false] at hi
  rcases hi with rfl | rfl | rfl | rfl | rfl | rfl | rfl | rfl <;>
    simp [exec, execBits2int, execInt2octets, execBits2intmodq, execBits2octets, execGenerate, execClear, execAccept,
      execReject, command, a]

end Sys2Proof.Machine
end

