-- ==== Sys2Proof/Laws/PerInstr.lean ====
section
/-! SUPPORT. What holds of every instruction as syntax, one lemma per constructor: the family `Encoding`. -/

namespace Sys2Proof.Laws.Encoding

/-- The code of the instruction decodes to it, at the place it stands; a micro-operation's code is the code of the stage it
belongs to, and a command belongs to no stage (R71, R73, R32). -/
def Statement (i : Instr) : Prop :=
  decode (encode i) = .ok i ∧
  match encode i with
  | .cmd8 c => Machine.stageOf i = none ∧ decodeTableWord 8 c.toNat = some i
  | .stage4 c => (∃ g, Machine.stageOf i = some g ∧ Machine.Stage.code g = c) ∧ decodeTableWord 4 c.toNat = some i

theorem bits2int : Statement .bits2int := ⟨rfl, rfl, rfl⟩

theorem int2octets : Statement .int2octets := ⟨rfl, rfl, rfl⟩

theorem bits2intmodq : Statement .bits2intmodq := ⟨rfl, rfl, rfl⟩

theorem bits2octets : Statement .bits2octets := ⟨rfl, rfl, rfl⟩

theorem generate : Statement .generate := ⟨rfl, rfl, rfl⟩

theorem accept : Statement .accept := ⟨rfl, rfl, rfl⟩

theorem reject : Statement .reject := ⟨rfl, rfl, rfl⟩

theorem clear : Statement .clear := ⟨rfl, rfl, rfl⟩

theorem seed : Statement .seed := ⟨rfl, ⟨_, rfl, rfl⟩, rfl⟩

theorem init : Statement .init := ⟨rfl, ⟨_, rfl, rfl⟩, rfl⟩

theorem ratchD : Statement .ratchD := ⟨rfl, ⟨_, rfl, rfl⟩, rfl⟩

theorem ratchE : Statement .ratchE := ⟨rfl, ⟨_, rfl, rfl⟩, rfl⟩

theorem ratchF : Statement .ratchF := ⟨rfl, ⟨_, rfl, rfl⟩, rfl⟩

theorem ratchG : Statement .ratchG := ⟨rfl, ⟨_, rfl, rfl⟩, rfl⟩

theorem tReset : Statement .tReset := ⟨rfl, ⟨_, rfl, rfl⟩, rfl⟩

theorem tBlock : Statement .tBlock := ⟨rfl, ⟨_, rfl, rfl⟩, rfl⟩

theorem formK : Statement .formK := ⟨rfl, ⟨_, rfl, rfl⟩, rfl⟩

theorem range : Statement .range := ⟨rfl, ⟨_, rfl, rfl⟩, rfl⟩

theorem predWait : Statement .predWait := ⟨rfl, ⟨_, rfl, rfl⟩, rfl⟩

theorem updK : Statement .updK := ⟨rfl, ⟨_, rfl, rfl⟩, rfl⟩

theorem updV : Statement .updV := ⟨rfl, ⟨_, rfl, rfl⟩, rfl⟩

end Sys2Proof.Laws.Encoding
end

