-- ==== Sys2Proof/Laws/Run.lean ====
section
/-! SUPPORT. Runs of several steps, one step at a time; a frame from its items; what fault entry and erasure leave. -/

namespace Sys2Proof.Machine

theorem run_succ {s t : State} (n : Nat) (h : step s = .next t) : core.run (n + 1) s = core.run n t := by
  have h' : core.step s = .next t := h
  simp only [Host.Core.run, h']

theorem run_one {s t : State} (h : step s = .next t) : core.run 1 s = .next t := run_succ 0 h

/-- A run goes on from where its first part ends. -/
theorem run_add {a : Nat} {s t : State} (b : Nat) (h : core.run a s = .next t) : core.run (a + b) s = core.run b t := by
  induction a generalizing s with
  | zero => cases h; simp
  | succ a ih =>
    simp only [Host.Core.run] at h
    split at h
    · next u hu => rw [Nat.add_right_comm, run_succ (s := s) _ hu]; exact ih h
    · cases h
    · cases h

/-- What a run shows the predicate agent is what its parts show, one after the other. -/
theorem shown_add {a : Nat} {s t : State} (b : Nat) (h : core.run a s = .next t) :
    shown (a + b) s = shown a s ++ shown b t := by
  induction a generalizing s with
  | zero => cases h; simp [shown]
  | succ a ih =>
    simp only [Host.Core.run] at h
    split at h
    · next u hu =>
      have hu' : step s = .next u := hu
      rw [Nat.add_right_comm]
      simp only [shown, hu', ih h, List.append_assoc]
    · cases h
    · cases h

/-- A step that does not enter PRED_WAIT shows nothing. -/
theorem shown_one_of_ne {s t : State} (h : step s = .next t) (ht : t.stage ≠ .predWait) : shown 1 s = [] := by
  simp [shown, h, ht]

/-- The buffer clause of a frame follows from its items. -/
theorem frame_of_items {w : List Item} {s t : State} (h : ∀ i, i ∉ w → SameItem i s t) (hs : t.script = s.script)
    (hr : t.reply = s.reply) : Frame w s t := by
  refine ⟨h, fun b off hb => ?_, hs, hr⟩
  have := h _ hb
  cases b <;> simp_all [State.octetAt, State.buffer, bufferItem, SameItem]

theorem status_faulted (c : Cause) (s : State) : (faultEntry c s).status.toNat = 16 * c.code + 8 := by
  cases c <;> rfl

theorem faulted_faultEntry (c : Cause) (s : State) : Faulted c (faultEntry c s) :=
  ⟨by simp [DataErased], rfl, rfl, status_faulted c s⟩

theorem resetItems_eraseItems (s : State) : ResetItems (eraseItems s) := ⟨by simp [DataErased], rfl, rfl, rfl⟩

/-- An erased state in IDLE or FAULT meets the invariant, whatever the parameters. -/
theorem inv_of_erased {P : Params} {s : State} (h : DataErased s)
    (hst : s.stage = .idle ∧ s.cause = .none ∨ s.stage = .fault ∧ s.cause ≠ .none) : InvOf P s := by
  have h' := h
  obtain ⟨h1, h2, h3, h4, h5, h6, h7, h8, h9, h10, h11, h12, h13⟩ := h
  refine ⟨by simp [IntegersFit, h1, h2, h4, h5, h7, h8], wf_erased h3 h6 h10 h11 h12 h13, ?_⟩
  rcases hst with ⟨a, b⟩ | ⟨a, b⟩
  · simp [StageFacts, a, b, Quiet, h7, h8, h9, h10, h11, h12, h13]
  · simp only [StageFacts, a]; exact ⟨b, h'⟩

end Sys2Proof.Machine
end

