-- ==== Sys2Proof/Laws/Signing.lean ====
section
/-! SUPPORT. What a step of the assembled system can do, said once; runs of several steps; what the predicates accept. -/

namespace Sys2Proof.Machine

/-- With no transaction to come the host program moves and the engine's items stay. -/
theorem signStep_move (C : Collaborators) (c : Call) {s : State} (p : Phase) (h : s.script = []) :
    signStep C c ⟨s, p⟩ = .next ⟨{ s with script := (hostTurn C c s.reply p).2 }, (hostTurn C c s.reply p).1⟩ := by
  simp only [signStep, h]

/-- With a transaction to come the engine takes its own step and the program waits. -/
theorem signStep_engine (C : Collaborators) (c : Call) {s t : State} (p : Phase) (h : s.script ≠ [])
    (hs : step s = .next t) : signStep C c ⟨s, p⟩ = .next ⟨t, p⟩ := by
  unfold signStep
  split
  · next h' => exact absurd h' h
  · simp only [hs]

/-- Everything a step of the assembled system can do: the program's move, or the engine's step. -/
theorem signStep_cases {C : Collaborators} {c : Call} {g g' : SignState} (h : signStep C c g = .next g') :
    (g.engine.script = [] ∧ g'.phase = (hostTurn C c g.engine.reply g.phase).1
        ∧ g'.engine = { g.engine with script := (hostTurn C c g.engine.reply g.phase).2 })
      ∨ (g.engine.script ≠ [] ∧ g'.phase = g.phase ∧ step g.engine = .next g'.engine) := by
  unfold signStep at h
  split at h
  · next hs => cases h; exact .inl ⟨hs, rfl, rfl⟩
  · next hs =>
    split at h
    · next t ht => cases h; exact .inr ⟨by simp [hs], rfl, ht⟩
    · cases h
    · cases h

theorem signRun_succ {C : Collaborators} {c : Call} {g g' : SignState} (n : Nat) (h : signStep C c g = .next g') :
    signRun C c (n + 1) g = signRun C c n g' := by simp only [signRun, h]

theorem signRun_one {C : Collaborators} {c : Call} {g g' : SignState} (h : signStep C c g = .next g') :
    signRun C c 1 g = .next g' := signRun_succ 0 h

/-- A run goes on from where its first part ends. -/
theorem signRun_add {C : Collaborators} {c : Call} {a : Nat} {g g' : SignState} (b : Nat)
    (h : signRun C c a g = .next g') : signRun C c (a + b) g = signRun C c b g' := by
  induction a generalizing g with
  | zero => cases h; simp
  | succ a ih =>
    simp only [signRun] at h
    split at h
    · next u hu => rw [Nat.add_right_comm, signRun_succ _ hu]; exact ih h
    · cases h
    · cases h

/-- What the common half of the predicates accepts. -/
theorem signWith_some {C : Collaborators} {n d inv r e r' s : Nat} (h : signWith C n d inv r e = some (r', s)) :
    r' = r ∧ r ≠ 0 ∧ s ≠ 0 ∧ s = C.modMul inv (C.modAdd e (C.modMul d r n) n) n := by
  unfold signWith at h
  split at h
  · cases h
  · next hr =>
    simp only at h
    split at h
    · cases h
    · next hs => cases h; exact ⟨rfl, hr, hs, rfl⟩

/-- A predicate never accepts with a zero (R164). -/
theorem verdictOf_some {C : Collaborators} {c : Call} {k e r s : Nat} (h : verdictOf C c k e = some (r, s)) :
    r ≠ 0 ∧ s ≠ 0 := by
  unfold verdictOf predEcdsa predDsa at h
  split at h <;> (obtain ⟨rfl, a, b, -⟩ := signWith_some h; exact ⟨a, b⟩)

/-- The program comes to keep a pair only on the predicate's verdict on the candidate and the integer it has read. -/
theorem hostTurn_returning {C : Collaborators} {c : Call} {reply : Option Value} {p : Phase} {r s : Nat}
    (h : (hostTurn C c reply p).1 = .returning r s) :
    ∃ k e, p = .digestInt k ∧ reply = some (.nat e) ∧ verdictOf C c k e = some (r, s) := by
  cases p <;> simp only [hostTurn] at h <;> (repeat' split at h) <;> try (cases h; done)
  next k _ e _ _ _ hv => cases h; exact ⟨k, e, rfl, rfl, hv⟩

/-- The program returns the pair it kept, and no other. -/
theorem hostTurn_signature {C : Collaborators} {c : Call} {reply : Option Value} {p : Phase} {r s : Nat}
    (h : (hostTurn C c reply p).1 = .done (.signature r s)) : p = .returning r s ∨ p = .done (.signature r s) := by
  cases p <;> simp only [hostTurn, failureOf] at h <;> (repeat' split at h) <;> cases h
  · exact .inl rfl
  · exact .inr rfl

end Sys2Proof.Machine
end

