-- ==== Sys2Proof/Machine/Hmac.lean ====
section
/-! DEFINITION. The standard HMAC construction over a hash function (42_predicate_and_host R167), for a model that wants a
concrete unit. The machine does not use it: its unit is `Config.params.hmac` (log 19). -/

namespace Sys2Proof.Machine

/-- `key'` of R167: the key padded on the right with zero octets to the block size, a longer key hashed first. -/
def hmacKey (hash : Octets → Octets) (block : Nat) (key : Octets) : Octets :=
  let short := if key.length > block then hash key else key
  short ++ rep 0x00#8 (block - short.length)

/-- `H((key' xor rep(0x5C, B)) ‖ H((key' xor rep(0x36, B)) ‖ msg))` (R167). -/
def hmacStd (hash : Octets → Octets) (block : Nat) (key msg : Octets) : Octets :=
  let padded := hmacKey hash block key
  hash (padded.map (· ^^^ 0x5C#8) ++ hash (padded.map (· ^^^ 0x36#8) ++ msg))

/-- The parameters of R6 with that construction as the unit: `HLEN = L`, the octets of the result by number. -/
def hmacParams (P : Params) (hash : Octets → Octets) (block outputLen : Nat) : Params :=
  { P with
    hlenPred := outputLen - 1
    mac := fun key msg i => (hmacStd hash block key msg).getD i 0x00#8 }

end Sys2Proof.Machine
end

