-- ==== Sys2Proof/Tests/Slice0.lean ====
section
/-! SUPPORT. Tests: ill-formed transactions refused, every code decoded from a word written out bit by bit, the vectors of
95_test_vectors §3 to §6 one step at a time (with the spec's toy MAC), and a witness for every obligation with hypotheses. -/

namespace Sys2Proof.Tests

open Sys2Proof.Machine

/-! ### Well-formedness: an ill-formed term for each check -/

/-- 30_encoding R77: a CMD value is 8 bits wide; 255 is the last, 256 is no transaction. -/
theorem test_wf_cmd_width : eventWf (.write 0 (.nat 255)) = true ∧ eventWf (.write 0 (.nat 256)) = false := by decide

/-- R77: octets are no CMD or STATUS value; a STATUS value is 8 bits wide. -/
theorem test_wf_cmd_kind : eventWf (.write 0 (.octets [0x10#8])) = false ∧ eventWf (.write 1 (.octets [])) = false ∧
    eventWf (.write 1 (.nat 256)) = false := by decide

/-- R77: an octet string is no value of an integer register. -/
theorem test_wf_integer_kind : ∀ n ∈ [2, 3, 5, 6, 8, 9, 10, 11, 12], eventWf (.write n (.octets [])) = false := by decide

/-- R77: a natural is no value of IBUF or OBUF. -/
theorem test_wf_octets_kind : eventWf (.write 4 (.nat 0)) = false ∧ eventWf (.write 7 (.nat 0)) = false := by decide

/-- One ill-formed event makes a script ill-formed. -/
theorem test_wf_script : scriptWf [.read 1, .write 4 (.nat 0), .reset] = false ∧ scriptWf [.read 1, .engine] = true := by
  decide

/-- What is no transaction has no meaning: refused by name (log 8). -/
theorem test_malformed_refused :
    step { State.reset with script := [.write 4 (.nat 0)] } = .refused .malformedTransaction := rfl

/-! ### Decoding: words written out from R71 and R73 -/

theorem test_decode_codec : decodeCmd8 0b00000001#8 = .ok .bits2int ∧ decodeCmd8 0b00000010#8 = .ok .int2octets ∧
    decodeCmd8 0b00000011#8 = .ok .bits2intmodq ∧ decodeCmd8 0b00000100#8 = .ok .bits2octets := by decide

theorem test_decode_port : decodeCmd8 0b00010000#8 = .ok .generate ∧ decodeCmd8 0b00010001#8 = .ok .accept ∧
    decodeCmd8 0b00010010#8 = .ok .reject ∧ decodeCmd8 0b00011111#8 = .ok .clear := by decide

theorem test_decode_ratchet : decodeStage4 0b0001#4 = .ok .seed ∧ decodeStage4 0b0010#4 = .ok .init ∧
    decodeStage4 0b0011#4 = .ok .ratchD ∧ decodeStage4 0b0100#4 = .ok .ratchE ∧ decodeStage4 0b0101#4 = .ok .ratchF ∧
    decodeStage4 0b0110#4 = .ok .ratchG := by decide

theorem test_decode_loop : decodeStage4 0b0111#4 = .ok .tReset ∧ decodeStage4 0b1000#4 = .ok .tBlock ∧
    decodeStage4 0b1001#4 = .ok .formK ∧ decodeStage4 0b1010#4 = .ok .range ∧ decodeStage4 0b1011#4 = .ok .predWait ∧
    decodeStage4 0b1100#4 = .ok .updK ∧ decodeStage4 0b1101#4 = .ok .updV := by decide

/-- R72: 248 of the 256 opcodes are illegal. -/
theorem test_decode_illegal_count :
    ((List.range 256).filter (fun n => (instrOf (decodeCmd8 (BitVec.ofNat 8 n))).isNone)).length = 248 := by
  decide +kernel

/-- R32, R73: stage codes 0, 14 and 15 name no micro-operation. -/
theorem test_decode_no_microop : decodeStage4 0#4 = .error (.noMicroOperation 0#4) ∧
    decodeStage4 14#4 = .error .reservedStage ∧ decodeStage4 15#4 = .error (.noMicroOperation 15#4) := by decide

/-- The rows of spec/opcode_table.json by their bits: a STAGE4 row's four bits, a CMD8 row's eight. -/
theorem test_decode_table_words : decodeTableWord 4 0b0001 = some .seed ∧ decodeTableWord 4 0b1101 = some .updV ∧
    decodeTableWord 8 0b00000001 = some .bits2int ∧ decodeTableWord 8 0b00011111 = some .clear ∧
    decodeTableWord 8 0b00001000 = some .tBlock ∧ decodeTableWord 8 0b00000101 = some .ratchF ∧
    decodeTableWord 4 14 = none ∧ decodeTableWord 8 0x20 = none := by decide

/-- A placed command and a placed micro-operation run as the first instruction after reset (log 9). -/
theorem test_fetch_word_command : step (State.reset.withFetchWord 8 0x01) = exec .bits2int State.reset := rfl

theorem test_fetch_word_microop :
    step (State.reset.withFetchWord 4 8) = .next { State.reset.withFetchWord 4 8 with stage := .formK, script := [] } := rfl

/-! ### Codec: the vectors of 95_test_vectors §3 -/

/-- 95 §3.1. -/
theorem test_bits2int : bits2int [0xFF#8] 4 = 0xF ∧ bits2int [0xAB#8, 0xCD#8] 12 = 0xABC ∧
    bits2int [0xAB#8, 0xCD#8] 20 = 0xABCD ∧ bits2int [] 163 = 0 ∧ bits2int [0x00#8, 0xFF#8] 9 = 1 ∧
    bits2int [0x00#8, 0x01#8] 8 = 0 ∧ bits2int [0xFF#8, 0xFF#8] 0 = 0 := by decide

/-- 95 §3.2. -/
theorem test_int2octets : int2octets 0x1234 4 = some [0x00#8, 0x00#8, 0x12#8, 0x34#8] ∧
    int2octets 0xFFFF 2 = some [0xFF#8, 0xFF#8] ∧ int2octets 0x10000 2 = none ∧ int2octets 0 0 = some [] ∧
    int2octets 1 0 = none := by decide

/-- 95 §3.3. -/
theorem test_bits2octets : bits2octets [0x9C#8, 0x40#8] 0x83 8 1 = some [0x19#8] ∧
    bits2octets [0x83#8] 0x83 8 1 = some [0x00#8] ∧ bits2octets [0xFF#8, 0xFF#8] 0xC001 16 2 = some [0x3F#8, 0xFE#8] ∧
    bits2octets [0xBF#8] 0xC001 16 2 = some [0x00#8, 0xBF#8] ∧
    bits2octets [0xFF#8, 0xD0#8] 0x0FFD 12 2 = some [0x00#8, 0x00#8] := by decide

/-- The item a settled outcome leaves, for tests. -/
def after {α : Type} (f : State → α) : Out → Option α
  | .next s => some (f s)
  | .fault _ => none
  | .refused _ => none

/-- The octet STATUS reads after an outcome. -/
def statusAfter : Out → Option Nat := after (fun s => s.status.toNat)

/-- 95 §3.4, its lines in order. -/
def codecState : State := { State.reset with q := 0x83, ibuf := [0x9C#8, 0x40#8] }

theorem test_bits2int_command : after State.rint (exec .bits2int codecState) = some 0x9C ∧
    after State.rint (exec .bits2int { State.reset with ibuf := [0xFF#8] }) = some 0 := by decide

theorem test_bits2intmodq_command : after State.rint (exec .bits2intmodq codecState) = some 0x19 ∧
    after State.rint (exec .bits2intmodq { State.reset with q := 5, ibuf := [0xFF#8] }) = some 2 ∧
    statusAfter (exec .bits2intmodq { State.reset with ibuf := [0xFF#8] }) = some 0x38 := by decide

theorem test_bits2octets_command : after State.obuf (exec .bits2octets codecState) = some [0x19#8] ∧
    statusAfter (exec .bits2octets State.reset) = some 0x38 := by decide

theorem test_int2octets_command :
    after State.obuf (exec .int2octets { State.reset with q := 0xC001, aint := 0x12 }) = some [0x00#8, 0x12#8] ∧
    statusAfter (exec .int2octets { State.reset with q := 0xC001, aint := 0x10000 }) = some 0x58 ∧
    after State.obuf (exec .int2octets State.reset) = some [] ∧
    statusAfter (exec .int2octets { State.reset with aint := 1 }) = some 0x58 := by decide

/-! ### The generator: traces T1 to T3 with the toy MAC of 95 §2, one micro-operation at a time -/

/-- The weighted sum of TOYMAC. -/
def weigh : Nat → Octets → Nat
  | _, [] => 0
  | j, b :: bs => j * b.toNat + weigh (j + 1) bs

/-- TOYMAC (95 §2), with HLEN = 1; DLEN_MAX = 64 as in F24, QBITS_MAX = 16. -/
def toy : Params where
  hlenPred := 0
  mac := fun key msg _ => BitVec.ofNat 8 (7 + 31 * (key.headD 0#8).toNat + msg.length + weigh 1 msg)
  qbitsSlack := some 8
  dlenMax := some 64
  ninstPred := 0

/-- 95 §2, the two examples. -/
theorem test_toymac : toy.hmac [0x00#8] [0x01#8, 0x00#8, 0x05#8, 0x19#8] = [0x7F#8] ∧
    toy.hmac [0x7F#8] [0x01#8] = [0x6A#8] := by decide

/-- T1's operands. -/
def t1 : State := { State.reset with q := 0xC001, x := some 0x1234, ibuf := [0xA1#8, 0xB2#8, 0xC3#8] }

/-- T1 with K, V and SEED. -/
def t1kv (k v : Octet) : State :=
  { t1 with k := some [k], v := some [v], seed := some [0x12#8, 0x34#8, 0xA1#8, 0xB2#8] }

/-- F9 to F14, and T3's start. -/
theorem test_generate : statusAfter (exec .generate State.reset) = some 0x38 ∧
    statusAfter (exec .generate { State.reset with q := 0x7F, x := some 0x90 }) = some 0x38 ∧
    statusAfter (exec .generate { State.reset with q := 0x83 }) = some 0x48 ∧
    statusAfter (exec .generate { State.reset with q := 0x83, x := some 0 }) = some 0x48 ∧
    statusAfter (exec .generate { State.reset with q := 0x83, x := some 0x83 }) = some 0x48 ∧
    statusAfter (exec .generate { State.reset with q := 0x83, x := some 5 }) = some 0x01 := by decide

theorem test_seed : after (fun s => (s.eout, s.seed)) (exec .seed t1)
    = some (some 0xA1B2, some [0x12#8, 0x34#8, 0xA1#8, 0xB2#8]) := by decide

theorem test_init : after (fun s => (s.v, s.k, s.stage)) (initOp toy t1)
    = some (some [0x01#8], some [0x00#8], .ratchD) := by decide

theorem test_ratchD : after State.k (ratchD toy (t1kv 0x00#8 0x01#8)) = some (some [0x65#8]) := by decide

theorem test_ratchE : after State.v (ratchE toy (t1kv 0x65#8 0x01#8)) = some (some [0x44#8]) := by decide

theorem test_ratchF : after State.k (ratchF toy (t1kv 0x65#8 0x44#8)) = some (some [0xE5#8]) := by decide

theorem test_ratchG : after (fun s => (s.v, s.seed, s.x)) (ratchG toy (t1kv 0xE5#8 0x44#8))
    = some (some [0x07#8], none, none) := by decide

theorem test_tReset : after (fun s => (s.t, s.stage)) (exec .tReset { t1 with t := some [0xCA#8] })
    = some (some [], .tBlock) := by decide

theorem test_tBlock : after (fun s => (s.v, s.t, s.stage)) (tBlock toy { t1kv 0xE5#8 0xCA#8 with t := some [0xCA#8] })
    = some (some [0x8D#8], some [0xCA#8, 0x8D#8], .tBlock) := by decide

/-- T2, the floor quirk: one octet is enough for qlen = 12; and T1's last test with two octets. -/
theorem test_tBlock_floor : after State.stage (tBlock toy { State.reset with q := 0x0FFD, t := some [0xDB#8] })
    = some .formK ∧ after State.stage (tBlock toy { t1 with t := some [0xCA#8, 0x8D#8] }) = some .formK := by decide

theorem test_formK : after State.kout (exec .formK { t1 with t := some [0x3B#8, 0x12#8] }) = some (some 0x3B12) ∧
    after State.kout (exec .formK { State.reset with q := 0x0FFD, t := some [0xDB#8] }) = some (some 0xDB) := by decide

theorem test_range : after State.stage (exec .range { t1 with kout := some 0xCA8D }) = some .updK ∧
    after State.stage (exec .range { t1 with kout := some 0x3B12 }) = some .predWait ∧
    after State.stage (exec .range { t1 with kout := some 0xC001 }) = some .updK ∧
    after State.stage (exec .range { t1 with kout := some 0xC000 }) = some .predWait ∧
    after State.stage (exec .range { t1 with kout := some 0 }) = some .updK := by decide

theorem test_predWait : exec .predWait { t1 with stage := .predWait } = .next { t1 with stage := .predWait } := rfl

theorem test_updK : after State.k (updK toy (t1kv 0xE5#8 0x8D#8)) = some (some [0x51#8]) := by decide

theorem test_updV : after (fun s => (s.v, s.stage)) (updV toy (t1kv 0x51#8 0x8D#8)) = some (some [0x64#8], .tReset) := by
  decide

/-- 41_generator R125 on T3, T2 and T1 (accepted at once, and with one rejection). -/
theorem test_generateSecret_t3 : generateSecret toy 3 0x83 5 [0x9C#8, 0x40#8] [true]
    = some (.accepted 0x12 0x19 []) := by decide +kernel

theorem test_generateSecret_t2 : generateSecret toy 1 0x0FFD 0x0ABC [0xFF#8] [true]
    = some (.accepted 0xDB 0xFF []) := by decide +kernel

theorem test_generateSecret_t1 : generateSecret toy 6 0xC001 0x1234 [0xA1#8, 0xB2#8, 0xC3#8] [false, true]
    = some (.accepted 0xA8D0 0xA1B2 [0x3B12]) := by decide +kernel

/-! ### The predicate port, faults and the access table: 95 §5 -/

/-- A candidate offered: T3's last. -/
def offeredT3 : State :=
  { State.reset with
    q := 0x83
    ibuf := [0x9C#8, 0x40#8]
    kout := some 0x12
    eout := some 0x19
    stage := .predWait
    k := some [0x00#8]
    v := some [0x12#8]
    t := some [0x12#8] }

/-- P2, F3, F19: ACCEPT. -/
theorem test_accept : statusAfter (exec .accept offeredT3) = some 0x04 ∧
    after (fun s => (s.kout, s.k, s.v, s.t)) (exec .accept offeredT3) = some (some 0x12, none, none, none) ∧
    statusAfter (exec .accept State.reset) = some 0x28 := by decide

/-- F4: REJECT in IDLE; R152. -/
theorem test_reject : after State.stage (exec .reject offeredT3) = some .updK ∧
    statusAfter (exec .reject State.reset) = some 0x28 := by decide

/-- P2, F17: CLEAR. -/
theorem test_clear : exec .clear codecState = .next State.reset ∧ statusAfter (exec .clear offeredT3) = some 0x28 :=
  ⟨rfl, by decide⟩

/-- The STATUS octet after one transaction from `s`. -/
def statusOf (s : State) (e : Event) : Option Nat := statusAfter (step { s with script := [e] })

/-- F1, F2, F22: undefined opcodes, also while a generation runs. -/
theorem test_illegal_cmd : (∀ c ∈ [0x00, 0x05, 0x13, 0xFF], statusOf State.reset (.write 0 (.nat c)) = some 0x18) ∧
    statusOf { State.reset with stage := .ratchE } (.write 0 (.nat 0x77)) = some 0x18 := by decide

/-- F5 to F8. -/
theorem test_forbidden_access : statusOf State.reset (.read 3) = some 0x28 ∧ statusOf State.reset (.read 8) = some 0x28 ∧
    statusOf State.reset (.write 6 (.nat 1)) = some 0x28 ∧ statusOf State.reset (.read 13) = some 0x28 := by decide

/-- F15, F16: an operand written, a GENERATE issued, while the generation runs or waits. -/
theorem test_locked : statusOf { State.reset with stage := .ratchE } (.write 2 (.nat 0x85)) = some 0x28 ∧
    statusOf offeredT3 (.write 0 (.nat 0x10)) = some 0x28 := by decide

/-- F20: in FAULT a write is ignored, Q reads 0, CLEAR is ignored; F21: reset leaves it. -/
theorem test_fault_class : step { faultEntry .illegalCmd State.reset with script := [.write 2 (.nat 0x83)] }
      = .next (faultEntry .illegalCmd State.reset) ∧
    after State.reply (step { faultEntry .illegalCmd State.reset with script := [.read 2] }) = some (some (.nat 0)) ∧
    statusOf (faultEntry .illegalCmd State.reset) (.write 0 (.nat 0x1F)) = some 0x18 ∧
    step { faultEntry .illegalCmd State.reset with script := [.reset] } = .next State.reset := by
  refine ⟨rfl, rfl, rfl, rfl⟩

/-- F24: with DLEN_MAX = 64 a string of 65 octets is OPERAND_SIZE, one of 64 is stored. -/
theorem test_operand_size :
    storeOperand toy .ibuf (.octets (rep 0#8 65)) State.reset = faultEntry .operandSize State.reset ∧
    (storeOperand toy .ibuf (.octets (rep 0#8 64)) State.reset).ibuf.length = 64 := by decide

/-- R31: STATUS octets of the classes. -/
theorem test_status : State.reset.status = 0x00#8 ∧ offeredT3.status = 0x03#8 ∧
    ({ State.reset with stage := .updV } : State).status = 0x01#8 ∧ (faultEntry .operandSize t1).status = 0x68#8 := by decide

/-- 30_encoding R79: the pseudo-instructions are lists of transactions (P2, P3). -/
theorem test_pseudo : genSecret 0x83 5 [0x9C#8, 0x40#8] = [.write 2 (.nat 0x83), .write 3 (.nat 5),
      .write 4 (.octets [0x9C#8, 0x40#8]), .write 0 (.nat 0x10)] ∧
    rejectN 1 ++ acceptFirst = answers [false, true] ∧ cmd .updK = [] := by decide

/-! ### Host software and the standard HMAC construction -/

/-- Collaborators with the exact modular operations; the inverse, the x-coordinate and the power are 2, `x` and `x`. -/
def exact (x : Nat) : Collaborators where
  modInv _ _ := 2
  modRed a n := a % n
  modMul a b n := a * b % n
  modAdd a b n := (a + b) % n
  xcoord _ := x
  modExp _ _ _ := x

/-- R155 with N = 7: a signature, and the two rejections r = 0 and s = 0 (by hand). -/
theorem test_predEcdsa : predEcdsa (exact 10) 7 4 5 1 = some (3, 5) ∧ predEcdsa (exact 14) 7 4 5 1 = none ∧
    predEcdsa (exact 10) 7 4 5 2 = none := by decide

/-- R156 with Q = 7: the same, from the power. -/
theorem test_predDsa : predDsa (exact 10) 23 7 2 4 5 1 = some (3, 5) ∧ predDsa (exact 14) 23 7 2 4 5 1 = none := by decide

/-- R157: the transactions of SignECDSA, move by move (70_reset_and_hazards R213). -/
theorem test_signEcdsa_moves :
    hostTurn (exact 10) ⟨.ecdsa, 7, 4, []⟩ none .called = (.started, [.write 2 (.nat 7), .write 3 (.nat 4),
      .write 4 (.octets []), .write 0 (.nat 0x10), .read 1]) ∧
    hostTurn (exact 10) ⟨.ecdsa, 7, 4, []⟩ (some (.nat 1)) .started = (.candidate, [.await .predReq, .read 8]) ∧
    hostTurn (exact 10) ⟨.ecdsa, 7, 4, []⟩ (some (.nat 5)) .candidate = (.digestInt 5, [.read 9]) ∧
    hostTurn (exact 10) ⟨.ecdsa, 7, 4, []⟩ (some (.nat 1)) (.digestInt 5)
      = (.returning 3 5, [.write 0 (.nat 0x11), .write 0 (.nat 0x1F)]) ∧
    hostTurn (exact 14) ⟨.ecdsa, 7, 4, []⟩ (some (.nat 1)) (.digestInt 5)
      = (.candidate, [.write 0 (.nat 0x12), .await .predReq, .read 8]) := by decide

/-- R191, R192, C6: 7 has three bits; a scalar at the order aborts, a scalar 0 passes the check; STATUS 0x48 is X_RANGE. -/
theorem test_sign_errors :
    (hostTurn (exact 10) ⟨.dsa 23 2, 7, 4, []⟩ none .called).1 = .done (.returned .invalidDomainParameters) ∧
    (hostTurn (exact 10) ⟨.ecdsa, 7, 7, []⟩ none .called).1 = .done (.aborted .invalidPrivateKey) ∧
    (hostTurn (exact 10) ⟨.ecdsa, 7, 0, []⟩ none .called).1 = .started ∧
    (hostTurn (exact 10) ⟨.ecdsa, 7, 0, []⟩ (some (.nat 0x48)) .started).1
      = .done (.engineFault (some (.nat 0x48))) := by decide

/-- R150: the answer an agent gives for a verdict. -/
theorem test_answerOf : answerOf (some (3, 5)) = [.write 0 (.nat 0x11)] ∧ answerOf none = [.write 0 (.nat 0x12)] := by decide

/-- R167 by hand, with the hash that keeps its input and a block of 2 octets; a longer key is hashed first. -/
theorem test_hmacStd : hmacStd id 2 [0x01#8] [0xAA#8] = [0x5D#8, 0x5C#8, 0x37#8, 0x36#8, 0xAA#8] ∧
    hmacKey (fun o => o.take 1) 2 [0x07#8, 0x08#8, 0x09#8] = [0x07#8, 0x00#8] ∧
    (hmacParams toy id 2 5).hmac [0x01#8] [0xAA#8] = [0x5D#8, 0x5C#8, 0x37#8, 0x36#8, 0xAA#8] := by decide

/-- 00_scope R8: a write at the append position, and a read inside a buffer, by octets. -/
theorem test_buffer_operations : memWrite [0x01#8, 0x02#8] 2 [0x03#8] = [0x01#8, 0x02#8, 0x03#8] ∧
    memWrite [0x01#8, 0x02#8, 0x03#8] 1 [0x09#8] = [0x01#8, 0x09#8, 0x03#8] ∧
    memRead [0x01#8, 0x02#8, 0x03#8] 1 2 = [0x02#8, 0x03#8] := by decide

/-- R198: a step of instance 1 of two; a number that names no instance is refused. -/
theorem test_instances :
    stepInstance 1 [codecState, { faultEntry .protocol State.reset with script := [.reset] }]
      = .next [codecState, State.reset] ∧
    stepInstance 2 [codecState, State.reset] = .refused .noInstance := ⟨rfl, rfl⟩

/-! ### Witnesses: for every obligation with hypotheses, states and operands that meet them, at the bounds -/

/-- An idle instance with an admitted order and a scalar. -/
def idle (es : List Event) : State := { State.reset with q := 0x83, x := some 5, script := es }

/-- An idle instance that holds an accepted result. -/
def finished (es : List Event) : State :=
  { State.reset with q := 0x83, kout := some 1, eout := some 0x82, rv := true, script := es }

/-- A generation just admitted. -/
def admitted (es : List Event) : State := { State.reset with q := 0x83, x := some 5, stage := .seed, script := es }

/-- A generation at a stage after RATCH_G, K and V as INIT left them. -/
def producing (g : Stage) (es : List Event) : State :=
  { State.reset with
    q := 0x83
    eout := some 0
    stage := g
    k := some (initK Config.params)
    v := some (initV Config.params)
    t := some []
    script := es }

/-- A candidate offered, the greatest in range. -/
def offered (es : List Event) : State := { producing .predWait es with kout := some 0x82 }

/-- An instance in FAULT. -/
def dead (es : List Event) : State := { faultEntry .operandSize State.reset with script := es }

theorem bitlen_small : bitlen 0x83 = 8 ∧ bitlen 0x82 = 8 ∧ bitlen 5 = 3 ∧ bitlen 1 = 1 := by decide

theorem fits_small {P : Params} {n : Nat} (h : bitlen n ≤ 8) : fitsInt P n = true := fitsInt_of_bitlen_le_eight h

theorem inv_idle (es : List Event) : Inv (idle es) :=
  ⟨by simp [IntegersFit, idle, fits_small, bitlen_small], by simp [Memory.wf, idle],
    by simp [StageFacts, idle, Quiet]⟩

theorem inv_finished (es : List Event) : Inv (finished es) :=
  ⟨by simp [IntegersFit, finished, fits_small, bitlen_small], by simp [Memory.wf, finished],
    by simp [StageFacts, finished, Quiet]⟩

theorem inv_admitted (es : List Event) : Inv (admitted es) :=
  ⟨by simp [IntegersFit, admitted, fits_small, bitlen_small], by simp [Memory.wf, admitted],
    by simp [StageFacts, admitted, Quiet, Generating, ScalarHeld, qlenOf, qlenMin, bitlen_small]⟩

theorem inv_producing (g : Stage) (hg : g = .tReset ∨ g = .tBlock ∨ g = .updK ∨ g = .updV) (es : List Event) :
    Inv (producing g es) :=
  ⟨by simp [IntegersFit, producing, fits_small, bitlen_small], by simp [Memory.wf, producing], by
    rcases hg with rfl | rfl | rfl | rfl <;>
      simp [StageFacts, producing, Producing, Generating, DigestHeld, ChainHeld, qlenOf, qlenMin, bitlen_small]⟩

theorem inv_offered (es : List Event) : Inv (offered es) :=
  ⟨by simp [IntegersFit, offered, producing, fits_small, bitlen_small], by simp [Memory.wf, offered, producing],
    by simp [StageFacts, offered, producing, Producing, Generating, DigestHeld, ChainHeld, qlenOf, qlenMin, bitlen_small]⟩

theorem inv_dead (es : List Event) : Inv (dead es) :=
  inv_of_erased (by simp [DataErased, dead]) (.inr ⟨rfl, by simp [dead]⟩)

/-- 8-bit naturals and the empty string fit every implementation. -/
theorem witness_fits : FitsQbitsMax Config.params 0xFF ∧ FitsQbitsMax Config.params 0 ∧ FitsDlenMax Config.params [] := by
  refine ⟨?_, ?_, ?_⟩ <;> intro m hm
  · have : bitlen 0xFF = 8 := by decide
    unfold Params.qbitsMax at hm
    cases h : Config.params.qbitsSlack <;> simp_all
    omega
  · simp
  · simp

theorem witness_UndefinedOpcodeIsIllegalCommand :
    (∀ c ∈ [0x00, 0x05, 0x0F, 0x13, 0x1E, 0x20, 0xFF], c < 256 ∧ c ∉ [0x01, 0x02, 0x03, 0x04, 0x10, 0x11, 0x12, 0x1F]) ∧
    (idle [.write 0 (.nat 0xFF)]).stage ≠ .fault ∧ (dead [.write 0 (.nat 0)]).stage = .fault := by decide

theorem witness_StepRunsTheDecodedInstruction :
    (idle [.write 0 (.nat (0x1F#8).toNat)]).script = [.write 0 (.nat (0x1F#8).toNat)] ∧
    decodeCmd8 0x1F#8 = .ok .clear ∧ decodeStage4 (admitted []).stage.code = .ok .seed ∧ (admitted []).script = [] ∧
    (admitted [.engine]).script = .engine :: [] ∧ (admitted [.await .predReq]).script = .await .predReq :: [] ∧
    condHolds .predReq (admitted [.await .predReq]) = false ∧ (idle []).stage = .idle ∧ (dead [.engine]).stage = .fault := by
  decide

theorem witness_ResetEventRestoresEveryItem : (finished [.reset]).script = .reset :: [] := rfl

theorem witness_ResetForgetsTheAbandonedGeneration : (admitted [.reset, .read 1]).script = .reset :: [.read 1] ∧
    (dead [.reset, .read 1]).script = .reset :: [.read 1] ∧
    (admitted [.reset, .read 1]).reply = (dead [.reset, .read 1]).reply := by decide

theorem witness_FaultIsLeftByResetOnly : (∀ es, Inv (dead es) ∧ (dead es).stage = .fault ∧ (dead es).script = es) ∧
    eventWf (.write 2 (.nat 0x83)) = true ∧ eventWf (.write 13 (.nat 0)) = true :=
  ⟨fun es => ⟨inv_dead es, rfl, rfl⟩, by decide, by decide⟩

theorem witness_CommandsOutsideTheirClassFault : (admitted []).cls = .run ∧ (offered []).cls = .wait ∧
    (idle []).cls = .idle ∧ (dead []).cls = .fault := by decide

theorem witness_EngineNeverRaisesAFault : Inv (admitted [.engine]) ∧ (admitted [.engine]).stage ≠ .fault ∧
    (∃ rest, (admitted [.engine]).script = .engine :: rest) ∧ Inv (idle []) ∧ (idle []).script = [] :=
  ⟨inv_admitted _, by decide, ⟨_, rfl⟩, inv_idle _, rfl⟩

/-- QBITS_MAX = 16 and DLEN_MAX = 64: the last value that fits and the first that does not. -/
theorem witness_OperandWriteStoresOrFaults : (idle [.write 2 (.nat 0xFFFF)]).stage = .idle ∧
    FitsQbitsMax toy 0xFFFF ∧ ¬ FitsQbitsMax toy 0x10000 ∧ FitsDlenMax toy (rep 0#8 64) ∧
    ¬ FitsDlenMax toy (rep 0#8 65) ∧ fetch Config.params (idle [.read 2]) = .settled { idle [] with reply := some (.nat 0x83) } := by
  have a : bitlen 0xFFFF = 16 := by decide
  have b : bitlen 0x10000 = 17 := by decide
  refine ⟨rfl, ?_, ?_, ?_, ?_, rfl⟩ <;> simp [FitsQbitsMax, FitsDlenMax, toy, Params.qbitsMax, a, b]

theorem witness_LockedOperandWriteFaults : (∀ n ∈ [2, 3, 5], eventWf (.write n (.nat 0)) = true) ∧
    eventWf (.write 4 (.octets [])) = true ∧ (admitted [.write 4 (.octets [])]).busy = true ∧
    (offered [.write 2 (.nat 0)]).busy = true := by decide

theorem witness_ForbiddenAccessFaults : (idle []).stage ≠ .fault ∧
    (∀ n ∈ [1, 6, 8, 12, 13], (n = 1 ∨ 6 ≤ n) ∧ eventWf (.write n (.nat 0)) = true) ∧
    eventWf (.write 7 (.octets [])) = true ∧ (idle [.read 8]).windowOpen = false ∧ (admitted [.read 9]).windowOpen = false := by
  decide

theorem witness_PermittedReadReturnsTheRegister : (∀ n, (offered [.read n]).script = .read n :: []) ∧
    (offered [.read 1]).stage ≠ .fault := ⟨fun _ => rfl, by decide⟩

theorem witness_CandidateReadInsideItsWindow : Inv (offered [.read 8]) ∧ (offered [.read 8]).windowOpen = true ∧
    (offered [.read 8]).cls = .wait ∧ Inv (finished [.read 9]) ∧ (finished [.read 9]).windowOpen = true :=
  ⟨inv_offered _, rfl, rfl, inv_finished _, rfl⟩

theorem witness_StatusShowsItsListedValues : (Inv (idle []) ∧ (idle []).cls = .idle) ∧
    (Inv (admitted []) ∧ (admitted []).cls = .run) ∧ (Inv (offered []) ∧ (offered []).cls = .wait) ∧
    Inv (dead []) ∧ (dead []).cls = .fault :=
  ⟨⟨inv_idle _, rfl⟩, ⟨inv_admitted _, rfl⟩, ⟨inv_offered _, rfl⟩, inv_dead _, rfl⟩

theorem witness_WidthViewsFollowQ : (idle [.write 2 (.nat 0xFF), .read 10, .read 11]).stage = .idle ∧
    FitsQbitsMax Config.params 0xFF := ⟨rfl, witness_fits.1⟩

theorem witness_BigEndianConversionLaws : (0xFFFF : Nat) < 256 ^ 2 ∧ 256 ^ 2 ≤ 0x10000 ∧ (0 : Nat) < 256 ^ 0 ∧ (1 : Nat) < 2 := by decide

theorem witness_CodecRelations : int2octets 0x1234 2 = some [0x12#8, 0x34#8] ∧ 8 * 2 ≤ 16 ∧ 15 < 8 * 2 ∧
    16 ≤ 8 * [0x12#8, 0x34#8].length ∧ bits2octets [0x83#8] 0x83 8 1 = bits2octets [] 0x83 8 1 := by decide

theorem witness_Bits2IntCommand : (idle []).stage = .idle ∧ State.reset.q = 0 ∧ State.reset.ibuf = [] ∧
    (admitted []).cls = .run ∧ (offered []).cls = .wait := by decide

/-- AINT at the last value of rolen octets and at the first beyond. -/
theorem witness_Int2OctetsCommand : (idle []).stage = .idle ∧ 0xFF < 2 ^ (8 * ((bitlen (idle []).q + 7) / 8)) ∧
    2 ^ (8 * ((bitlen (idle []).q + 7) / 8)) ≤ 0x100 ∧ (admitted []).cls = .run := by decide

theorem witness_Bits2IntModQCommand : (idle []).stage = .idle ∧ (idle []).q ≠ 0 ∧ State.reset.stage = .idle ∧
    State.reset.q = 0 ∧ (offered []).cls = .wait := by decide

theorem witness_Bits2OctetsCommand : ({ State.reset with q := 1 } : State).stage = .idle ∧ (1 : Nat) ≠ 0 ∧
    State.reset.q = 0 ∧ (admitted []).cls = .run := by decide

/-- qlen 7 and 8; X absent, 0, 1, q-1 and q. -/
theorem witness_GenerateAdmission : (idle []).stage = .idle ∧ bitlen 0x7F < 8 ∧ 8 ≤ bitlen 0x80 ∧ (idle []).x = some 5 ∧
    (1 ≤ 1 ∧ 0x82 < (idle []).q) ∧ (∀ x, ({ idle [] with x := none } : State).x = some x → x = 0 ∨ (idle []).q ≤ x) ∧
    (∀ x, some 0x83 = some x → x = 0 ∨ (idle []).q ≤ x) ∧ (admitted []).cls = .run := by
  refine ⟨rfl, by decide, by decide, rfl, by decide, by simp, ?_, rfl⟩
  intro x h
  cases h
  decide

theorem witness_SeedAssembly : (admitted []).x = some 5 ∧ 5 < (admitted []).q ∧ 0x82 < (admitted []).q := by decide

theorem witness_RatchetKeyRounds : (producing .ratchD []).k = some (initK Config.params) ∧
    (producing .ratchD []).v = some (initV Config.params) ∧ (t1kv 0x00#8 0x01#8).seed = some [0x12#8, 0x34#8, 0xA1#8, 0xB2#8] ∧
    (t1kv 0x00#8 0x01#8).k = some [0x00#8] ∧ (t1kv 0x00#8 0x01#8).v = some [0x01#8] := ⟨rfl, rfl, rfl, rfl, rfl⟩

theorem witness_ChainValueSteps : (t1kv 0x65#8 0x01#8).k = some [0x65#8] ∧ (t1kv 0x65#8 0x01#8).v = some [0x01#8] := by decide

/-- T empty, one octet short of two, and at the threshold. -/
theorem witness_ProductionBlock : 0 < bitlen t1.q / 8 ∧ [0xCA#8].length < bitlen t1.q / 8 ∧
    bitlen t1.q / 8 ≤ [0xCA#8, 0x8D#8].length ∧ ({ t1kv 0xE5#8 0xCA#8 with t := some [0xCA#8] } : State).t = some [0xCA#8] := by
  decide

theorem witness_CandidateFormation : ({ t1 with t := some [0x3B#8, 0x12#8] } : State).t = some [0x3B#8, 0x12#8] := rfl

/-- The bounds 0, 1, q-1 and q of the range test. -/
theorem witness_RangeTestBranches : (offered []).kout = some 0x82 ∧ (1 ≤ 1 ∧ 1 < (offered []).q) ∧
    (1 ≤ 0x82 ∧ 0x82 < (offered []).q) ∧ (offered []).q ≤ 0x83 := by decide

theorem witness_PredicateWaitHolds : (offered []).stage = .predWait ∧ (offered []).script = [] := by decide

theorem witness_RetryKeyUpdate : (t1kv 0xE5#8 0x8D#8).k = some [0xE5#8] ∧ (t1kv 0xE5#8 0x8D#8).v = some [0x8D#8] := by decide

theorem witness_AcceptEndsTheGeneration : (offered []).stage = .predWait ∧ Inv (offered []) ∧ (idle []).cls = .idle ∧
    (admitted []).cls = .run := ⟨rfl, inv_offered _, rfl, rfl⟩

theorem witness_RejectTakesTheRetryPath : (offered []).stage = .predWait ∧ Inv (offered []) ∧ (idle []).cls = .idle ∧
    (admitted []).cls = .run := ⟨rfl, inv_offered _, rfl, rfl⟩

theorem witness_ClearErasesEverything : (finished []).stage = .idle ∧ (admitted []).cls = .run ∧ (offered []).cls = .wait := by
  decide

theorem witness_ScalarIsConsumed : Inv (offered [.write 0 (.nat 0x11), .write 0 (.nat 0x10)]) ∧
    (offered [.write 0 (.nat 0x11), .write 0 (.nat 0x10)]).stage = .predWait := ⟨inv_offered _, rfl⟩

theorem witness_RejectionDrawsAfresh : Inv (offered [.write 0 (.nat 0x12)]) ∧
    (offered [.write 0 (.nat 0x12)]).stage = .predWait ∧
    (offered [.write 0 (.nat 0x12)]).k = some (initK Config.params) ∧
    (offered [.write 0 (.nat 0x12)]).v = some (initV Config.params) := ⟨inv_offered _, rfl, rfl, rfl⟩

theorem witness_StepKeepsTheInvariant : Inv (producing .tReset []) ∧
    step (producing .tReset []) = .next (producing .tBlock []) := ⟨inv_producing _ (.inl rfl) _, rfl⟩

theorem witness_EveryStepCompletes : Inv (offered [.read 8, .write 0 (.nat 0x11)]) ∧
    scriptWf (offered [.read 8, .write 0 (.nat 0x11)]).script = true := ⟨inv_offered _, by decide⟩

theorem witness_EveryInstructionKeepsItsFrame :
    exec .reject (offered []) = .next { offered [] with stage := .updK } := rfl

theorem witness_OnlyRangedCandidatesAreOffered :
    step { offered [] with stage := .range } = .next (offered []) ∧
    step (offered [.write 0 (.nat 0x11)])
      = .next { offered [] with rv := true, k := none, v := none, t := none, stage := .idle } := ⟨rfl, rfl⟩

theorem witness_StageGraphIsComplete : step (producing .updV [.reset]) = .next State.reset ∧
    step (producing .tReset []) = .next (producing .tBlock []) := ⟨rfl, rfl⟩

theorem witness_OperandsAreImmutableDuringAGeneration : (producing .tReset []).busy = true ∧
    step (producing .tReset []) = .next (producing .tBlock []) ∧ (producing .tBlock []).stage ≠ .fault ∧
    (∀ rest, (producing .tReset []).script ≠ .reset :: rest) := by
  refine ⟨rfl, rfl, by decide, ?_⟩
  intro rest h
  cases h

theorem witness_ResultWindowsAreStable :
    step (offered [.read 8]) = .next { offered [] with reply := some (.nat 0x82) } ∧
    step (finished [.read 9]) = .next { finished [] with reply := some (.nat 0x82) } := ⟨rfl, rfl⟩

/-- Two states with the same view and another hidden scalar. -/
theorem witness_HostReadsRevealTheHostViewOnly :
    (idle [.read 2]).hostView = ({ idle [.read 2] with x := some 6 } : State).hostView ∧
    step (idle [.read 2]) = .next { idle [] with reply := some (.nat 0x83) } := ⟨rfl, rfl⟩

theorem witness_ReadsCommuteWithTheEngine : (admitted []).cls = .run ∧ 2 ∈ [2, 4, 5, 6, 7, 10, 11, 12] := by decide

/-- Two idle instances that differ in the codec's registers. -/
theorem witness_GenerationIsDeterministic : Inv (idle (.write 0 (.nat 0x10) :: answers [true])) ∧
    Inv { idle (.write 0 (.nat 0x10) :: answers [true]) with aint := 1 } ∧
    ∃ t, core.run (0 + 1) (idle (.write 0 (.nat 0x10) :: answers [true])) = .next t :=
  ⟨inv_idle _, ⟨by simp [IntegersFit, idle, fits_small, bitlen_small], by simp [Memory.wf, idle],
    by simp [StageFacts, idle, Quiet]⟩, _, rfl⟩

theorem witness_AttemptEndsAfterItsBlocks : Inv (producing .tReset []) ∧ (producing .tReset []).stage = .tReset ∧
    (producing .tReset []).script = [] := ⟨inv_producing _ (.inl rfl) _, rfl, rfl⟩

/-- The first attempt of an 8-bit order, whatever the HMAC unit: one block, so RANGE is done after twelve steps. -/
theorem witness_firstAttempt : ∃ t : State, core.run (11 + 1) (idle (.write 0 (.nat 0x10) :: answers [])) = .next t ∧
    (t.stage = .predWait ∨ t.stage = .updK) := by
  obtain ⟨s, v, h, ht, hv, hg, hq, hs⟩ : ∃ (s : State) (v : Octets),
      core.run 9 (idle (.write 0 (.nat 0x10) :: answers [])) = .next s ∧ s.t = some v ∧ v.length = Config.params.hlen ∧
      s.stage = .tBlock ∧ s.q = 0x83 ∧ s.script = [] := by
    have a1 := (step_of_instr (s := admitted []) rfl).trans (exec_seed rfl (by decide : 5 < 0x83))
    refine ⟨_, _, (run_succ 8 (t := admitted []) rfl).trans <| (run_succ 7 a1).trans <|
      (run_succ 6 ((step_of_instr rfl).trans (exec_init _))).trans <|
      (run_succ 5 ((step_of_instr rfl).trans (exec_ratchD rfl rfl rfl))).trans <|
      (run_succ 4 ((step_of_instr rfl).trans (exec_ratchE rfl rfl))).trans <|
      (run_succ 3 ((step_of_instr rfl).trans (exec_ratchF rfl rfl rfl))).trans <|
      (run_succ 2 ((step_of_instr rfl).trans (exec_ratchG rfl rfl))).trans <|
      (run_succ 1 ((step_of_instr rfl).trans (exec_tReset _))).trans <|
      run_one ((step_of_instr rfl).trans (exec_tBlock_more (o := []) rfl rfl rfl (by show 0 < thresholdOf 0x83; decide))),
      rfl, hmac_length .., rfl, rfl, rfl⟩
  have hge : thresholdOf s.q ≤ v.length := by
    rw [hv, hq]; exact le_of_eq_of_le (by decide : thresholdOf 0x83 = 1) (hlen_pos _)
  have turn : ∀ {u : State} {i : Instr}, u.script = [] → decodeStage4 u.stage.code = .ok i → step u = exec i u :=
    fun h1 h2 => step_of_instr (by simp only [fetch, h1, engineTurn, h2])
  have b1 := (turn hs (by rw [hg]; rfl)).trans (exec_tBlock_done ht hge)
  have b2 := (turn (u := { s with stage := .formK }) hs rfl).trans (exec_formK ht)
  have b3 := (turn (u := { s with kout := some (bits2int v (qlenOf s.q)), stage := .range }) hs rfl).trans (exec_range rfl)
  refine ⟨_, (run_add 3 h).trans ((run_succ 2 b1).trans ((run_succ 1 b2).trans (run_one b3))), ?_⟩
  show (ite _ _ _ : Stage) = _ ∨ (ite _ _ _ : Stage) = _
  split
  · exact .inl rfl
  · exact .inr rfl

/-- The three parts; and a run from GENERATE to the end of its first attempt. -/
theorem witness_HmacCallsAreCounted : (Inv (admitted []) ∧ (admitted []).stage = .seed) ∧
    (Inv (producing .tReset []) ∧ (producing .tReset []).script = []) ∧
    (Inv (producing .updK []) ∧ (producing .updK []).stage = .updK) ∧
    Inv (idle (.write 0 (.nat 0x10) :: answers [])) ∧
    ∃ t : State, core.run (11 + 1) (idle (.write 0 (.nat 0x10) :: answers [])) = .next t ∧
      (t.stage = .predWait ∨ t.stage = .updK ∨ t.rv = true) := by
  obtain ⟨t, h, ht⟩ := witness_firstAttempt
  exact ⟨⟨inv_admitted _, rfl⟩, ⟨inv_producing _ (.inl rfl) _, rfl⟩, ⟨inv_producing _ (.inr (.inr (.inl rfl))) _, rfl⟩,
    inv_idle _, t, h, ht.elim .inl (fun h => .inr (.inl h))⟩

/-- T2's order with HLEN = 1, T1's order, and an HLEN that does not divide. -/
theorem witness_FloorThresholdBoundsCandidates : (bitlen 0x0FFD % 8 ≠ 0 ∧ toy.hlen ∣ bitlen 0x0FFD / 8) ∧
    bitlen 0xC001 % 8 = 0 ∧ ¬ ({ toy with hlenPred := 1 } : Params).hlen ∣ bitlen 0x0FFD / 8 := by decide

/-- An idle instance with its operands; and the four results of the function, at the toy MAC. -/
theorem witness_GenerationRefinesGenerateSecret : Inv (idle (.write 0 (.nat 0x10) :: answers [true])) ∧
    (idle (.write 0 (.nat 0x10) :: answers [true])).stage = .idle ∧
    (idle (.write 0 (.nat 0x10) :: answers [true])).x = some 5 ∧
    generateSecret toy 3 0x83 5 [0x9C#8, 0x40#8] [] = some (.pending 0x12 0x19 []) ∧
    generateSecret toy 3 0x83 5 [0x9C#8, 0x40#8] [true] = some (.accepted 0x12 0x19 []) ∧
    generateSecret toy 2 0x83 5 [0x9C#8, 0x40#8] [] = some (.outOfFuel [0x37#8] [0x61#8] 0x19 [] []) ∧
    generateSecret toy 2 0x83 0x83 [0x9C#8, 0x40#8] [] = none :=
  ⟨inv_idle _, rfl, rfl, by decide +kernel, by decide +kernel, by decide +kernel, by decide +kernel⟩

/-- The least admitted order, with the least and the greatest scalar. -/
theorem witness_GensecretStartsAGeneration : (idle (genSecret 0x80 1 [])).stage = .idle ∧
    FitsQbitsMax Config.params 0xFF ∧ FitsDlenMax Config.params [] ∧ 8 ≤ bitlen 0x80 ∧ (1 : Nat) ≤ 1 ∧ 0x7F < 0x80 :=
  ⟨rfl, witness_fits.1, witness_fits.2.2, by decide, by decide, by decide⟩

theorem witness_CodecScriptsReturnTheirResult : (idle (b2i [])).stage = .idle ∧ (idle (i2o 0xFF)).q ≠ 0 ∧
    FitsDlenMax Config.params [] ∧ 0xFF < 2 ^ (8 * ((bitlen (idle []).q + 7) / 8)) ∧ FitsQbitsMax Config.params 0xFF ∧
    (idle (b2o [])).script = b2o [] ++ [] ∧ (idle (b2iq [])).script = b2iq [] ++ [] :=
  ⟨rfl, by decide, witness_fits.2.2, by decide, witness_fits.1, rfl, rfl⟩

theorem witness_WaitPollsStatus : condHolds .predReq (offered [.await .predReq]) = true ∧
    condHolds .predReq (producing .tReset [.await .predReq]) = false ∧
    step (producing .tReset [.await .predReq]) = .next (producing .tBlock [.await .predReq]) := ⟨rfl, rfl, rfl⟩

theorem witness_InstancesAreIndependent : stepInstance 0 [idle [.read 10], dead []]
    = .next [{ idle [] with reply := some (.nat 8) }, dead []] := rfl

theorem witness_AssemblersNeverEmitZero : ModularExact (exact 10) ∧ 0 < 7 ∧ predEcdsa (exact 10) 7 4 5 1 = some (3, 5) ∧
    predDsa (exact 10) 23 7 2 4 5 1 = some (3, 5) ∧
    signStep (exact 10) ⟨.ecdsa, 7, 4, []⟩ ⟨{ offered [] with reply := some (.nat 1) }, .digestInt 5⟩
      = .next ⟨{ offered (answerOf (some (3, 5)) ++ cmd .clear) with reply := some (.nat 1) }, .returning 3 5⟩ :=
  ⟨⟨fun _ _ => rfl, fun _ _ _ => rfl, fun _ _ _ => rfl⟩, by decide, by decide, by decide, rfl⟩

/-- A scalar at the order, an order of seven bits; a scalar 0 that passes SignECDSA's check, and operands that fit. -/
theorem witness_HostContractChecks : (idle []).script = [] ∧ (idle []).stage = .idle ∧ 0x83 ≤ 0x83 ∧ bitlen 0x7F % 8 ≠ 0 ∧
    startOf ⟨.ecdsa, 0xFF, 0, []⟩ = .ok (genSecret 0xFF 0 []) ∧ bitlen 0x7F < 8 ∧
    startOf ⟨.dsa 23 2, 0xFF, 0xFF, []⟩ = .ok (genSecret 0xFF 0xFF []) ∧ FitsQbitsMax Config.params 0xFF ∧
    FitsQbitsMax Config.params 0 ∧ FitsDlenMax Config.params [] :=
  ⟨rfl, rfl, by decide, by decide, rfl, by decide, by decide, witness_fits.1, witness_fits.2.1, witness_fits.2.2⟩

/-- A candidate waits: the predicate accepts it, or rejects it. -/
theorem witness_AssemblersReturnTheAcceptedSignature : (offered nextCandidate).stage = .predWait ∧
    (offered nextCandidate).script = nextCandidate ∧ (offered nextCandidate).kout = some 0x82 ∧
    (offered nextCandidate).eout = some 0 ∧ verdictOf (exact 10) ⟨.ecdsa, 0x83, 5, []⟩ 0x82 0 = some (10, 100) ∧
    verdictOf (exact 0x83) ⟨.ecdsa, 0x83, 5, []⟩ 0x82 0 = none ∧ (idle []).stage = .idle ∧ (idle []).script = [] ∧
    startOf ⟨.ecdsa, 0x83, 5, [0x9C#8, 0x40#8]⟩ = .ok (genSecret 0x83 5 [0x9C#8, 0x40#8]) ∧
    FitsQbitsMax Config.params 0xFF ∧ FitsDlenMax Config.params [] :=
  ⟨rfl, rfl, rfl, rfl, by decide, by decide, rfl, rfl, rfl, witness_fits.1, witness_fits.2.2⟩

end Sys2Proof.Tests
end

section
/-! What an instruction can do, said once: `Effect` lists the effect of each instruction that runs to it, and
`exec_outcome` says that `exec` gives that effect, a fault entry, or (a command in FAULT) nothing. -/

namespace Sys2Proof.Machine

/-- The instruction takes one of the spec's faults, from outside FAULT (R188). -/
def TakesFault (s t : State) : Prop := s.stage ≠ .fault ∧ ∃ c, c ≠ .none ∧ t = faultEntry c s

/-- `Effect s i t`: the instruction `i`, performed in `s` to its effect, leaves `t`; a constructor carries what the
instruction found in `s` (R95 to R98, R111 to R124, R151 to R153). -/
inductive Effect (s : State) : Instr → State → Prop where
  | bits2int (hg : s.stage = .idle) : Effect s .bits2int { s with rint := bits2int s.ibuf (qlenOf s.q) }
  | int2octets {o : Octets} (hg : s.stage = .idle) (ho : int2octets s.aint (rolenOf s.q) = some o) :
      Effect s .int2octets { s with obuf := o }
  | bits2intmodq (hg : s.stage = .idle) (hq : s.q ≠ 0) :
      Effect s .bits2intmodq { s with rint := bits2IntModQ s.ibuf s.q (qlenOf s.q) }
  | bits2octets {o : Octets} (hg : s.stage = .idle) (hq : s.q ≠ 0)
      (ho : int2octets (bits2IntModQ s.ibuf s.q (qlenOf s.q)) (rolenOf s.q) = some o) :
      Effect s .bits2octets { s with obuf := o }
  | generate (hg : s.stage = .idle) (hq : qlenMin ≤ qlenOf s.q) (hx : ScalarHeld s) :
      Effect s .generate { s with rv := false, kout := none, eout := none, stage := .seed }
  | accept (hg : s.stage = .predWait) :
      Effect s .accept { s with rv := true, k := none, v := none, t := none, stage := .idle }
  | reject (hg : s.stage = .predWait) : Effect s .reject { s with stage := .updK }
  | clear (hg : s.stage = .idle) : Effect s .clear (eraseItems s)
  | seed {x : Nat} {xo eo : Octets} (hx : s.x = some x) (hxo : int2octets x (rolenOf s.q) = some xo)
      (heo : int2octets (bits2IntModQ s.ibuf s.q (qlenOf s.q)) (rolenOf s.q) = some eo) :
      Effect s .seed { s with
        eout := some (bits2IntModQ s.ibuf s.q (qlenOf s.q)), seed := some (xo ++ eo), stage := .init }
  | init : Effect s .init { s with
      v := some (initV Config.params), k := some (initK Config.params), stage := .ratchD }
  | ratchD {k v sd : Octets} (hk : s.k = some k) (hv : s.v = some v) (hs : s.seed = some sd) :
      Effect s .ratchD { s with k := some (Config.params.hmac k (msgSeed v 0x00#8 sd)), stage := .ratchE }
  | ratchE {k v : Octets} (hk : s.k = some k) (hv : s.v = some v) :
      Effect s .ratchE { s with v := some (Config.params.hmac k v), stage := .ratchF }
  | ratchF {k v sd : Octets} (hk : s.k = some k) (hv : s.v = some v) (hs : s.seed = some sd) :
      Effect s .ratchF { s with k := some (Config.params.hmac k (msgSeed v 0x01#8 sd)), stage := .ratchG }
  | ratchG {k v : Octets} (hk : s.k = some k) (hv : s.v = some v) :
      Effect s .ratchG { s with v := some (Config.params.hmac k v), seed := none, x := none, stage := .tReset }
  | tReset : Effect s .tReset { s with t := some [], stage := .tBlock }
  | tBlockMore {o k v : Octets} (ho : s.t = some o) (hk : s.k = some k) (hv : s.v = some v)
      (hlt : o.length < thresholdOf s.q) :
      Effect s .tBlock { s with
        v := some (Config.params.hmac k v), t := some (o ++ Config.params.hmac k v), stage := .tBlock }
  | tBlockDone {o : Octets} (ho : s.t = some o) (hge : thresholdOf s.q ≤ o.length) :
      Effect s .tBlock { s with stage := .formK }
  | formK {o : Octets} (ho : s.t = some o) :
      Effect s .formK { s with kout := some (Machine.bits2int o (qlenOf s.q)), stage := .range }
  | rangeIn {k : Nat} (hk : s.kout = some k) (h1 : 1 ≤ k) (hq : k < s.q) :
      Effect s .range { s with stage := .predWait }
  | rangeOut {k : Nat} (hk : s.kout = some k) (hr : ¬ (1 ≤ k ∧ k < s.q)) : Effect s .range { s with stage := .updK }
  | predWait : Effect s .predWait s
  | updK {k v : Octets} (hk : s.k = some k) (hv : s.v = some v) :
      Effect s .updK { s with k := some (Config.params.hmac k (msgRetry v)), stage := .updV }
  | updV {k v : Octets} (hk : s.k = some k) (hv : s.v = some v) :
      Effect s .updV { s with v := some (Config.params.hmac k v), stage := .tReset }

/-- Everything `exec` can answer: nothing done in FAULT, a fault entry, the instruction's effect. -/
def ExecOutcome (i : Instr) (s t : State) : Prop := (s.stage = .fault ∧ t = s) ∨ TakesFault s t ∨ Effect s i t

theorem execOutcome_of_command {i : Instr} {c : StageClass} {body : State → Out} {s t : State}
    (h : command c body s = .next t)
    (hbody : s.cls = c → body s = .next t → (∃ c', c' ≠ .none ∧ t = faultEntry c' s) ∨ Effect s i t) :
    ExecOutcome i s t := by
  obtain ⟨hf, rfl⟩ | ⟨hf, hc, h⟩ | ⟨hf, -, rfl⟩ := command_next h
  · exact .inl ⟨(cls_fault_iff _).mp hf, rfl⟩
  · exact .inr ((hbody hc h).imp_left fun hx => ⟨mt (cls_fault_iff s).mpr hf, hx⟩)
  · exact .inr (.inl ⟨mt (cls_fault_iff s).mpr hf, .protocol, by decide, rfl⟩)

theorem ratchKey_next {P : Params} {sep : Octet} {g : Stage} {s t : State} (h : ratchKey P sep g s = .next t) :
    ∃ k v sd, s.k = some k ∧ s.v = some v ∧ s.seed = some sd
      ∧ t = { s with k := some (P.hmac k (msgSeed v sep sd)), stage := g } := by
  obtain ⟨k, hk, h⟩ := need_next h
  obtain ⟨v, hv, h⟩ := need_next h
  obtain ⟨sd, hs, h⟩ := need_next h
  cases h
  exact ⟨k, v, sd, hk, hv, hs, rfl⟩

theorem stepValue_next {P : Params} {after : State → State} {s t : State} (h : stepValue P after s = .next t) :
    ∃ k v, s.k = some k ∧ s.v = some v ∧ t = after { s with v := some (P.hmac k v) } := by
  obtain ⟨k, hk, h⟩ := need_next h
  obtain ⟨v, hv, h⟩ := need_next h
  cases h
  exact ⟨k, v, hk, hv, rfl⟩

theorem execOutcome_int2octets {s t : State} (h : execInt2octets s = .next t) : ExecOutcome .int2octets s t := by
  refine execOutcome_of_command h fun hc h => ?_
  split at h
  · next o ho => cases h; exact .inr (.int2octets ((cls_idle_iff s).mp hc) ho)
  · cases h; exact .inl ⟨.intRange, by decide, rfl⟩

theorem execOutcome_bits2intmodq {s t : State} (h : execBits2intmodq s = .next t) :
    ExecOutcome .bits2intmodq s t := by
  refine execOutcome_of_command h fun hc h => ?_
  split at h
  · cases h; exact .inl ⟨.qRange, by decide, rfl⟩
  · next hq => cases h; exact .inr (.bits2intmodq ((cls_idle_iff s).mp hc) hq)

theorem execOutcome_bits2octets {s t : State} (h : execBits2octets s = .next t) : ExecOutcome .bits2octets s t := by
  refine execOutcome_of_command h fun hc h => ?_
  split at h
  · cases h; exact .inl ⟨.qRange, by decide, rfl⟩
  · next hq =>
    obtain ⟨o, ho, h⟩ := need_next h
    cases h
    exact .inr (.bits2octets ((cls_idle_iff s).mp hc) hq ho)

theorem execOutcome_generate {s t : State} (h : execGenerate s = .next t) : ExecOutcome .generate s t := by
  refine execOutcome_of_command h fun hc h => ?_
  split at h
  · cases h; exact .inl ⟨.qRange, by decide, rfl⟩
  · next hq =>
    split at h
    · cases h; exact .inl ⟨.xRange, by decide, rfl⟩
    · next x hx =>
      split at h
      · cases h; exact .inl ⟨.xRange, by decide, rfl⟩
      · next hr =>
        cases h
        exact .inr (.generate ((cls_idle_iff s).mp hc) (Nat.le_of_not_lt hq) ⟨x, hx, by omega, by omega⟩)

theorem effect_of_seed {s t : State} (h : exec .seed s = .next t) : Effect s .seed t := by
  obtain ⟨x, hx, h⟩ := need_next h
  obtain ⟨xo, hxo, h⟩ := need_next h
  obtain ⟨eo, heo, h⟩ := need_next h
  cases h
  exact .seed hx hxo heo

theorem effect_of_tBlock {s t : State} (h : exec .tBlock s = .next t) : Effect s .tBlock t := by
  obtain ⟨o, ho, h⟩ := need_next h
  split at h
  · next hlt =>
    obtain ⟨k, hk, h⟩ := need_next h
    obtain ⟨v, hv, h⟩ := need_next h
    cases h
    rw [memWrite_end]
    exact .tBlockMore ho hk hv hlt
  · next hge => cases h; exact .tBlockDone ho (Nat.le_of_not_lt hge)

theorem effect_of_range {s t : State} (h : exec .range s = .next t) : Effect s .range t := by
  obtain ⟨k, hk, h⟩ := need_next h
  cases h
  split
  · next hr => exact .rangeIn hk hr.1 hr.2
  · next hr => exact .rangeOut hk hr

/-- Inversion of `exec`: whatever it answers is one of the three outcomes. -/
theorem exec_outcome {i : Instr} {s t : State} (h : exec i s = .next t) : ExecOutcome i s t := by
  cases i
  case bits2int =>
    refine execOutcome_of_command (show execBits2int s = _ from h) fun hc h => ?_
    cases h
    exact .inr (.bits2int ((cls_idle_iff s).mp hc))
  case int2octets => exact execOutcome_int2octets h
  case bits2intmodq => exact execOutcome_bits2intmodq h
  case bits2octets => exact execOutcome_bits2octets h
  case generate => exact execOutcome_generate h
  case accept =>
    refine execOutcome_of_command (show execAccept s = _ from h) fun hc h => ?_
    cases h
    exact .inr (.accept ((cls_wait_iff s).mp hc))
  case reject =>
    refine execOutcome_of_command (show execReject s = _ from h) fun hc h => ?_
    cases h
    exact .inr (.reject ((cls_wait_iff s).mp hc))
  case clear =>
    refine execOutcome_of_command (show execClear s = _ from h) fun hc h => ?_
    cases h
    exact .inr (.clear ((cls_idle_iff s).mp hc))
  all_goals refine .inr (.inr ?_)
  case seed => exact effect_of_seed h
  case init => cases h; exact .init
  case ratchD => obtain ⟨k, v, sd, hk, hv, hs, rfl⟩ := ratchKey_next h; exact .ratchD hk hv hs
  case ratchE => obtain ⟨k, v, hk, hv, rfl⟩ := stepValue_next (show ratchE Config.params s = _ from h); exact .ratchE hk hv
  case ratchF => obtain ⟨k, v, sd, hk, hv, hs, rfl⟩ := ratchKey_next h; exact .ratchF hk hv hs
  case ratchG => obtain ⟨k, v, hk, hv, rfl⟩ := stepValue_next (show ratchG Config.params s = _ from h); exact .ratchG hk hv
  case tReset => cases h; exact .tReset
  case tBlock => exact effect_of_tBlock h
  case formK => obtain ⟨o, ho, h⟩ := need_next h; cases h; exact .formK ho
  case range => exact effect_of_range h
  case predWait => cases h; exact .predWait
  case updK =>
    obtain ⟨k, hk, h⟩ := need_next h
    obtain ⟨v, hv, h⟩ := need_next h
    cases h
    exact .updK hk hv
  case updV => obtain ⟨k, v, hk, hv, rfl⟩ := stepValue_next (show updV Config.params s = _ from h); exact .updV hk hv

/-! ### Frames -/

/-- An effect leaves every item its instruction's rule does not name (R38): effect by effect, item by item. -/
theorem sameItem_of_effect {i : Instr} {s t : State} {j : Item} (h : Effect s i t) (hj : j ∉ writes i) :
    SameItem j s t := by
  cases h <;> cases j <;> simp [writes, SameItem] at hj ⊢

theorem frame_of_effect {i : Instr} {s t : State} (h : Effect s i t) : Frame (writes i) s t :=
  frame_of_items (fun _ hj => sameItem_of_effect h hj) (by cases h <;> rfl) (by cases h <;> rfl)

theorem frame_refl (w : List Item) (s : State) : Frame w s s :=
  frame_of_items (fun j _ => by cases j <;> rfl) rfl rfl

/-- Settles O43: the outcomes of `exec` one by one; in FAULT nothing changes, and an effect has its frame. -/
theorem everyInstructionKeepsItsFrame : Obligations.EveryInstructionKeepsItsFrame := by
  intro i s t h
  obtain ⟨-, rfl⟩ | ⟨hs, c, hc, rfl⟩ | heff := exec_outcome h
  · exact .inl (frame_refl _ t)
  · exact .inr ⟨hs, c, hc, faulted_faultEntry c s, rfl, rfl⟩
  · exact .inl (frame_of_effect heff)

end Sys2Proof.Machine
end

section
/-! The machine's invariant: it reads no field of the model's own, holds at reset and after every fault entry, and every
effect and every settled transaction keeps it. -/

namespace Sys2Proof.Machine

/-! ### Where an instruction comes from -/

/-- A code of the stage register decodes to the micro-operation of that stage (R32). -/
theorem stageOf_of_decodeStage4 {g : Stage} {i : Instr} (h : decodeStage4 g.code = .ok i) : stageOf i = some g := by
  rw [decodeStage4_code] at h
  cases g <;> cases h <;> rfl

/-- An opcode decodes to one of the eight commands (R71). -/
theorem mem_commands_of_decodeCmd8 {c : BitVec 8} {i : Instr} (h : decodeCmd8 c = .ok i) :
    i ∈ [Instr.bits2int, .int2octets, .bits2intmodq, .bits2octets, .generate, .clear, .accept, .reject] := by
  have htable : ∀ r ∈ cmd8Table,
      r.2 ∈ [Instr.bits2int, .int2octets, .bits2intmodq, .bits2octets, .generate, .clear, .accept, .reject] := by
    decide
  unfold decodeCmd8 at h
  split at h
  · next r hr => cases h; exact htable r (List.mem_of_find?_eq_some hr)
  · cases h

theorem stageOf_of_decodeCmd8 {c : BitVec 8} {i : Instr} (h : decodeCmd8 c = .ok i) : stageOf i = none := by
  have hcmd : ∀ j ∈ [Instr.bits2int, .int2octets, .bits2intmodq, .bits2octets, .generate, .clear, .accept, .reject],
      stageOf j = none := by decide
  exact hcmd i (mem_commands_of_decodeCmd8 h)

/-- A micro-operation is fetched only while STAGE names it (R32). -/
theorem stage_of_fetch_instr {P : Params} {s u : State} {i : Instr} {g : Stage} (h : fetch P s = .instr i u)
    (hg : stageOf i = some g) : s.stage = g := by
  obtain ⟨c, rest, -, -, -, hd, -⟩ | ⟨hd, -⟩ := fetch_instr h
  · rw [stageOf_of_decodeCmd8 hd] at hg; cases hg
  · rw [stageOf_of_decodeStage4 hd] at hg; exact Option.some.inj hg

theorem eq_of_fetch_instr {P : Params} {s u : State} {i : Instr} (h : fetch P s = .instr i u) :
    ∃ sc, u = { s with script := sc } := by
  obtain ⟨c, rest, -, -, -, -, rfl⟩ | ⟨-, rfl | ⟨rest, -, rfl⟩⟩ := fetch_instr h
  · exact ⟨rest, rfl⟩
  · exact ⟨u.script, rfl⟩
  · exact ⟨rest, rfl⟩

/-! ### The invariant and the shared operations -/

/-- The invariant reads neither the script nor the reply. -/
theorem InvOf.setOwn {P : Params} {s : State} (h : InvOf P s) (sc : List Event) (r : Option Value) :
    InvOf P { s with script := sc, reply := r } :=
  ⟨h.integers, h.buffers, h.stage⟩

theorem inv_faultEntry {P : Params} {c : Cause} (hc : c ≠ .none) (s : State) : InvOf P (faultEntry c s) :=
  inv_of_erased (faulted_faultEntry c s).1 (.inr ⟨rfl, hc⟩)

theorem inv_eraseItems (P : Params) (s : State) : InvOf P (eraseItems s) :=
  inv_of_erased (resetItems_eraseItems s).1 (.inl ⟨rfl, rfl⟩)

/-- Settles O7: the reset state is an erased state in IDLE. -/
theorem invariantHoldsAtReset : Obligations.InvariantHoldsAtReset :=
  inv_of_erased (by simp [DataErased]) (.inl ⟨rfl, rfl⟩)

theorem InvOf.q_fits {P : Params} {s : State} (h : InvOf P s) : fitsInt P s.q = true := by
  obtain ⟨hq, -⟩ := h.integers
  exact hq

theorem int2octets_length {v rolen : Nat} {o : Octets} (h : int2octets v rolen = some o) : o.length = rolen := by
  obtain ⟨-, hlen, -⟩ := int2octets_spec h
  exact hlen

/-- A natural below the order fits wherever the order does (R21). -/
theorem fitsInt_of_lt {P : Params} {q n : Nat} (h : n < q) (hq : fitsInt P q = true) : fitsInt P n = true :=
  fitsInt_of_le (bitlen_mono h.le) hq

/-! ### What each stage promises -/

/-- What the invariant says in IDLE (R40, R27). -/
def IdleFacts (s : State) : Prop :=
  s.cause = .none ∧ Quiet s ∧ (s.rv = false → s.kout = none ∧ s.eout = none)
    ∧ (s.rv = true → (∃ k, s.kout = some k ∧ 1 ≤ k) ∧ ∃ e, s.eout = some e)

/-- What it says while the key chain is set up, RATCH_D to RATCH_G (R114 to R117). -/
def RatchFacts (s : State) : Prop :=
  Generating s ∧ ScalarHeld s ∧ DigestHeld s ∧ s.kout = none ∧ (∃ o, s.seed = some o) ∧ ChainHeld s ∧ s.t = none

section StageFacts
variable {s : State}

theorem stageFacts_idle (h : s.stage = .idle) : StageFacts s ↔ IdleFacts s := by rw [StageFacts, h]; rfl

theorem stageFacts_seed (h : s.stage = .seed) :
    StageFacts s ↔ Generating s ∧ ScalarHeld s ∧ Quiet s ∧ s.kout = none ∧ s.eout = none := by rw [StageFacts, h]

theorem stageFacts_init (h : s.stage = .init) :
    StageFacts s ↔ Generating s ∧ ScalarHeld s ∧ DigestHeld s ∧ s.kout = none ∧ (∃ o, s.seed = some o)
      ∧ s.k = none ∧ s.v = none ∧ s.t = none := by rw [StageFacts, h]

theorem stageFacts_ratch (h : s.stage ∈ [Stage.ratchD, .ratchE, .ratchF, .ratchG]) :
    StageFacts s ↔ RatchFacts s := by
  simp only [List.mem_cons, List.not_mem_nil, or_false] at h
  rcases h with h | h | h | h <;> rw [StageFacts, h] <;> rfl

theorem stageFacts_producing (h : s.stage ∈ [Stage.tReset, .updK, .updV]) : StageFacts s ↔ Producing s := by
  simp only [List.mem_cons, List.not_mem_nil, or_false] at h
  rcases h with h | h | h <;> rw [StageFacts, h]

theorem stageFacts_tBlock (h : s.stage = .tBlock) : StageFacts s ↔ Producing s ∧ ∃ o, s.t = some o := by
  rw [StageFacts, h]

theorem stageFacts_formK (h : s.stage = .formK) :
    StageFacts s ↔ Producing s ∧ ∃ o, s.t = some o ∧ thresholdOf s.q ≤ o.length := by rw [StageFacts, h]

theorem stageFacts_range (h : s.stage = .range) :
    StageFacts s ↔ Producing s ∧ (∃ o, s.t = some o) ∧ ∃ k, s.kout = some k ∧ k < 2 ^ qlenOf s.q := by
  rw [StageFacts, h]

theorem stageFacts_predWait (h : s.stage = .predWait) :
    StageFacts s ↔ Producing s ∧ (∃ o, s.t = some o) ∧ ∃ k, s.kout = some k ∧ 1 ≤ k ∧ k < s.q := by
  rw [StageFacts, h]

theorem stageFacts_fault (h : s.stage = .fault) : StageFacts s ↔ s.cause ≠ .none ∧ DataErased s := by
  rw [StageFacts, h]

theorem InvOf.of_idle {P : Params} (hi : IntegersFit P s) (hb : Memory.wf P s) (hg : s.stage = .idle)
    (hf : IdleFacts s) : InvOf P s := ⟨hi, hb, (stageFacts_idle hg).mpr hf⟩

end StageFacts

/-! ### Every effect keeps the invariant

A command's effect brings its stage with it; a micro-operation's is that of a state whose STAGE names it. -/

section Effects
variable {P : Params} {s : State} (h : InvOf P s)
include h

/-- A new integer result, and a new octet result, that fit. -/
theorem InvOf.setRint (hg : s.stage = .idle) {n : Nat} (hn : fitsInt P n = true) : InvOf P { s with rint := n } := by
  obtain ⟨hq, hx, ha, -, hk, he⟩ := h.integers
  have hidle := (stageFacts_idle hg).mp h.stage
  exact .of_idle ⟨hq, hx, ha, hn, hk, he⟩ h.buffers hg hidle

theorem InvOf.setObuf (hg : s.stage = .idle) {o : Octets} (ho : o.length = rolenOf s.q) :
    InvOf P { s with obuf := o } := by
  have hidle := (stageFacts_idle hg).mp h.stage
  exact .of_idle h.integers (wf_setObuf h.buffers (fitsObuf_of_rolen ho h.q_fits)) hg hidle

theorem InvOf.generate (hg : s.stage = .idle) (hq : qlenMin ≤ qlenOf s.q) (hx : ScalarHeld s) :
    InvOf P { s with rv := false, kout := none, eout := none, stage := .seed } := by
  obtain ⟨fq, fx, fa, fr, -, -⟩ := h.integers
  obtain ⟨hc, hquiet, -, -⟩ := (stageFacts_idle hg).mp h.stage
  exact ⟨⟨fq, fx, fa, fr, by simp, by simp⟩, h.buffers,
    (stageFacts_seed rfl).mpr ⟨⟨hq, rfl, hc⟩, hx, hquiet, rfl, rfl⟩⟩

/-- The accepted candidate was in range, so the result it leaves is at least 1 (R151, R129). -/
theorem InvOf.accept (hg : s.stage = .predWait) :
    InvOf P { s with rv := true, k := none, v := none, t := none, stage := .idle } := by
  obtain ⟨⟨⟨-, -, hc⟩, ⟨e, he, -⟩, -, -, hseed⟩, -, k, hk, hk1, -⟩ := (stageFacts_predWait hg).mp h.stage
  obtain ⟨wi, wo, -, -, -, ws⟩ := h.buffers
  exact ⟨h.integers, ⟨wi, wo, by simp, by simp, by simp, ws⟩,
    (stageFacts_idle rfl).mpr ⟨hc, ⟨rfl, rfl, rfl, hseed⟩, by simp, fun _ => ⟨⟨k, hk, hk1⟩, e, he⟩⟩⟩

/-- SEED writes the reduced digest integer, below the order, and two groups of rolen octets (R112). -/
theorem InvOf.seed (hg : s.stage = .seed) {x : Nat} {xo eo : Octets} (hxo : int2octets x (rolenOf s.q) = some xo)
    (heo : int2octets (bits2IntModQ s.ibuf s.q (qlenOf s.q)) (rolenOf s.q) = some eo) :
    InvOf P { s with
      eout := some (bits2IntModQ s.ibuf s.q (qlenOf s.q)), seed := some (xo ++ eo), stage := .init } := by
  obtain ⟨fq, fx, fa, fr, fk, -⟩ := h.integers
  obtain ⟨hgen, hsc, ⟨hk, hv, ht, -⟩, hkout, -⟩ := (stageFacts_seed hg).mp h.stage
  have he : bits2IntModQ s.ibuf s.q (qlenOf s.q) < s.q := by
    obtain ⟨x, -, -, hx⟩ := hsc
    exact bits2IntModQ_lt s.ibuf s.q (by omega)
  have hlen : (xo ++ eo).length = 2 * rolenOf s.q := by
    rw [List.length_append, (int2octets_length hxo), (int2octets_length heo), two_mul]
  exact ⟨⟨fq, fx, fa, fr, fk, by rintro n ⟨⟩; exact fitsInt_of_lt he fq⟩, wf_setSeed h.buffers hlen,
    (stageFacts_init rfl).mpr ⟨hgen, hsc, ⟨_, rfl, he⟩, hkout, ⟨_, rfl⟩, hk, hv, ht⟩⟩

theorem InvOf.init (hg : s.stage = .init) :
    InvOf P { s with v := some (initV P), k := some (initK P), stage := .ratchD } := by
  obtain ⟨hgen, hsc, hd, hkout, hseed, -, -, ht⟩ := (stageFacts_init hg).mp h.stage
  exact ⟨h.integers, wf_setK (wf_setV h.buffers (initV_length P)) (initK_length P),
    (stageFacts_ratch (by simp)).mpr ⟨hgen, hsc, hd, hkout, hseed, ⟨⟨_, rfl⟩, _, rfl⟩, ht⟩⟩

/-- A new K, or a new V, of HLEN octets from one stage of the set-up to another. -/
theorem InvOf.ratchKey (hg : s.stage ∈ [Stage.ratchD, .ratchE, .ratchF, .ratchG]) {o : Octets}
    (ho : o.length = P.hlen) {g : Stage} (hg' : g ∈ [Stage.ratchD, .ratchE, .ratchF, .ratchG]) :
    InvOf P { s with k := some o, stage := g } := by
  obtain ⟨hgen, hsc, hd, hkout, hseed, ⟨-, hv⟩, ht⟩ := (stageFacts_ratch hg).mp h.stage
  exact ⟨h.integers, wf_setK h.buffers ho,
    (stageFacts_ratch hg').mpr ⟨hgen, hsc, hd, hkout, hseed, ⟨⟨_, rfl⟩, hv⟩, ht⟩⟩

theorem InvOf.ratchValue (hg : s.stage ∈ [Stage.ratchD, .ratchE, .ratchF, .ratchG]) {o : Octets}
    (ho : o.length = P.hlen) {g : Stage} (hg' : g ∈ [Stage.ratchD, .ratchE, .ratchF, .ratchG]) :
    InvOf P { s with v := some o, stage := g } := by
  obtain ⟨hgen, hsc, hd, hkout, hseed, ⟨hk, -⟩, ht⟩ := (stageFacts_ratch hg).mp h.stage
  exact ⟨h.integers, wf_setV h.buffers ho,
    (stageFacts_ratch hg').mpr ⟨hgen, hsc, hd, hkout, hseed, ⟨hk, ⟨_, rfl⟩⟩, ht⟩⟩

/-- RATCH_G erases X and SEED: production begins (R117). -/
theorem InvOf.ratchG (hg : s.stage = .ratchG) {o : Octets} (ho : o.length = P.hlen) :
    InvOf P { s with v := some o, seed := none, x := none, stage := .tReset } := by
  obtain ⟨fq, -, fa, fr, fk, fe⟩ := h.integers
  obtain ⟨wi, wo, wk, wv, wt, -⟩ := wf_setV h.buffers ho
  obtain ⟨hgen, -, hd, -, -, ⟨hk, -⟩, -⟩ := (stageFacts_ratch (by simp [hg])).mp h.stage
  exact ⟨⟨fq, by simp, fa, fr, fk, fe⟩, ⟨wi, wo, wk, wv, wt, by simp⟩,
    (stageFacts_producing (by simp)).mpr ⟨hgen, hd, ⟨hk, ⟨_, rfl⟩⟩, rfl, rfl⟩⟩

theorem InvOf.tReset (hg : s.stage = .tReset) : InvOf P { s with t := some [], stage := .tBlock } := by
  have hp := (stageFacts_producing (by simp [hg])).mp h.stage
  exact ⟨h.integers, wf_emptyT h.buffers, (stageFacts_tBlock rfl).mpr ⟨hp, _, rfl⟩⟩

/-- One more block, within T's capacity since T was below the threshold (R119). -/
theorem InvOf.tBlockMore (hg : s.stage = .tBlock) {o v : Octets} (ho : s.t = some o) (hv : v.length = P.hlen)
    (hlt : o.length < thresholdOf s.q) :
    InvOf P { s with v := some v, t := some (o ++ v), stage := .tBlock } := by
  obtain ⟨⟨hgen, hd, ⟨hk, -⟩, hx, hseed⟩, -⟩ := (stageFacts_tBlock hg).mp h.stage
  have hbuf := wf_appendBlock h.buffers ho hv hlt
  rw [memWrite_end] at hbuf
  exact ⟨h.integers, hbuf, (stageFacts_tBlock rfl).mpr ⟨⟨hgen, hd, ⟨hk, ⟨_, rfl⟩⟩, hx, hseed⟩, _, rfl⟩⟩

theorem InvOf.tBlockDone (hg : s.stage = .tBlock) {o : Octets} (ho : s.t = some o)
    (hge : thresholdOf s.q ≤ o.length) : InvOf P { s with stage := .formK } := by
  obtain ⟨hp, -⟩ := (stageFacts_tBlock hg).mp h.stage
  exact ⟨h.integers, h.buffers, (stageFacts_formK rfl).mpr ⟨hp, o, ho, hge⟩⟩

/-- A candidate, in range or not, has at most qlen bits (R91, R120). -/
theorem InvOf.formK (hg : s.stage = .formK) (o : Octets) :
    InvOf P { s with kout := some (Machine.bits2int o (qlenOf s.q)), stage := .range } := by
  obtain ⟨fq, fx, fa, fr, -, fe⟩ := h.integers
  obtain ⟨hp, o', ho', -⟩ := (stageFacts_formK hg).mp h.stage
  have hlt := bits2int_lt o (qlenOf s.q)
  exact ⟨⟨fq, fx, fa, fr, by rintro n ⟨⟩; exact fitsInt_of_lt_two_pow hlt fq, fe⟩, h.buffers,
    (stageFacts_range rfl).mpr ⟨hp, ⟨o', ho'⟩, _, rfl, hlt⟩⟩

theorem InvOf.rangeIn (hg : s.stage = .range) {k : Nat} (hk : s.kout = some k) (h1 : 1 ≤ k) (hq : k < s.q) :
    InvOf P { s with stage := .predWait } := by
  obtain ⟨hp, ht, -⟩ := (stageFacts_range hg).mp h.stage
  exact ⟨h.integers, h.buffers, (stageFacts_predWait rfl).mpr ⟨hp, ht, k, hk, h1, hq⟩⟩

/-- A candidate out of range, and a rejected one, take the retry path with what production needs (R121, R152). -/
theorem InvOf.retry (hg : s.stage = .range ∨ s.stage = .predWait) : InvOf P { s with stage := .updK } := by
  have hp : Producing s := hg.elim (fun hg => ((stageFacts_range hg).mp h.stage).1)
    fun hg => ((stageFacts_predWait hg).mp h.stage).1
  exact ⟨h.integers, h.buffers, (stageFacts_producing (by simp)).mpr hp⟩

theorem InvOf.updK (hg : s.stage = .updK) {o : Octets} (ho : o.length = P.hlen) :
    InvOf P { s with k := some o, stage := .updV } := by
  obtain ⟨hgen, hd, ⟨-, hv⟩, hx, hseed⟩ := (stageFacts_producing (by simp [hg])).mp h.stage
  exact ⟨h.integers, wf_setK h.buffers ho,
    (stageFacts_producing (by simp)).mpr ⟨hgen, hd, ⟨⟨_, rfl⟩, hv⟩, hx, hseed⟩⟩

theorem InvOf.updV (hg : s.stage = .updV) {o : Octets} (ho : o.length = P.hlen) :
    InvOf P { s with v := some o, stage := .tReset } := by
  obtain ⟨hgen, hd, ⟨hk, -⟩, hx, hseed⟩ := (stageFacts_producing (by simp [hg])).mp h.stage
  exact ⟨h.integers, wf_setV h.buffers ho,
    (stageFacts_producing (by simp)).mpr ⟨hgen, hd, ⟨hk, ⟨_, rfl⟩⟩, hx, hseed⟩⟩

end Effects

theorem inv_of_effect {s t : State} {i : Instr} (h : Inv s) (heff : Effect s i t)
    (hstage : ∀ g, stageOf i = some g → s.stage = g) : Inv t := by
  cases heff with
  | bits2int hg => exact h.setRint hg (fitsInt_of_lt_two_pow (bits2int_lt _ _) h.q_fits)
  | int2octets hg ho => exact h.setObuf hg (int2octets_length ho)
  | bits2intmodq hg hq => exact h.setRint hg (fitsInt_of_lt (bits2IntModQ_lt _ _ hq) h.q_fits)
  | bits2octets hg hq ho => exact h.setObuf hg (int2octets_length ho)
  | generate hg hq hx => exact h.generate hg hq hx
  | accept hg => exact h.accept hg
  | reject hg => exact h.retry (.inr hg)
  | clear hg => exact inv_eraseItems _ s
  | seed hx hxo heo => exact h.seed (hstage _ rfl) hxo heo
  | init => exact h.init (hstage _ rfl)
  | ratchD => exact h.ratchKey (by simp [hstage _ rfl]) (hmac_length ..) (by simp)
  | ratchE => exact h.ratchValue (by simp [hstage _ rfl]) (hmac_length ..) (by simp)
  | ratchF => exact h.ratchKey (by simp [hstage _ rfl]) (hmac_length ..) (by simp)
  | ratchG => exact h.ratchG (hstage _ rfl) (hmac_length ..)
  | tReset => exact h.tReset (hstage _ rfl)
  | tBlockMore ho hk hv hlt => exact h.tBlockMore (hstage _ rfl) ho (hmac_length ..) hlt
  | tBlockDone ho hge => exact h.tBlockDone (hstage _ rfl) ho hge
  | formK => exact h.formK (hstage _ rfl) _
  | rangeIn hk h1 hq => exact h.rangeIn (hstage _ rfl) hk h1 hq
  | rangeOut => exact h.retry (.inl (hstage _ rfl))
  | predWait => exact h
  | updK => exact h.updK (hstage _ rfl) (hmac_length ..)
  | updV => exact h.updV (hstage _ rfl) (hmac_length ..)

theorem inv_of_exec {s t : State} {i : Instr} (h : Inv s) (hexec : exec i s = .next t)
    (hstage : ∀ g, stageOf i = some g → s.stage = g) : Inv t := by
  obtain ⟨-, rfl⟩ | ⟨-, c, hc, rfl⟩ | heff := exec_outcome hexec
  · exact h
  · exact inv_faultEntry hc s
  · exact inv_of_effect h heff hstage

/-! ### Every settled transaction keeps the invariant -/

section Operands
variable {P : Params} {s : State} (h : InvOf P s) (hg : s.stage = .idle)
include h hg

theorem InvOf.setQ {n : Nat} (hn : fitsInt P n = true) : InvOf P { s with q := n } := by
  obtain ⟨-, hx, ha, hr, hk, he⟩ := h.integers
  have hidle := (stageFacts_idle hg).mp h.stage
  have ⟨_, ⟨_, _, ht, hs⟩, _⟩ := hidle
  exact .of_idle ⟨hn, hx, ha, hr, hk, he⟩ (wf_setQ n h.buffers ht hs) hg hidle

theorem InvOf.setX {n : Nat} (hn : fitsInt P n = true) : InvOf P { s with x := some n } := by
  obtain ⟨hq, -, ha, hr, hk, he⟩ := h.integers
  have hidle := (stageFacts_idle hg).mp h.stage
  exact .of_idle ⟨hq, by rintro m ⟨⟩; exact hn, ha, hr, hk, he⟩ h.buffers hg hidle

theorem InvOf.setAint {n : Nat} (hn : fitsInt P n = true) : InvOf P { s with aint := n } := by
  obtain ⟨hq, hx, -, hr, hk, he⟩ := h.integers
  have hidle := (stageFacts_idle hg).mp h.stage
  exact .of_idle ⟨hq, hx, hn, hr, hk, he⟩ h.buffers hg hidle

theorem InvOf.setIbuf {o : Octets} (ho : fitsOctets P o = true) : InvOf P { s with ibuf := o } := by
  have hidle := (stageFacts_idle hg).mp h.stage
  exact .of_idle h.integers (wf_setIbuf h.buffers ho) hg hidle

end Operands

theorem inv_of_settled {P : Params} {s u : State} (h : InvOf P s) (hf : fetch P s = .settled u) : InvOf P u := by
  obtain ⟨sc, r, rfl⟩ | ⟨-, c, sc, r, hc, rfl⟩ | ⟨rest, -, rfl⟩ | ⟨hg, sc, hstore⟩ := fetch_settled hf
  · exact h.setOwn sc r
  · exact (inv_faultEntry hc s).setOwn sc r
  · exact (inv_eraseItems P s).setOwn rest s.reply
  · obtain ⟨n, hn, rfl⟩ | ⟨n, hn, rfl⟩ | ⟨n, hn, rfl⟩ | ⟨o, ho, rfl⟩ := hstore
    · exact (h.setQ hg hn).setOwn sc s.reply
    · exact (h.setX hg hn).setOwn sc s.reply
    · exact (h.setAint hg hn).setOwn sc s.reply
    · exact (h.setIbuf hg ho).setOwn sc s.reply

/-- Settles O41: a step performs a fetched instruction, whose effect keeps the invariant at the stage that names it, or
settles a transaction. -/
theorem stepKeepsTheInvariant : Obligations.StepKeepsTheInvariant := by
  intro s t h hstep
  obtain ⟨i, u, hf, hexec⟩ | hf := step_cases hstep
  · obtain ⟨sc, rfl⟩ := eq_of_fetch_instr hf
    exact inv_of_exec (h.setOwn sc s.reply) hexec fun g hg => (stage_of_fetch_instr hf hg : s.stage = g)
  · exact inv_of_settled h hf

end Sys2Proof.Machine
end

section
/-! The step by the script's head: the engine's turn, a host read and a host write, with the outcome of each by the access
table (R39, R57); and STATUS as a view of class, RV and CAUSE (R31). -/

namespace Sys2Proof.Machine

/-! ### Register numbers -/

@[simp] theorem regOfNum_regNum (r : Reg) : regOfNum (regNum r) = some r := by cases r <;> rfl

theorem regOfNum_unassigned {n : Nat} (h : 13 ≤ n) : regOfNum n = none := List.getElem?_eq_none h

/-- A transaction's number is unassigned or a register's (R76). -/
theorem unassigned_or_regNum (n : Nat) : 13 ≤ n ∨ ∃ r, n = regNum r := by
  by_cases h : n < 13
  · have hall : ∀ m < 13, m = regNum (regTable[m]?.getD .cmd) := by decide
    exact .inr ⟨_, hall n h⟩
  · exact .inl (Nat.le_of_not_lt h)

/-! ### What is fetched, by the head of the script -/

section Fetch
variable {P : Params} {s : State} {rest : List Event}

theorem fetch_empty (h : s.script = []) : fetch P s = engineTurn s := by simp only [fetch, h]

theorem fetch_engine (h : s.script = .engine :: rest) : fetch P s = engineTurn { s with script := rest } := by
  simp only [fetch, h]

theorem fetch_await {c : Cond} (h : s.script = .await c :: rest) : fetch P s = hostAwait c rest s := by
  simp only [fetch, h]

theorem fetch_read {n : Nat} (h : s.script = .read n :: rest) :
    fetch P s = hostRead P n { s with script := rest } := by simp only [fetch, h]

theorem fetch_write {n : Nat} {v : Value} (h : s.script = .write n v :: rest) :
    fetch P s = hostWrite P n v { s with script := rest } := by simp only [fetch, h]

end Fetch

/-! ### Host transactions by the access table (R39) -/

section Transactions
variable {P : Params} {s : State} {n : Nat} {r : Reg} {v : Value}

theorem cls_ne_fault (h : s.stage ≠ .fault) : s.cls ≠ .fault := mt (cls_fault_iff s).mp h

theorem access_outside_fault (h : s.stage ≠ .fault) (r : Reg) (a : AccessKind) :
    access r a s.cls s.rv = accessOutsideFault r a s.cls s.rv := if_neg (cls_ne_fault h)

theorem hostRead_ok (hacc : access r .read s.cls s.rv = .ok) (hv : regValue P s r = some v) :
    hostRead P (regNum r) s = .settled (answer v s) := by simp only [hostRead, regOfNum_regNum, hacc, hv]

theorem hostRead_stuck (hacc : access r .read s.cls s.rv = .ok) (hv : regValue P s r = none) :
    hostRead P (regNum r) s = .stuck (.noValue (itemOf r)) := by simp only [hostRead, regOfNum_regNum, hacc, hv]

theorem hostRead_protocol (hacc : access r .read s.cls s.rv = .protocol) :
    hostRead P (regNum r) s = .settled (refuseRead s) := by simp only [hostRead, regOfNum_regNum, hacc]

theorem hostRead_image (hacc : access r .read s.cls s.rv = .image) :
    hostRead P (regNum r) s = .settled (answer (resetImage P r) s) := by simp only [hostRead, regOfNum_regNum, hacc]

theorem hostRead_unassigned (hn : 13 ≤ n) :
    hostRead P n s = .settled (if s.cls = .fault then answer (.nat 0) s else refuseRead s) := by
  simp only [hostRead, regOfNum_unassigned hn]
  split <;> rfl

theorem hostWrite_protocol (hfit : valueFits r v = true) (hacc : access r .write s.cls s.rv = .protocol) :
    hostWrite P (regNum r) v s = .settled (faultEntry .protocol s) := by
  simp [hostWrite, regOfNum_regNum, hfit, hacc]

theorem hostWrite_unassigned (hn : 13 ≤ n) (h : s.stage ≠ .fault) :
    hostWrite P n v s = .settled (faultEntry .protocol s) := by
  simp only [hostWrite, regOfNum_unassigned hn, if_neg (cls_ne_fault h)]

theorem hostWrite_image (hfit : valueFits r v = true) (hacc : access r .write s.cls s.rv = .image) :
    hostWrite P (regNum r) v s = .settled s := by
  simp [hostWrite, regOfNum_regNum, hfit, hacc]

theorem hostWrite_store (hr : r ≠ .cmd) (hfit : valueFits r v = true) (hacc : access r .write s.cls s.rv = .ok) :
    hostWrite P (regNum r) v s = .settled (storeOperand P r v s) := by
  simp only [hostWrite, regOfNum_regNum, hfit, hacc]
  cases r <;> simp at hr ⊢

theorem hostWrite_cmd {c : Nat} (hc : c < 256) (hacc : access .cmd .write s.cls s.rv = .ok) :
    hostWrite P (regNum .cmd) (.nat c) s = issue (BitVec.ofNat 8 c) s := by
  simp [hostWrite, regOfNum_regNum, valueFits, hc, hacc]

theorem eventWf_write_regNum : eventWf (.write (regNum r) v) = valueFits r v := by
  simp only [eventWf, regOfNum_regNum]

/-- The registers the host may read in every class but FAULT (R39). -/
theorem access_read_readable (h : s.stage ≠ .fault)
    (hr : r ∈ [Reg.status, .q, .ibuf, .aint, .rint, .obuf, .qlen, .rolen, .hlen]) :
    access r .read s.cls s.rv = .ok := by
  rw [access_outside_fault h]
  revert r
  simp [accessOutsideFault]

/-- KOUT and EOUT are readable inside the window alone (R27, R39). -/
theorem access_read_gated (h : s.stage ≠ .fault) (hr : r = .kout ∨ r = .eout) :
    access r .read s.cls s.rv = if s.windowOpen then .ok else .protocol := by
  have hf := cls_ne_fault h
  rw [access_outside_fault h, State.windowOpen]
  rcases hr with rfl | rfl <;> cases hc : s.cls <;> simp_all [accessOutsideFault]

theorem access_write_operand (h : s.stage = .idle) (hr : r ∈ [Reg.q, .x, .ibuf, .aint]) :
    access r .write s.cls s.rv = .ok := by
  rw [access_outside_fault (by simp [h]), (cls_idle_iff s).mpr h]
  revert r
  simp [accessOutsideFault, onlyIn]

/-- In FAULT every write is ignored (R189). -/
theorem access_write_image (h : s.stage = .fault) : access r .write s.cls s.rv = .image := by
  simp [access, h]

theorem access_write_readOnly (h : s.stage ≠ .fault) (hr : regNum r = 1 ∨ 6 ≤ regNum r) :
    access r .write s.cls s.rv = .protocol := by
  rw [access_outside_fault h]
  cases r <;> simp [regNum, accessOutsideFault] at hr ⊢

end Transactions

/-! ### The step at a host transaction -/

section Step
variable {s : State} {rest : List Event} {r : Reg}

/-- A permitted read returns the register's value and changes no item (R55). -/
theorem step_read_ok (h : s.script = .read (regNum r) :: rest) (hacc : access r .read s.cls s.rv = .ok) {v : Value}
    (hv : regValue Config.params s r = some v) : step s = .next { s with script := rest, reply := some v } :=
  step_of_settled ((fetch_read h).trans (hostRead_ok hacc hv))

theorem step_read_readable (hs : s.stage ≠ .fault) (h : s.script = .read (regNum r) :: rest)
    (hr : r ∈ [Reg.status, .q, .ibuf, .aint, .rint, .obuf, .qlen, .rolen, .hlen]) {v : Value}
    (hv : regValue Config.params s r = some v) : step s = .next { s with script := rest, reply := some v } :=
  step_read_ok h (access_read_readable hs hr) hv

theorem stepFaults_of_fetch {c : Cause}
    (h : fetch Config.params s = .settled (faultEntry c { s with script := rest })) : StepFaults c s rest :=
  ⟨_, step_of_settled h, faulted_faultEntry c _, rfl, rfl⟩

theorem step_read_refused {n : Nat} (h : s.script = .read n :: rest)
    (hr : hostRead Config.params n { s with script := rest } = .settled (refuseRead { s with script := rest })) :
    ∃ t, step s = .next t ∧ Faulted .protocol t ∧ t.script = rest ∧ t.reply = none :=
  ⟨_, step_of_settled ((fetch_read h).trans hr), faulted_faultEntry .protocol { s with script := rest }, rfl, rfl⟩

end Step

/-- Settles O15: each register is readable in every class but FAULT, with the value `regValue` gives it. -/
theorem permittedReadReturnsTheRegister : Obligations.PermittedReadReturnsTheRegister := by
  intro s n rest hs h
  refine ⟨?_, ?_, ?_, ?_, ?_, ?_, ?_, ?_, ?_⟩ <;> rintro rfl
  · exact step_read_readable (r := .status) hs h (by simp) rfl
  · exact step_read_readable (r := .q) hs h (by simp) rfl
  · exact step_read_readable (r := .ibuf) hs h (by simp) rfl
  · exact step_read_readable (r := .aint) hs h (by simp) rfl
  · exact step_read_readable (r := .rint) hs h (by simp) rfl
  · exact step_read_readable (r := .obuf) hs h (by simp) rfl
  · exact step_read_readable (r := .qlen) hs h (by simp) rfl
  · exact step_read_readable (r := .rolen) hs h (by simp) rfl
  · exact step_read_readable (r := .hlen) hs h (by simp) rfl

/-- Settles O14: a number is unassigned or a register's, and the access table refuses each of these registers. -/
theorem forbiddenAccessFaults : Obligations.ForbiddenAccessFaults := by
  intro s n rest hs
  refine ⟨fun v hn hwf h => stepFaults_of_fetch ?_, fun hn h => step_read_refused h ?_⟩
  · rw [fetch_write h]
    obtain hun | ⟨r, rfl⟩ := unassigned_or_regNum n
    · exact hostWrite_unassigned hun hs
    · exact hostWrite_protocol (eventWf_write_regNum ▸ hwf) (access_write_readOnly hs hn)
  · obtain rfl | rfl | hun | ⟨rfl | rfl, hwin⟩ := hn
    · exact hostRead_protocol (r := .cmd) (access_outside_fault hs _ _)
    · exact hostRead_protocol (r := .x) (access_outside_fault hs _ _)
    · rw [hostRead_unassigned hun]; exact congrArg _ (if_neg (cls_ne_fault hs))
    · exact hostRead_protocol (r := .kout) ((access_read_gated hs (.inl rfl)).trans (if_neg (by simp [hwin])))
    · exact hostRead_protocol (r := .eout) ((access_read_gated hs (.inr rfl)).trans (if_neg (by simp [hwin])))

/-- What the invariant says of KOUT and EOUT inside the window (R27, R28). -/
theorem candidate_of_windowOpen {P : Params} {s : State} (h : InvOf P s) (hw : s.windowOpen = true) :
    s.stage ≠ .fault ∧
      ∃ k e, s.kout = some k ∧ s.eout = some e ∧ 1 ≤ k ∧ (s.cls = .wait → k < s.q ∧ e < s.q) := by
  simp only [State.windowOpen, Bool.or_eq_true, Bool.and_eq_true, beq_iff_eq, cls_wait_iff, cls_idle_iff] at hw
  obtain hg | ⟨hg, hrv⟩ := hw
  · obtain ⟨⟨-, ⟨e, he, heq⟩, -⟩, -, k, hk, h1, hkq⟩ := (stageFacts_predWait hg).mp h.stage
    exact ⟨by simp [hg], k, e, hk, he, h1, fun _ => ⟨hkq, heq⟩⟩
  · obtain ⟨-, -, -, hres⟩ := (stageFacts_idle hg).mp h.stage
    obtain ⟨⟨k, hk, h1⟩, e, he⟩ := hres hrv
    exact ⟨by simp [hg], k, e, hk, he, h1, fun hc => absurd ((cls_wait_iff s).mp hc) (by simp [hg])⟩

/-- Settles O16: the invariant gives the two values, and the window lets the host read them. -/
theorem candidateReadInsideItsWindow : Obligations.CandidateReadInsideItsWindow := by
  intro s rest hinv hw
  obtain ⟨hs, k, e, hk, he, h1, hlt⟩ := candidate_of_windowOpen hinv hw
  have hacc {r : Reg} (hr : r = .kout ∨ r = .eout) : access r .read s.cls s.rv = .ok :=
    (access_read_gated hs hr).trans (if_pos hw)
  exact ⟨k, e, hk, he, h1, hlt,
    fun h => step_read_ok (r := .kout) h (hacc (.inl rfl)) (by simp [regValue, hk]),
    fun h => step_read_ok (r := .eout) h (hacc (.inr rfl)) (by simp [regValue, he])⟩

/-! ### STATUS -/

/-- STATUS bits 0, 1 and 3 by stage class (R31). -/
def classBits : StageClass → Nat
  | .idle => 0
  | .run => 1
  | .wait => 3
  | .fault => 8

theorem classBits_cls (s : State) :
    s.busy.toNat + 2 * s.predReq.toNat + 8 * s.faulted.toNat = classBits s.cls := by
  unfold State.busy State.predReq State.faulted State.cls
  cases s.stage <;> rfl

theorem code_le_six (c : Cause) : c.code ≤ 6 := by cases c <;> decide

theorem code_injective {c d : Cause} (h : c.code = d.code) : c = d := by
  cases c <;> cases d <;> simp [Cause.code] at h ⊢

/-- The sum that STATUS holds stays below 256, so nothing of it is lost. -/
theorem status_toNat (s : State) : s.status.toNat = classBits s.cls + 4 * s.rv.toNat + 16 * s.cause.code := by
  have hbits := classBits_cls s
  have hclass : classBits s.cls ≤ 8 := by cases s.cls <;> decide
  have hrv := Bool.toNat_le s.rv
  have hcause := code_le_six s.cause
  rw [State.status, State.resultValid, BitVec.toNat_ofNat, Nat.mod_eq_of_lt (by omega)]
  omega

theorem status_eq_iff (s : State) (b : BitVec 8) :
    s.status = b ↔ classBits s.cls + 4 * s.rv.toNat + 16 * s.cause.code = b.toNat := by
  rw [← BitVec.toNat_inj, status_toNat]

/-- While a generation runs or waits there is no result and no fault (R111). -/
theorem generating_of_cls {P : Params} {s : State} (h : InvOf P s) (hc : s.cls = .run ∨ s.cls = .wait) :
    Generating s := by
  have hst := h.stage
  unfold StageFacts at hst
  unfold State.cls at hc
  cases hg : s.stage <;> simp only [hg, Stage.cls, reduceCtorEq, or_self, Producing, and_assoc] at hc hst
  all_goals exact hst.1

/-- Settles O17: class by class, with what the invariant says there of RV and CAUSE. -/
theorem statusShowsItsListedValues : Obligations.StatusShowsItsListedValues := by
  intro s h
  refine ⟨fun hc => ?_, fun hc => ?_, fun hc => ?_, fun hc => ?_⟩
  · obtain ⟨hcause, -⟩ := (stageFacts_idle ((cls_idle_iff s).mp hc)).mp h.stage
    rw [status_eq_iff, hc, hcause]
    cases s.rv <;> rfl
  · obtain ⟨-, hrv, hcause⟩ := generating_of_cls h (.inl hc)
    rw [status_eq_iff, hc, hrv, hcause]
    rfl
  · obtain ⟨-, hrv, hcause⟩ := generating_of_cls h (.inr hc)
    rw [status_eq_iff, hc, hrv, hcause]
    rfl
  · obtain ⟨hcause, -, -, -, -, -, -, -, -, hrv, -⟩ := (stageFacts_fault ((cls_fault_iff s).mp hc)).mp h.stage
    have hstatus : s.status.toNat = 16 * s.cause.code + 8 := by
      rw [status_toNat, hc, hrv]
      exact Nat.add_comm ..
    refine ⟨?_, hstatus⟩
    simp only [List.mem_cons, List.not_mem_nil, or_false, ← BitVec.toNat_inj, hstatus]
    cases hcode : s.cause with
    | none => exact absurd hcode hcause
    | _ => simp [Cause.code]

/-! ### The views of Q -/

theorem fitsInt_iff {P : Params} {n : Nat} : fitsInt P n = true ↔ FitsQbitsMax P n := by
  unfold fitsInt FitsQbitsMax
  cases P.qbitsMax <;> simp

/-- In IDLE a write of Q that fits stores the whole value (R39, R187). -/
theorem step_write_q {s : State} {n : Nat} {rest : List Event} (h : s.script = .write 2 (.nat n) :: rest)
    (hg : s.stage = .idle) (hn : FitsQbitsMax Config.params n) :
    step s = .next { s with script := rest, q := n } := by
  have hacc := access_write_operand (s := { s with script := rest }) (r := .q) hg (by simp)
  refine step_of_settled ((fetch_write h).trans ((hostWrite_store (by decide) rfl hacc).trans ?_))
  exact congrArg _ (if_pos (fitsInt_iff.mpr hn))

/-- Settles O18: the write, then the two reads, of the state with the new order. -/
theorem widthViewsFollowQ : Obligations.WidthViewsFollowQ := by
  intro s n rest hg hn h
  have h1 := step_write_q h hg hn
  have hne : s.stage ≠ .fault := by simp [hg]
  have h2 := step_read_readable (s := { s with script := .read 10 :: .read 11 :: rest, q := n }) (r := .qlen) hne rfl
    (by simp) rfl
  have h3 := step_read_readable (s := { s with script := .read 11 :: rest, q := n, reply := some (.nat (qlenOf n)) })
    (r := .rolen) hne rfl (by simp) rfl
  exact ⟨bitlen n, _, _, lt_two_pow_bitlen n, fun m => (bitlen_le_iff n m).mpr,
    (run_succ 1 h1).trans (run_one h2), rfl,
    (run_succ 2 h1).trans ((run_succ 1 h2).trans (run_one h3)), rfl, rfl, rfl⟩

/-! ### What a host read tells -/

theorem classBits_injective {c d : StageClass} (h : classBits c = classBits d) : c = d := by
  cases c <;> cases d <;> simp [classBits] at h ⊢

/-- Equal STATUS values come from equal class, RV and CAUSE. -/
theorem eq_of_status_eq {s u : State} (h : s.status = u.status) :
    s.cls = u.cls ∧ s.rv = u.rv ∧ s.cause = u.cause := by
  have hsum : classBits s.cls + 4 * s.rv.toNat + 16 * s.cause.code
      = classBits u.cls + 4 * u.rv.toNat + 16 * u.cause.code := by
    rw [← status_toNat, ← status_toNat, h]
  have hbits (c : StageClass) : classBits c = 0 ∨ classBits c = 1 ∨ classBits c = 3 ∨ classBits c = 8 := by
    cases c <;> decide
  have hrv : ∀ a b : Bool, a.toNat = b.toNat → a = b := by decide
  have hs := hbits s.cls
  have hu := hbits u.cls
  have hsr := Bool.toNat_le s.rv
  have hur := Bool.toNat_le u.rv
  exact ⟨classBits_injective (by omega), hrv _ _ (by omega), code_injective (by omega)⟩

theorem windowOpen_congr {s u : State} (hc : s.cls = u.cls) (hr : s.rv = u.rv) : s.windowOpen = u.windowOpen := by
  simp only [State.windowOpen, hc, hr]

theorem status_of_hostView {s u : State} (h : s.hostView = u.hostView) : s.status = u.status := by
  have hstatus (w : State) : w.hostView.status = w.status := by
    unfold State.hostView
    split <;> rfl
  rw [← hstatus s, h, hstatus]

theorem hostView_outside_fault {s : State} (h : s.cls ≠ .fault) :
    s.hostView = { status := s.status, q := s.q, ibuf := s.ibuf, aint := s.aint, rint := s.rint, obuf := s.obuf
                   kout := if s.windowOpen then s.kout else none
                   eout := if s.windowOpen then s.eout else none } := if_neg h

/-- Where a read is permitted, the value returned is part of the view. -/
theorem regValue_of_hostView {P : Params} {s u : State} {r : Reg} (h : s.hostView = u.hostView)
    (hacc : access r .read s.cls s.rv = .ok) : regValue P s r = regValue P u r := by
  have hstatus := status_of_hostView h
  obtain ⟨hc, hr, -⟩ := eq_of_status_eq hstatus
  by_cases hf : s.cls = .fault
  · have : r = .status := by
      by_contra hne
      simp [access, hf, hne] at hacc
    simp only [this, regValue, hstatus]
  · rw [hostView_outside_fault hf, hostView_outside_fault (hc ▸ hf), ← windowOpen_congr hc hr] at h
    simp only [HostView.mk.injEq] at h
    obtain ⟨-, hq, hib, ha, hri, ho, hk, he⟩ := h
    cases hw : s.windowOpen with
    | true => cases r <;> simp_all [regValue]
    | false =>
      have hgated := access_read_gated (mt (cls_fault_iff s).mpr hf) (r := r)
      cases r <;> simp_all [regValue]

/-- The same read of two states with equal views is answered alike, refused alike or stuck alike. -/
theorem hostRead_of_hostView (P : Params) {s u : State} (n : Nat) (h : s.hostView = u.hostView) :
    (∃ v, hostRead P n s = .settled (answer v s) ∧ hostRead P n u = .settled (answer v u))
      ∨ (hostRead P n s = .settled (refuseRead s) ∧ hostRead P n u = .settled (refuseRead u))
      ∨ ∃ f, hostRead P n s = .stuck f ∧ hostRead P n u = .stuck f := by
  obtain ⟨hc, hr, -⟩ := eq_of_status_eq (status_of_hostView h)
  obtain hun | ⟨r, rfl⟩ := unassigned_or_regNum n
  · rw [hostRead_unassigned hun, hostRead_unassigned hun, ← hc]
    split
    · exact .inl ⟨_, rfl, rfl⟩
    · exact .inr (.inl ⟨rfl, rfl⟩)
  · cases hacc : access r .read s.cls s.rv with
    | protocol => exact .inr (.inl ⟨hostRead_protocol hacc, hostRead_protocol (hc ▸ hr ▸ hacc)⟩)
    | image => exact .inl ⟨_, hostRead_image hacc, hostRead_image (hc ▸ hr ▸ hacc)⟩
    | ok =>
      have hval := regValue_of_hostView (P := P) h hacc
      cases hv : regValue P s r with
      | some v => exact .inl ⟨v, hostRead_ok hacc hv, hostRead_ok (hc ▸ hr ▸ hacc) (hval ▸ hv)⟩
      | none => exact .inr (.inr ⟨_, hostRead_stuck hacc hv, hostRead_stuck (hc ▸ hr ▸ hacc) (hval ▸ hv)⟩)

/-- Settles O48: an answer leaves the view as it was, a refusal leaves the view of a PROTOCOL fault. -/
theorem hostReadsRevealTheHostViewOnly : Obligations.HostReadsRevealTheHostViewOnly := by
  intro s u n rs ru h hs hu
  have hview : State.hostView { s with script := rs } = State.hostView { u with script := ru } := h
  obtain ⟨v, a, b⟩ | ⟨a, b⟩ | ⟨f, a, b⟩ := hostRead_of_hostView Config.params n hview <;>
    rw [← fetch_read hs] at a <;> rw [← fetch_read hu] at b
  · rw [step_of_settled a, step_of_settled b]
    exact ⟨fun t ht => by cases ht; exact ⟨_, rfl, rfl, h.symm⟩, fun f hf => by cases hf⟩
  · rw [step_of_settled a, step_of_settled b]
    exact ⟨fun t ht => by cases ht; exact ⟨_, rfl, rfl, rfl⟩, fun f hf => by cases hf⟩
  · rw [step, a, step, b]
    exact ⟨fun t ht => (by cases ht), fun g hg => hg⟩

/-! ### The engine's turn and the decoded command -/

theorem engineTurn_of_decode {s : State} {i : Instr} (h : decodeStage4 s.stage.code = .ok i) :
    engineTurn s = .instr i s := by
  simp only [engineTurn, h]

theorem engineTurn_resting {s : State} (h : s.stage = .idle ∨ s.stage = .fault) : engineTurn s = .settled s := by
  rcases h with h | h <;> rw [engineTurn, decodeStage4_code, h]

/-- A write of a defined opcode to CMD runs the command it decodes to; in FAULT, where the write is ignored, the command
changes nothing either (R71, R189). -/
theorem step_command {s : State} {c : BitVec 8} {i : Instr} {rest : List Event}
    (h : s.script = .write 0 (.nat c.toNat) :: rest) (hd : decodeCmd8 c = .ok i) :
    step s = exec i { s with script := rest } := by
  by_cases hf : s.stage = .fault
  · have hfit : valueFits .cmd (.nat c.toNat) = true := decide_eq_true c.isLt
    rw [step_of_settled ((fetch_write h).trans (hostWrite_image (r := .cmd) hfit (access_write_image hf)))]
    exact (exec_command_ignored (s := { s with script := rest }) (mem_commands_of_decodeCmd8 hd) hf).symm
  · have hacc := access_outside_fault (s := { s with script := rest }) hf .cmd .write
    refine step_of_instr ((fetch_write h).trans ((hostWrite_cmd c.isLt hacc).trans ?_))
    simp only [issue, BitVec.ofNat_toNat, BitVec.setWidth_eq, hd]

/-- Settles O4: the fetch at each head of the script. -/
theorem stepRunsTheDecodedInstruction : Obligations.StepRunsTheDecodedInstruction := by
  refine ⟨fun s c i rest h hd => step_command h hd, fun s i hd => ⟨fun h => ?_, fun rest h => ?_, fun c rest h hc => ?_⟩,
    fun s hg => ⟨fun h => ?_, fun rest h => ?_⟩⟩
  · exact step_of_instr ((fetch_empty h).trans (engineTurn_of_decode hd))
  · exact step_of_instr ((fetch_engine h).trans (engineTurn_of_decode hd))
  · refine step_of_instr ((fetch_await h).trans ?_)
    rw [hostAwait, hc]
    exact engineTurn_of_decode hd
  · exact step_of_settled ((fetch_empty h).trans (engineTurn_resting hg))
  · exact step_of_settled ((fetch_engine h).trans (engineTurn_resting hg))

/-! ### One of several machines (R43) -/

/-- If it answers, the machine numbered `i` took its own step and the list holds the result in its place. -/
theorem stepInstance_next {i : Nat} {all all' : List State} (h : stepInstance i all = .next all') :
    ∃ s t, all[i]? = some s ∧ step s = .next t ∧ all' = all.set i t := by
  unfold stepInstance at h
  split at h
  · cases h
  · next s hs =>
    split at h
    · next t ht => cases h; exact ⟨s, t, hs, ht, rfl⟩
    · cases h
    · cases h

/-- Settles O5: the step writes its own place in the list. -/
theorem instancesAreIndependent : Obligations.InstancesAreIndependent := by
  intro i all all' h
  obtain ⟨s, t, hs, ht, rfl⟩ := stepInstance_next h
  obtain ⟨hi, -⟩ := List.getElem?_eq_some_iff.mp hs
  exact ⟨List.length_set, fun j hj => List.getElem?_set_ne hj.symm, s, t, hs, ht, List.getElem?_set_self hi⟩

end Sys2Proof.Machine
end

section
/-! The big-endian conversions (R52): an octet string is what it denotes at its length, and the octets of a natural are
its base-256 digits. -/

namespace Sys2Proof.Machine

/-- Octet strings of one length that denote the same natural are equal: the first octet and the rest are quotient and
remainder by `256^len`. -/
theorem os2i_injective {s t : Octets} (hlen : s.length = t.length) (h : os2i s = os2i t) : s = t := by
  induction s generalizing t with
  | nil => exact (List.length_eq_zero_iff.mp hlen.symm).symm
  | cons b s ih =>
    obtain - | ⟨c, t⟩ := t
    · cases hlen
    have hlen' : s.length = t.length := Nat.succ.inj hlen
    have hs := os2i_lt s
    have ht := os2i_lt t
    rw [← hlen'] at ht
    rw [os2i_cons, os2i_cons, ← hlen', Nat.add_comm, Nat.add_comm (c.toNat * _)] at h
    have hrest : os2i s = os2i t := by
      rw [← Nat.mod_eq_of_lt hs, ← Nat.mod_eq_of_lt ht, ← Nat.add_mul_mod_self_right, h, Nat.add_mul_mod_self_right]
    have hpow : 0 < 256 ^ s.length := by positivity
    have hfirst : b.toNat = c.toNat := Nat.eq_of_mul_eq_mul_right hpow (by omega)
    rw [BitVec.eq_of_toNat_eq hfirst, ih hlen' hrest]

theorem os2i_i2os {v n : Nat} (h : v < 256 ^ n) : os2i (i2os v n) = v := by
  rw [os2i_i2os_mod, Nat.mod_eq_of_lt h]

theorem i2os_os2i (s : Octets) : i2os (os2i s) s.length = s :=
  os2i_injective (i2os_length ..) (os2i_i2os (os2i_lt s))

/-- Octet `i` of `n` is the base-256 digit of weight `256^(n-1-i)`. -/
theorem i2os_getElem? {v n i : Nat} (h : i < n) :
    (i2os v n)[i]? = some (BitVec.ofNat 8 (v / 256 ^ (n - 1 - i) % 256)) := by
  induction n generalizing i with
  | zero => cases h
  | succ n ih =>
    cases i with
    | zero =>
      refine congrArg some (BitVec.eq_of_toNat_eq ?_)
      simp
    | succ i =>
      have hexp : n + 1 - 1 - (i + 1) = n - 1 - i := by omega
      rw [i2os, List.getElem?_cons_succ, ih (by omega), hexp]

theorem os2i_rep_zero (m : Nat) : os2i (rep 0x00#8 m) = 0 := by
  induction m with
  | zero => rfl
  | succ m ih =>
    show os2i (0x00#8 :: rep 0x00#8 m) = 0
    simp [os2i_cons, ih]

theorem os2i_leading_zeros (m : Nat) (s : Octets) : os2i (rep 0x00#8 m ++ s) = os2i s := by
  rw [os2i_append, os2i_rep_zero, Nat.zero_mul, Nat.zero_add]

/-- Settles O19: each law by the lemma that states it; `256^n` is the bound `2^(8n)` of int2octets. -/
theorem bigEndianConversionLaws : Obligations.BigEndianConversionLaws :=
  ⟨os2i_nil, rfl, os2i_cons, fun v n => ⟨i2os_length v n, os2i_i2os⟩, i2os_os2i, fun _ _ _ => i2os_getElem?, os2i_lt,
    os2i_leading_zeros, os2i_append,
    fun _ n => ⟨fun h => int2octets_of_lt (pow256 n ▸ h), fun h => int2octets_of_ge (pow256 n ▸ h)⟩⟩

end Sys2Proof.Machine
end

section
/-! What a whole step can do, said once: `step_outcome`. The windows of KOUT and EOUT (R58) follow from it. -/

namespace Sys2Proof.Machine

/-! ### The step, case by case -/

/-- The step settles a transaction that changes no item. -/
def StepRests (s t : State) : Prop := ∃ sc r, t = { s with script := sc, reply := r }

/-- The step takes a fault, from outside FAULT, or a reset: the data items at their reset values (R188, R210). -/
def StepErases (s t : State) : Prop :=
  (s.stage ≠ .fault ∧ ∃ c sc r, c ≠ .none ∧ t = { faultEntry c s with script := sc, reply := r })
    ∨ ∃ sc, s.script = .reset :: sc ∧ t = { eraseItems s with script := sc }

/-- The step stores one host operand, in IDLE (R39). -/
def StepStores (s t : State) : Prop := s.stage = .idle ∧ ∃ q x ibuf aint sc, t = { s with q, x, ibuf, aint, script := sc }

/-- The step performs an instruction to its effect, a micro-operation only where STAGE names it (R32). -/
def StepPerforms (s t : State) : Prop :=
  ∃ i sc, Effect { s with script := sc } i t ∧ ∀ g, stageOf i = some g → s.stage = g

theorem step_outcome {s t : State} (h : step s = .next t) :
    StepRests s t ∨ StepErases s t ∨ StepStores s t ∨ StepPerforms s t := by
  obtain ⟨i, u, hf, hexec⟩ | hf := step_cases h
  · obtain ⟨sc, rfl⟩ := eq_of_fetch_instr hf
    obtain ⟨-, rfl⟩ | ⟨hs, c, hc, rfl⟩ | heff := exec_outcome hexec
    · exact .inl ⟨sc, s.reply, rfl⟩
    · exact .inr (.inl (.inl ⟨hs, c, sc, s.reply, hc, rfl⟩))
    · exact .inr (.inr (.inr ⟨i, sc, heff, fun g hg => stage_of_fetch_instr hf hg⟩))
  · obtain ⟨sc, r, rfl⟩ | ⟨hs, c, sc, r, hc, rfl⟩ | ⟨rest, hreset, rfl⟩ | ⟨hg, sc, hstore⟩ := fetch_settled hf
    · exact .inl ⟨sc, r, rfl⟩
    · exact .inr (.inl (.inl ⟨hs, c, sc, r, hc, rfl⟩))
    · exact .inr (.inl (.inr ⟨rest, hreset, rfl⟩))
    · refine .inr (.inr (.inl ⟨hg, ?_⟩))
      obtain ⟨n, -, rfl⟩ | ⟨n, -, rfl⟩ | ⟨n, -, rfl⟩ | ⟨o, -, rfl⟩ := hstore <;> exact ⟨_, _, _, _, sc, rfl⟩

theorem StepErases.stage_ne_predWait {s t : State} (h : StepErases s t) : t.stage ≠ .predWait := by
  obtain ⟨-, c, sc, r, -, rfl⟩ | ⟨sc, -, rfl⟩ := h <;> simp

theorem StepErases.rv {s t : State} (h : StepErases s t) : t.rv = false := by
  obtain ⟨-, c, sc, r, -, rfl⟩ | ⟨sc, -, rfl⟩ := h <;> rfl

/-! ### The windows -/

/-- In PRED_WAIT an effect that stays there is the engine's own: it changes nothing (R122). -/
theorem eq_of_effect_in_predWait {i : Instr} {s t : State} (h : Effect s i t)
    (hstage : ∀ g, stageOf i = some g → s.stage = g) (hs : s.stage = .predWait) (ht : t.stage = .predWait) : t = s := by
  cases h
  case predWait => rfl
  all_goals simp_all [stageOf]

/-- In IDLE an effect that leaves RV set is a codec command's (R95 to R98). -/
theorem keeps_result_of_effect_in_idle {i : Instr} {s t : State} (h : Effect s i t)
    (hstage : ∀ g, stageOf i = some g → s.stage = g) (hs : s.stage = .idle) (ht : t.rv = true) :
    t.kout = s.kout ∧ t.eout = s.eout ∧ t.stage = .idle := by
  cases h
  case bits2int | int2octets | bits2intmodq | bits2octets => exact ⟨rfl, rfl, hs⟩
  all_goals simp_all [stageOf]

/-- Settles O47: a step from PRED_WAIT that stays there changes no item; a step that keeps RV at 1 in IDLE is no erasure and
writes neither KOUT nor EOUT. -/
theorem resultWindowsAreStable : Obligations.ResultWindowsAreStable := by
  intro s t hstep
  refine ⟨fun hs ht => ?_, fun hs _ ht => ?_⟩
  · have hrests : StepRests s t := by
      obtain hrest | herase | ⟨hidle, -⟩ | ⟨i, sc, heff, hstage⟩ := step_outcome hstep
      · exact hrest
      · exact absurd ht herase.stage_ne_predWait
      · rw [hs] at hidle; cases hidle
      · exact ⟨sc, s.reply, eq_of_effect_in_predWait heff hstage hs ht⟩
    obtain ⟨sc, r, rfl⟩ := hrests
    exact frame_refl [] _
  · obtain ⟨sc, r, rfl⟩ | herase | ⟨-, q, x, ibuf, aint, sc, rfl⟩ | ⟨i, sc, heff, hstage⟩ := step_outcome hstep
    · exact ⟨rfl, rfl, hs⟩
    · rw [herase.rv] at ht; cases ht
    · exact ⟨rfl, rfl, hs⟩
    · exact keeps_result_of_effect_in_idle (s := { s with script := sc }) heff hstage hs ht

end Sys2Proof.Machine
end

section
/-! No instruction reads the model's own fields, and no micro-operation writes what the host can read while it runs: so a
host read and the engine's turn may come in either order (R57). -/

namespace Sys2Proof.Machine

/-! ### Outcomes in sequence -/

/-- The outcome of `f` after the outcome `o`, which a stop of the model ends. -/
def andThen (o : Out) (f : State → Out) : Out :=
  match o with
  | .next s => f s
  | .fault r => .fault r
  | .refused r => .refused r

theorem andThen_next_right (o : Out) : andThen o .next = o := by cases o <;> rfl

theorem andThen_assoc (o : Out) (f g : State → Out) :
    andThen (andThen o f) g = andThen o fun s => andThen (f s) g := by
  cases o <;> rfl

theorem andThen_congr {o : Out} {f g : State → Out} (h : ∀ s, o = .next s → f s = g s) : andThen o f = andThen o g := by
  cases o with
  | next s => exact h s rfl
  | fault | refused => rfl

theorem run_succ_eq_andThen (n : Nat) (s : State) : core.run (n + 1) s = andThen (step s) (core.run n) := by
  have hstep : core.step s = step s := rfl
  simp only [Host.Core.run, hstep]
  cases step s <;> rfl

theorem run_two (s : State) : core.run 2 s = andThen (step s) step := by
  rw [run_succ_eq_andThen]
  refine andThen_congr fun t _ => ?_
  rw [run_succ_eq_andThen]
  exact andThen_next_right _

/-! ### No instruction reads the model's own fields -/

/-- The same items, with another script and reply. -/
def State.setOwn (sc : List Event) (r : Option Value) (s : State) : State := { s with script := sc, reply := r }

/-- The same outcome, with another script and reply in the state it leaves. -/
def setOwnAfter (sc : List Event) (r : Option Value) (o : Out) : Out := andThen o fun t => .next (t.setOwn sc r)

section OwnFields
variable {sc : List Event} {r : Option Value}

theorem need_setOwnAfter {α : Type} {a : Option α} {f : Fault} {body body' : α → Out}
    (h : ∀ x, body' x = setOwnAfter sc r (body x)) : need a f body' = setOwnAfter sc r (need a f body) := by
  cases a with
  | none => rfl
  | some x => exact h x

theorem ite_setOwnAfter {p : Prop} [Decidable p] {o₁ o₂ o₁' o₂' : Out} (h₁ : o₁' = setOwnAfter sc r o₁)
    (h₂ : o₂' = setOwnAfter sc r o₂) : ite p o₁' o₂' = setOwnAfter sc r (ite p o₁ o₂) := by
  rw [h₁, h₂, apply_ite (setOwnAfter sc r)]

theorem command_setOwn {c : StageClass} {body : State → Out} {s : State}
    (h : body (s.setOwn sc r) = setOwnAfter sc r (body s)) :
    command c body (s.setOwn sc r) = setOwnAfter sc r (command c body s) :=
  ite_setOwnAfter (p := s.cls = .fault) rfl (ite_setOwnAfter (p := s.cls = c) h rfl)

variable (s : State)

theorem execInt2octets_setOwn : execInt2octets (s.setOwn sc r) = setOwnAfter sc r (execInt2octets s) := by
  refine command_setOwn ?_
  dsimp only [State.setOwn]
  split <;> rfl

theorem execGenerate_setOwn : execGenerate (s.setOwn sc r) = setOwnAfter sc r (execGenerate s) := by
  refine command_setOwn (ite_setOwnAfter rfl ?_)
  dsimp only [State.setOwn]
  split
  · rfl
  · exact ite_setOwnAfter rfl rfl

theorem tBlock_setOwn (P : Params) : tBlock P (s.setOwn sc r) = setOwnAfter sc r (tBlock P s) :=
  need_setOwnAfter fun _ =>
    ite_setOwnAfter (need_setOwnAfter fun _ => need_setOwnAfter fun _ => rfl) rfl

/-- No instruction reads the script or the reply, and none writes them. -/
theorem exec_setOwn (i : Instr) : exec i (s.setOwn sc r) = setOwnAfter sc r (exec i s) := by
  cases i <;> dsimp only [exec]
  case bits2int => exact command_setOwn (by rfl)
  case int2octets => exact execInt2octets_setOwn s
  case bits2intmodq => exact command_setOwn (ite_setOwnAfter rfl rfl)
  case bits2octets => exact command_setOwn (ite_setOwnAfter rfl (need_setOwnAfter fun _ => rfl))
  case generate => exact execGenerate_setOwn s
  case accept | reject | clear => exact command_setOwn rfl
  case seed => exact need_setOwnAfter fun _ => need_setOwnAfter fun _ => need_setOwnAfter fun _ => rfl
  case init | tReset | predWait => rfl
  case ratchD | ratchF => exact need_setOwnAfter fun _ => need_setOwnAfter fun _ => need_setOwnAfter fun _ => rfl
  case ratchE | ratchG | updK | updV => exact need_setOwnAfter fun _ => need_setOwnAfter fun _ => rfl
  case tBlock => exact tBlock_setOwn s _
  case formK | range => exact need_setOwnAfter fun _ => rfl

end OwnFields

/-! ### What the engine leaves readable -/

/-- A micro-operation takes no fault: what it answers is its effect. -/
theorem effect_of_microOp {i : Instr} {g : Stage} {s t : State} (hi : stageOf i = some g) (h : exec i s = .next t) :
    Effect s i t := by
  cases i
  case seed => exact effect_of_seed h
  case tBlock => exact effect_of_tBlock h
  case range => exact effect_of_range h
  case init | tReset | predWait => cases h; constructor
  case formK => obtain ⟨o, ho, h⟩ := need_next h; cases h; exact .formK ho
  case ratchD | ratchF => obtain ⟨k, v, sd, hk, hv, hsd, rfl⟩ := ratchKey_next h; constructor <;> assumption
  case ratchE | ratchG | updK | updV =>
    obtain ⟨k, hk, h⟩ := need_next h
    obtain ⟨v, hv, h⟩ := need_next h
    cases h
    constructor <;> assumption
  all_goals cases hi

/-- An effect outside FAULT stays outside (R189). -/
theorem stage_ne_fault_of_effect {i : Instr} {s t : State} (h : Effect s i t) (hs : s.stage ≠ .fault) :
    t.stage ≠ .fault := by
  cases h <;> simp_all

/-- The registers readable while a generation runs, STATUS apart. -/
def runReadable : List Reg := [.q, .ibuf, .aint, .rint, .obuf, .qlen, .rolen, .hlen]

/-- Their numbers (R76). -/
theorem runReadable_numbers : runReadable.map regNum = [2, 4, 5, 6, 7, 10, 11, 12] := rfl

/-- They show Q and the codec's registers, which no micro-operation writes. -/
theorem regValue_of_effect {P : Params} {i : Instr} {g : Stage} {s t : State} {r : Reg} (hi : stageOf i = some g)
    (h : Effect s i t) (hr : r ∈ runReadable) : regValue P t r = regValue P s r := by
  have hfixed {j : Item} (hj : j ∈ [Item.q, .ibuf, .aint, .rint, .obuf]) : SameItem j s t :=
    sameItem_of_effect h (by revert j; cases i <;> cases hi <;> decide)
  have hq : t.q = s.q := hfixed (j := .q) (by simp)
  have hibuf : t.ibuf = s.ibuf := hfixed (j := .ibuf) (by simp)
  have haint : t.aint = s.aint := hfixed (j := .aint) (by simp)
  have hrint : t.rint = s.rint := hfixed (j := .rint) (by simp)
  have hobuf : t.obuf = s.obuf := hfixed (j := .obuf) (by simp)
  cases r <;> simp [runReadable] at hr <;> simp only [regValue, hq, hibuf, haint, hrint, hobuf]

theorem exists_regValue {r : Reg} (hr : r ∈ runReadable) (P : Params) (s : State) : ∃ v, regValue P s r = some v := by
  cases r <;> simp [runReadable] at hr <;> exact ⟨_, rfl⟩

/-- Such a read is answered, whatever the script and the reply. -/
theorem step_read_runReadable {s : State} {r : Reg} {v : Value} (hs : s.stage ≠ .fault) (hr : r ∈ runReadable)
    (hv : regValue Config.params s r = some v) (rest : List Event) (a : Option Value) :
    step (s.setOwn (.read (regNum r) :: rest) a) = .next (s.setOwn rest (some v)) :=
  step_read_readable (s := s.setOwn (.read (regNum r) :: rest) a) hs rfl (List.subset_cons_self .status _ hr) hv

/-- The engine's turn performs the micro-operation, whatever the script and the reply. -/
theorem step_engine_setOwn {s : State} {i : Instr} (hi : decodeStage4 s.stage.code = .ok i) (rest : List Event)
    (a : Option Value) : step (s.setOwn (.engine :: rest) a) = setOwnAfter rest a (exec i s) := by
  have hturn : engineTurn (s.setOwn rest a) = .instr i (s.setOwn rest a) := engineTurn_of_decode hi
  exact (step_of_instr ((fetch_engine (s := s.setOwn (.engine :: rest) a) rfl).trans hturn)).trans (exec_setOwn s i)

/-- In class RUN the stage register names a micro-operation (R32). -/
theorem microOp_of_run {s : State} (h : s.cls = .run) : ∃ i, decodeStage4 s.stage.code = .ok i := by
  cases hd : decodeStage4 s.stage.code with
  | ok i => exact ⟨i, rfl⟩
  | error e =>
    have hsettled : engineTurn s = .settled s := by simp only [engineTurn, hd]
    obtain ⟨hg | hg, -⟩ := engineTurn_settled hsettled <;> simp [State.cls, hg, Stage.cls] at h

/-- Settles O49: both orders are the engine's outcome, and the state it leaves gives the value read before it. -/
theorem readsCommuteWithTheEngine : Obligations.ReadsCommuteWithTheEngine := by
  intro s n rest hrun hn
  rw [← runReadable_numbers] at hn
  obtain ⟨r, hr, rfl⟩ := List.mem_map.mp hn
  obtain ⟨v, hv⟩ := exists_regValue hr Config.params s
  obtain ⟨i, hi⟩ := microOp_of_run hrun
  have hstage := stageOf_of_decodeStage4 hi
  have hs : s.stage ≠ .fault := fun hf => by simp [(cls_fault_iff s).mpr hf] at hrun
  have hlast (t : State) (ht : exec i s = .next t) :
      step (t.setOwn (.read (regNum r) :: rest) s.reply) = .next (t.setOwn rest (some v)) := by
    have heff := effect_of_microOp hstage ht
    exact step_read_runReadable (stage_ne_fault_of_effect heff hs) hr ((regValue_of_effect hstage heff hr).trans hv) ..
  have hreadFirst : core.run 2 (s.setOwn (.read (regNum r) :: .engine :: rest) s.reply)
      = setOwnAfter rest (some v) (exec i s) := by
    rw [run_two, step_read_runReadable hs hr hv]
    exact step_engine_setOwn hi rest (some v)
  have hengineFirst : core.run 2 (s.setOwn (.engine :: .read (regNum r) :: rest) s.reply)
      = setOwnAfter rest (some v) (exec i s) := by
    rw [run_two, step_engine_setOwn hi, setOwnAfter, andThen_assoc]
    exact andThen_congr hlast
  exact hreadFirst.trans hengineFirst.symm

end Sys2Proof.Machine
end

section
/-! Codes and instructions (R71, R73, R80): a code that decodes stands in its table beside its instruction. -/

namespace Sys2Proof

/-- Settles O1: the decoder evaluated at each of the words. -/
theorem writtenOutWordsDecode : Obligations.WrittenOutWordsDecode :=
  ⟨rfl, rfl, rfl, rfl, rfl, rfl, rfl, rfl, rfl, rfl, rfl, rfl, rfl⟩

theorem decode_encode (i : Instr) : decode (encode i) = .ok i := by cases i <;> rfl

theorem mem_cmd8Table_of_decodeCmd8 {c : BitVec 8} {i : Instr} (h : decodeCmd8 c = .ok i) : (c, i) ∈ cmd8Table := by
  unfold decodeCmd8 at h
  split at h
  · next r hr =>
    cases h
    obtain rfl : r.1 = c := by simpa using List.find?_some hr
    exact List.mem_of_find?_eq_some hr
  · cases h

theorem mem_stage4Table_of_decodeStage4 {c : BitVec 4} {i : Instr} (h : decodeStage4 c = .ok i) :
    (c, i) ∈ stage4Table := by
  unfold decodeStage4 at h
  split at h
  · next r hr =>
    cases h
    obtain rfl : r.1 = c := by simpa using List.find?_some hr
    exact List.mem_of_find?_eq_some hr
  · split at h <;> cases h

/-- Each row of the opcode map holds the code of its instruction (R71). -/
theorem encode_of_mem_cmd8Table : ∀ r ∈ cmd8Table, encode r.2 = .cmd8 r.1 := by decide

/-- Each row of the stage codes holds the code of its micro-operation (R73). -/
theorem encode_of_mem_stage4Table : ∀ r ∈ stage4Table, encode r.2 = .stage4 r.1 := by decide

theorem encode_of_decode {w : Encoding} {i : Instr} (h : decode w = .ok i) : encode i = w := by
  cases w with
  | cmd8 c => exact encode_of_mem_cmd8Table (c, i) (mem_cmd8Table_of_decodeCmd8 h)
  | stage4 c => exact encode_of_mem_stage4Table (c, i) (mem_stage4Table_of_decodeStage4 h)

/-- Settles O2: a code that decodes is the code in its instruction's row. -/
theorem decodingInvertsEncoding : Obligations.DecodingInvertsEncoding :=
  ⟨decode_encode, fun _ _ h => (encode_of_decode h).symm⟩

theorem decodeCmd8_of_encode {c : BitVec 8} {i : Instr} (h : encode i = .cmd8 c) : decodeCmd8 c = .ok i := by
  have hdec := decode_encode i
  rwa [h] at hdec

end Sys2Proof
end

section
/-! The script notation (R78, R79): a command outside its class, the step at each kind of line, and the pseudo-instructions
as runs of those steps. -/

namespace Sys2Proof.Machine

/-! ### Commands outside their class -/

theorem stage_ne_of_cls_ne {s : State} {g : Stage} (h : s.cls ≠ g.cls) : s.stage ≠ g :=
  fun hg => h (congrArg Stage.cls hg)

theorem execFaults_of_exec {i : Instr} {c : Cause} {s : State} (h : exec i s = .next (faultEntry c s)) :
    ExecFaults i c s :=
  ⟨_, h, faulted_faultEntry c s, rfl, rfl⟩

/-- Settles O10: a class that is neither the command's nor FAULT refuses it; in FAULT all eight are ignored. -/
theorem commandsOutsideTheirClassFault : Obligations.CommandsOutsideTheirClassFault := by
  refine ⟨fun i hi s hc => ?_, fun i hi s hc => ?_, fun i hi s hc => ?_⟩
  · refine execFaults_of_exec (exec_idle_command_refused hi (stage_ne_of_cls_ne ?_) (stage_ne_of_cls_ne ?_)) <;>
      rcases hc with hc | hc <;> simp only [hc] <;> decide
  · refine execFaults_of_exec (exec_answer_refused hi (stage_ne_of_cls_ne ?_) (stage_ne_of_cls_ne ?_)) <;>
      rcases hc with hc | hc <;> simp only [hc] <;> decide
  · have hsub : [Instr.bits2int, .int2octets, .bits2intmodq, .bits2octets, .generate, .accept, .reject, .clear] ⊆
        [Instr.bits2int, .int2octets, .bits2intmodq, .bits2octets, .generate, .clear, .accept, .reject] := by decide
    exact exec_command_ignored (hsub hi) ((cls_fault_iff s).mp hc)

/-! ### The line WAIT -/

theorem step_await_holds {s : State} {c : Cond} {rest : List Event} (h : s.script = .await c :: rest)
    (hc : condHolds c s = true) : step s = .next { s with script := rest, reply := some (.nat s.status.toNat) } :=
  step_of_settled ((fetch_await h).trans (if_pos hc))

theorem fetch_await_vain {P : Params} {s : State} {c : Cond} {rest : List Event} (h : s.script = .await c :: rest)
    (hc : condHolds c s = false) : fetch P s = engineTurn s :=
  (fetch_await h).trans (if_neg (by simp [hc]))

/-- A micro-operation leaves the model's own fields, and leaves the same items whatever the script. -/
theorem exec_microOp_script {i : Instr} {g : Stage} {s t : State} (hi : stageOf i = some g) (ht : exec i s = .next t)
    (sc : List Event) : t.script = s.script ∧ exec i { s with script := sc } = .next { t with script := sc } := by
  obtain ⟨-, -, hscript, hreply⟩ := frame_of_effect (effect_of_microOp hi ht)
  have hown : exec i (s.setOwn sc s.reply) = .next (t.setOwn sc t.reply) := by rw [exec_setOwn, ht, hreply]; rfl
  exact ⟨hscript, hown⟩

/-- Settles O57: where the poll is vain the engine's turn is a micro-operation or nothing at all. -/
theorem waitPollsStatus : Obligations.WaitPollsStatus := by
  refine fun s c rest h => ⟨step_await_holds h, fun t hc ht => ?_⟩
  have hfetch := fetch_await_vain (P := Config.params) h hc
  have halone := fetch_empty (P := Config.params) (s := { s with script := [] }) rfl
  cases hd : decodeStage4 s.stage.code with
  | ok i =>
    rw [step_of_instr (hfetch.trans (engineTurn_of_decode hd))] at ht
    rw [step_of_instr (halone.trans (engineTurn_of_decode hd))]
    exact exec_microOp_script (stageOf_of_decodeStage4 hd) ht []
  | error e =>
    have hrest (u : State) (hu : u.stage = s.stage) : engineTurn u = .settled u := by simp only [engineTurn, hu, hd]
    rw [step_of_settled (hfetch.trans (hrest s rfl))] at ht
    cases ht
    exact ⟨rfl, step_of_settled (halone.trans (hrest _ rfl))⟩

/-! ### The lines WR and CMD -/

theorem fitsOctets_iff {P : Params} {o : Octets} : fitsOctets P o = true ↔ FitsDlenMax P o := by
  unfold fitsOctets FitsDlenMax
  cases P.dlenMax <;> simp

section Lines
variable {s : State} {rest : List Event}

/-- In IDLE a write of an operand register stores the operand (R39). -/
theorem step_wr {r : Reg} {v : Value} (hr : r ∈ [Reg.q, .x, .ibuf, .aint]) (hfit : valueFits r v = true)
    (h : s.script = wr r v :: rest) (hg : s.stage = .idle) :
    step s = .next (storeOperand Config.params r v { s with script := rest }) := by
  have hacc := access_write_operand (s := { s with script := rest }) hg hr
  have hcmd : r ≠ .cmd := by rintro rfl; simp at hr
  exact step_of_settled ((fetch_write h).trans (hostWrite_store hcmd hfit hacc))

theorem step_wr_x {x : Nat} (h : s.script = wr .x (.nat x) :: rest) (hg : s.stage = .idle)
    (hx : FitsQbitsMax Config.params x) : step s = .next { s with script := rest, x := some x } :=
  (step_wr (by simp) rfl h hg).trans (congrArg _ (if_pos (fitsInt_iff.mpr hx)))

theorem step_wr_aint {v : Nat} (h : s.script = wr .aint (.nat v) :: rest) (hg : s.stage = .idle)
    (hv : FitsQbitsMax Config.params v) : step s = .next { s with script := rest, aint := v } :=
  (step_wr (by simp) rfl h hg).trans (congrArg _ (if_pos (fitsInt_iff.mpr hv)))

theorem step_wr_ibuf {d : Octets} (h : s.script = wr .ibuf (.octets d) :: rest) (hg : s.stage = .idle)
    (hd : FitsDlenMax Config.params d) : step s = .next { s with script := rest, ibuf := d } :=
  (step_wr (by simp) rfl h hg).trans (congrArg _ (if_pos (fitsOctets_iff.mpr hd)))

/-- The line `CMD <mnemonic>` runs its command (R78). -/
theorem step_cmd {i : Instr} {c : BitVec 8} (hi : encode i = .cmd8 c) (h : s.script = cmd i ++ rest) :
    step s = exec i { s with script := rest } := by
  rw [cmd, hi] at h
  exact step_command h (decodeCmd8_of_encode hi)

/-- A store, a command performed after it in IDLE, and the read of its result; no instruction reads the script, so the
command's effect `u` may be given of the state `a` before its line is taken off. -/
theorem run_store_cmd_rd {a u : State} {i : Instr} {c : BitVec 8} {r : Reg} {w : Value} (hi : encode i = .cmd8 c)
    (hstore : step s = .next a) (h : a.script = (cmd i ++ [rd r]) ++ rest) (hexec : exec i a = .next u)
    (hu : u.stage = .idle) (hr : r ∈ runReadable) (hw : regValue Config.params u r = some w) :
    ∃ t, core.run 3 s = .next t ∧ t.script = rest ∧ t.stage = .idle ∧ t.reply = some w := by
  have hcmd : step a = .next (u.setOwn (rd r :: rest) a.reply) := by
    refine (step_cmd hi (h.trans (List.append_assoc ..))).trans ((exec_setOwn a i).trans ?_)
    rw [hexec]
    rfl
  have hread := step_read_runReadable (by simp [hu]) hr hw rest a.reply
  exact ⟨_, (run_succ 2 hstore).trans ((run_succ 1 hcmd).trans (run_one hread)), rfl, hu, rfl⟩

end Lines

/-! ### The pseudo-instructions -/

/-- GENERATE with admitted operands starts a generation (R111). -/
theorem exec_generate_admitted {s : State} {x : Nat} (hg : s.stage = .idle) (hq : 8 ≤ bitlen s.q) (hx : s.x = some x)
    (h1 : 1 ≤ x) (hlt : x < s.q) :
    exec .generate s = .next { s with rv := false, kout := none, eout := none, stage := .seed } := by
  rw [exec_generate hg, if_neg (show ¬ qlenOf s.q < qlenMin from Nat.not_lt.mpr hq), if_pos ⟨x, hx, h1, hlt⟩]

/-- Settles O55: three stores in IDLE, then GENERATE admits what they stored; the scalar fits as the order does. -/
theorem gensecretStartsAGeneration : Obligations.GensecretStartsAGeneration := by
  intro s q x d rest hg hq hd hq8 h1 hlt h
  have hx : FitsQbitsMax Config.params x := fun m hm => (bitlen_mono hlt.le).trans (hq m hm)
  have hstepQ := step_write_q h hg hq
  have hstepX := step_wr_x (s := { s with script := _, q := q }) (rest := wr .ibuf (.octets d) :: (cmd .generate ++ rest))
    rfl hg hx
  have hstepD := step_wr_ibuf (s := { s with script := _, q := q, x := some x }) (rest := cmd .generate ++ rest) rfl hg hd
  have hgen := (step_cmd (s := { s with script := cmd .generate ++ rest, q := q, x := some x, ibuf := d }) rfl rfl).trans
    (exec_generate_admitted hg hq8 rfl h1 hlt)
  exact ⟨_, (run_succ 3 hstepQ).trans ((run_succ 2 hstepX).trans ((run_succ 1 hstepD).trans (run_one hgen))),
    rfl, rfl, rfl, rfl, rfl, rfl⟩

section Codec
variable {s : State} {rest : List Event}

theorem exec_bits2intmodq_admitted (hg : s.stage = .idle) (hq : s.q ≠ 0) :
    exec .bits2intmodq s = .next { s with rint := bits2IntModQ s.ibuf s.q (qlenOf s.q) } := by
  rw [exec_bits2intmodq hg, if_neg hq]

theorem exec_bits2octets_admitted (hg : s.stage = .idle) (hq : s.q ≠ 0) :
    exec .bits2octets s =
      .next { s with obuf := i2os (bits2IntModQ s.ibuf s.q (qlenOf s.q)) (rolenOf s.q) } := by
  rw [exec_bits2octets hg, if_neg hq]

theorem run_b2i {d : Octets} (hg : s.stage = .idle) (hd : FitsDlenMax Config.params d) (h : s.script = b2i d ++ rest) :
    ∃ t, core.run 3 s = .next t ∧ t.script = rest ∧ t.stage = .idle ∧
      t.reply = some (.nat (bits2int d (qlenOf s.q))) :=
  run_store_cmd_rd (i := .bits2int) (r := .rint) rfl (step_wr_ibuf h hg hd) rfl (exec_bits2int hg) hg (by decide) rfl

theorem run_i2o {v : Nat} {o : Octets} (hg : s.stage = .idle) (hv : FitsQbitsMax Config.params v)
    (ho : int2octets v (rolenOf s.q) = some o) (h : s.script = i2o v ++ rest) :
    ∃ t, core.run 3 s = .next t ∧ t.script = rest ∧ t.stage = .idle ∧ t.reply = some (.octets o) :=
  run_store_cmd_rd (i := .int2octets) (r := .obuf) rfl (step_wr_aint h hg hv) rfl (exec_int2octets hg ho) hg (by decide)
    rfl

theorem run_b2iq {d : Octets} (hg : s.stage = .idle) (hq : s.q ≠ 0) (hd : FitsDlenMax Config.params d)
    (h : s.script = b2iq d ++ rest) :
    ∃ t, core.run 3 s = .next t ∧ t.script = rest ∧ t.stage = .idle ∧
      t.reply = some (.nat (bits2IntModQ d s.q (qlenOf s.q))) :=
  run_store_cmd_rd (i := .bits2intmodq) (r := .rint) rfl (step_wr_ibuf h hg hd) rfl (exec_bits2intmodq_admitted hg hq) hg
    (by decide) rfl

theorem run_b2o {d : Octets} (hg : s.stage = .idle) (hq : s.q ≠ 0) (hd : FitsDlenMax Config.params d)
    (h : s.script = b2o d ++ rest) :
    ∃ t, core.run 3 s = .next t ∧ t.script = rest ∧ t.stage = .idle ∧
      t.reply = some (.octets (i2os (bits2IntModQ d s.q (qlenOf s.q)) (rolenOf s.q))) :=
  run_store_cmd_rd (i := .bits2octets) (r := .obuf) rfl (step_wr_ibuf h hg hd) rfl (exec_bits2octets_admitted hg hq) hg
    (by decide) rfl

end Codec

/-- Settles O56: each script's run, and what the codec function's value denotes. -/
theorem codecScriptsReturnTheirResult : Obligations.CodecScriptsReturnTheirResult := by
  intro s d v rest hg hq hd hv hfit
  have hmod := bits2IntModQ_eq_mod d s.q hq
  obtain ⟨-, hvlen, hvval⟩ := int2octets_spec (int2octets_of_lt hv)
  have hred := (bits2IntModQ_lt d s.q hq).trans (lt_two_pow_rolen s.q)
  obtain ⟨-, hdlen, hdval⟩ := int2octets_spec (int2octets_of_lt hred)
  refine ⟨run_b2i hg hd, fun h => ?_, fun h => ?_, fun h => ?_⟩
  · obtain ⟨t, hrun, hscript, hstage, hreply⟩ := run_i2o hg hfit (int2octets_of_lt hv) h
    exact ⟨t, _, hrun, hscript, hstage, hreply, hvlen, hvval⟩
  · rw [← qlenOf, ← hmod]
    exact run_b2iq hg hq hd h
  · obtain ⟨t, hrun, hscript, hstage, hreply⟩ := run_b2o hg hq hd h
    exact ⟨t, _, hrun, hscript, hstage, hreply, hdlen, hdval.trans hmod⟩

end Sys2Proof.Machine
end

section
/-! The codec unit (40_codec): bits2int as one quotient, the relations between the codec functions (R100), and what the four
codec commands do in every class but FAULT (R95 to R98). -/

namespace Sys2Proof.Machine

/-! ### The codec functions -/

theorem bits2int_eq_ite (s : Octets) (m : Nat) :
    bits2int s m = if m < 8 * s.length then os2i s / 2 ^ (8 * s.length - m) else os2i s := by
  simp only [bits2int, Nat.shiftRight_eq_div_pow, gt_iff_lt]

/-- The two branches of bits2int are one quotient: a string no wider than `m` bits is divided by `2^0`. -/
theorem bits2int_eq_div (s : Octets) (m : Nat) : bits2int s m = os2i s / 2 ^ (8 * s.length - m) := by
  rw [bits2int_eq_ite]
  split
  · rfl
  · next h => rw [Nat.sub_eq_zero_of_le (Nat.le_of_not_lt h), pow_zero, Nat.div_one]

@[simp] theorem bits2int_nil (m : Nat) : bits2int [] m = 0 := by
  rw [bits2int_eq_div, os2i_nil, Nat.zero_div]

@[simp] theorem bits2int_zero (s : Octets) : bits2int s 0 = 0 := Nat.lt_one_iff.mp (bits2int_lt s 0)

/-- The octets behind a prefix are shifted out of what the whole string denotes. -/
theorem os2i_append_div (s t : Octets) : os2i (s ++ t) / 2 ^ (8 * t.length) = os2i s := by
  have ht := os2i_lt t
  rw [os2i_append, ← pow256, Nat.mul_comm, Nat.mul_add_div (by positivity), Nat.div_eq_of_lt ht, Nat.add_zero]

/-- Octets beyond the first `ceil(m/8)` never matter: they are divided away before the excess bits of the prefix are. -/
theorem bits2int_append {s : Octets} {m : Nat} (t : Octets) (h : m ≤ 8 * s.length) :
    bits2int (s ++ t) m = bits2int s m := by
  have hexp : 8 * (s ++ t).length - m = 8 * t.length + (8 * s.length - m) := by
    rw [List.length_append]
    omega
  rw [bits2int_eq_div, hexp, pow_add, ← Nat.div_div_eq_div_mul, os2i_append_div, ← bits2int_eq_div]

theorem bits2int_int2octets {v n : Nat} {o : Octets} (h : int2octets v n = some o) (m : Nat) :
    bits2int o m = v / 2 ^ (8 * n - m) := by
  obtain ⟨-, hlen, hval⟩ := int2octets_spec h
  rw [bits2int_eq_div, hlen, hval]

theorem bits2int_int2octets_of_le {v n m : Nat} {o : Octets} (h : int2octets v n = some o) (hm : 8 * n ≤ m) :
    bits2int o m = v := by
  rw [bits2int_int2octets h, Nat.sub_eq_zero_of_le hm, pow_zero, Nat.div_one]

/-- R94: the reduced digest integer always fits rolen octets. -/
theorem int2octets_bits2IntModQ (d : Octets) {q : Nat} (hq : q ≠ 0) :
    int2octets (bits2IntModQ d q (qlenOf q)) (rolenOf q) = some (i2os (bits2IntModQ d q (qlenOf q)) (rolenOf q)) :=
  int2octets_of_lt ((bits2IntModQ_lt d q hq).trans (lt_two_pow_rolen q))

/-- Settles O20: by the quotient form of bits2int; the order itself and the empty string are two digests that both reduce
to 0. -/
theorem codecRelations : Obligations.CodecRelations :=
  ⟨fun _ _ m _ h => ⟨bits2int_int2octets_of_le h, fun _ => bits2int_int2octets h m⟩,
    fun _ t _ h => bits2int_append t h,
    ⟨[0x83#8], [], 0x83, by decide, by decide⟩,
    fun d _ hq => ⟨_, int2octets_bits2IntModQ d hq, i2os_length ..⟩⟩

/-! ### The codec commands -/

section
variable {s : State}

theorem codec_command_protocol {i : Instr} (hi : i ∈ [Instr.bits2int, .int2octets, .bits2intmodq, .bits2octets])
    (hc : s.cls = .run ∨ s.cls = .wait) : ExecFaults i .protocol s := by
  obtain ⟨hidle, -, -⟩ := commandsOutsideTheirClassFault
  exact hidle i (List.mem_append_left [Instr.generate, .clear] hi) s hc

theorem int2octets_intRange (hg : s.stage = .idle) (h : 2 ^ (8 * rolenOf s.q) ≤ s.aint) :
    ExecFaults .int2octets .intRange s :=
  execFaults_of_exec (exec_int2octets_range hg (int2octets_of_ge h))

theorem bits2intmodq_qRange (hg : s.stage = .idle) (hq : s.q = 0) : ExecFaults .bits2intmodq .qRange s :=
  execFaults_of_exec (by rw [exec_bits2intmodq hg, if_pos hq])

theorem bits2octets_qRange (hg : s.stage = .idle) (hq : s.q = 0) : ExecFaults .bits2octets .qRange s :=
  execFaults_of_exec (by rw [exec_bits2octets hg, if_pos hq])

end

/-- Settles O21: bits2int is total, so IDLE has no fault; below `2^0` there is 0 only. -/
theorem bits2IntCommand : Obligations.Bits2IntCommand := by
  refine ⟨rfl, fun s => ⟨fun hg => ⟨_, exec_bits2int hg, bits2int_eq_ite .., bits2int_lt .., fun hq => ?_, fun hd => ?_,
    frame_of_effect (.bits2int hg)⟩, codec_command_protocol (by decide)⟩⟩
  · simp [hq, qlenOf]
  · simp [hd]

/-- Settles O22: int2octets answers exactly below the bound. -/
theorem int2OctetsCommand : Obligations.Int2OctetsCommand := by
  refine ⟨rfl, fun s => ⟨fun hg hfit => ?_, int2octets_intRange, codec_command_protocol (by decide)⟩⟩
  have ho : int2octets s.aint (rolenOf s.q) = some _ := int2octets_of_lt hfit
  obtain ⟨-, hlen, hval⟩ := int2octets_spec ho
  exact ⟨_, exec_int2octets hg ho, hlen, hval, frame_of_effect (.int2octets hg ho)⟩

/-- Settles O23: below `2^qlen` one subtraction of Q is the whole reduction. -/
theorem bits2IntModQCommand : Obligations.Bits2IntModQCommand :=
  ⟨rfl, fun s => ⟨fun hg hq => ⟨_, exec_bits2intmodq_admitted hg hq, rfl, bits2IntModQ_eq_mod _ _ hq,
    bits2IntModQ_lt _ _ hq, frame_of_effect (.bits2intmodq hg hq)⟩, bits2intmodq_qRange,
    codec_command_protocol (by decide)⟩⟩

/-- Settles O24: a reduced integer is below Q, which fits rolen octets, so there is no INT_RANGE. -/
theorem bits2OctetsCommand : Obligations.Bits2OctetsCommand := by
  refine ⟨rfl, fun s => ⟨fun hg hq => ?_, bits2octets_qRange, codec_command_protocol (by decide)⟩⟩
  have ho := int2octets_bits2IntModQ s.ibuf hq
  obtain ⟨-, hlen, hval⟩ := int2octets_spec ho
  exact ⟨_, exec_bits2octets_admitted hg hq, hlen, hval, hval.trans_lt (bits2IntModQ_lt _ _ hq),
    frame_of_effect (.bits2octets hg hq ho)⟩

end Sys2Proof.Machine
end

section
/-! GENERATE and the micro-operations one by one (R111 to R124): each obligation is the equation of its instruction in
`Laws/Exec` with the frame of its effect. -/

namespace Sys2Proof.Machine

/-- `Effect` is what `exec` answers, the converse of `exec_outcome`. -/
theorem exec_of_effect {i : Instr} {s t : State} (h : Effect s i t) : exec i s = .next t := by
  cases h with
  | bits2int hg => exact exec_bits2int hg
  | int2octets hg ho => exact exec_int2octets hg ho
  | bits2intmodq hg hq => exact exec_bits2intmodq_admitted hg hq
  | bits2octets hg hq ho =>
    cases (int2octets_bits2IntModQ s.ibuf hq).symm.trans ho
    exact exec_bits2octets_admitted hg hq
  | generate hg hq hx =>
    obtain ⟨x, hx, h1, hlt⟩ := hx
    exact exec_generate_admitted hg hq hx h1 hlt
  | accept hg => exact exec_accept hg
  | reject hg => exact exec_reject hg
  | clear hg => exact exec_clear hg
  | seed hx hxo heo => simp [exec, execSeed, hx, hxo, heo]
  | init => exact exec_init s
  | ratchD hk hv hs => exact exec_ratchD hk hv hs
  | ratchE hk hv => exact exec_ratchE hk hv
  | ratchF hk hv hs => exact exec_ratchF hk hv hs
  | ratchG hk hv => exact exec_ratchG hk hv
  | tReset => exact exec_tReset s
  | tBlockMore ho hk hv hlt => exact exec_tBlock_more ho hk hv hlt
  | tBlockDone ho hge => exact exec_tBlock_done ho hge
  | formK ho => exact exec_formK ho
  | rangeIn hk h1 hq => rw [exec_range hk, if_pos ⟨h1, hq⟩]
  | rangeOut hk hr => rw [exec_range hk, if_neg hr]
  | predWait => exact exec_predWait s
  | updK hk hv => exact exec_updK hk hv
  | updV hk hv => exact exec_updV hk hv

/-! ### GENERATE -/

theorem generate_qRange {s : State} (hg : s.stage = .idle) (hq : bitlen s.q < 8) : ExecFaults .generate .qRange s :=
  execFaults_of_exec (by rw [exec_generate hg, if_pos (show qlenOf s.q < qlenMin from hq)])

/-- X_RANGE comes after Q_RANGE (R190). -/
theorem generate_xRange {s : State} (hg : s.stage = .idle) (hq : 8 ≤ bitlen s.q)
    (hx : ∀ x, s.x = some x → x = 0 ∨ s.q ≤ x) : ExecFaults .generate .xRange s := by
  have hout : ¬ ∃ x, s.x = some x ∧ 1 ≤ x ∧ x < s.q := fun ⟨x, hsx, h1, hlt⟩ => by
    have := hx x hsx
    omega
  exact execFaults_of_exec
    (by rw [exec_generate hg, if_neg (show ¬ qlenOf s.q < qlenMin from Nat.not_lt.mpr hq), if_neg hout])

/-- Settles O25: the four classes of operands and stages. -/
theorem generateAdmission : Obligations.GenerateAdmission := by
  refine fun s => ⟨fun x hg hq hx h1 hlt => ?_, generate_qRange, generate_xRange, fun hc => ?_⟩
  · refine ⟨_, exec_generate_admitted hg hq hx h1 hlt, rfl, rfl, rfl, rfl, fun hcause => ?_,
      frame_of_effect (.generate hg hq ⟨x, hx, h1, hlt⟩)⟩
    rw [status_eq_iff, hcause]
    rfl
  · obtain ⟨hidle, -, -⟩ := commandsOutsideTheirClassFault
    exact hidle .generate (by decide) s hc

/-! ### The micro-operations -/

/-- Settles O26: x and e are below Q, so both fit rolen octets, which denote them. -/
theorem seedAssembly : Obligations.SeedAssembly := by
  intro s x hx hlt
  have he := bits2IntModQ_lt s.ibuf s.q (by omega)
  have hxo := int2octets_of_lt (hlt.trans (lt_two_pow_rolen s.q))
  have heo := int2octets_of_lt (he.trans (lt_two_pow_rolen s.q))
  obtain ⟨-, hxlen, hxval⟩ := int2octets_spec hxo
  obtain ⟨-, helen, heval⟩ := int2octets_spec heo
  refine ⟨_, _, _, _, exec_seed hx hlt, rfl, he, rfl, rfl, hxlen, helen, hxval, heval, fun hempty => ?_, rfl,
    frame_of_effect (.seed hx hxo heo)⟩
  rw [← qlenOf, bits2IntModQ_eq_mod _ _ (by omega), hempty, bits2int_nil, Nat.zero_mod]

/-- Settles O27: the fill octets are repetitions. -/
theorem chainInitialisation : Obligations.ChainInitialisation :=
  ⟨rfl, fun s => ⟨_, _, _, exec_init s, rfl, rfl, initV_length _, fun _ => List.eq_of_mem_replicate, initK_length _,
    fun _ => List.eq_of_mem_replicate, rfl, frame_of_effect .init⟩⟩

/-- Settles O28: the two rounds differ in the separator. -/
theorem ratchetKeyRounds : Obligations.RatchetKeyRounds := fun _ _ _ _ hk hv hs =>
  ⟨⟨_, exec_ratchD hk hv hs, rfl, rfl, frame_of_effect (.ratchD hk hv hs)⟩,
    ⟨_, exec_ratchF hk hv hs, rfl, rfl, frame_of_effect (.ratchF hk hv hs)⟩⟩

/-- Settles O29: one new V, three next stages. -/
theorem chainValueSteps : Obligations.ChainValueSteps := fun _ _ _ hk hv =>
  ⟨⟨_, exec_ratchE hk hv, rfl, rfl, frame_of_effect (.ratchE hk hv)⟩,
    ⟨_, exec_ratchG hk hv, rfl, rfl, rfl, rfl, frame_of_effect (.ratchG hk hv)⟩,
    ⟨_, exec_updV hk hv, rfl, rfl, frame_of_effect (.updV hk hv)⟩⟩

/-- Settles O30: T_RESET reads no item. -/
theorem productionStartsEmpty : Obligations.ProductionStartsEmpty := fun s =>
  ⟨_, exec_tReset s, rfl, rfl, frame_of_effect .tReset⟩

/-- Settles O31: below the threshold a block goes behind T's last octet, so the octets before it stay; at the threshold
STAGE alone changes. -/
theorem productionBlock : Obligations.ProductionBlock := by
  refine fun s o ho => ⟨fun k v hlt hk hv => ?_, fun hge => ?_⟩
  · refine ⟨_, exec_tBlock_more ho hk hv hlt, rfl, rfl, by rw [List.length_append, hmac_length], fun off hoff => ?_, rfl,
      frame_of_effect (.tBlockMore ho hk hv hlt)⟩
    simp [State.octetAt, State.buffer, ho, List.getElem?_append_left hoff]
  · refine ⟨_, exec_tBlock_done ho hge, rfl, frame_of_items (fun j hj => ?_) rfl rfl⟩
    cases j <;> simp [SameItem] at hj ⊢

/-- Settles O32: the candidate is bits2int of T. -/
theorem candidateFormation : Obligations.CandidateFormation := fun _ o ho =>
  ⟨_, _, exec_formK ho, rfl, bits2int_eq_ite o _, bits2int_lt o _, rfl, frame_of_effect (.formK ho)⟩

/-- Settles O33: the range test and its complement. -/
theorem rangeTestBranches : Obligations.RangeTestBranches := by
  intro s k hk
  by_cases hin : 1 ≤ k ∧ k < s.q
  · have ⟨h1, hq⟩ := hin
    refine ⟨_, exec_range hk, fun _ => if_pos hin, fun hout => by omega, ?_⟩
    rw [if_pos hin]
    exact frame_of_effect (.rangeIn hk h1 hq)
  · refine ⟨_, exec_range hk, fun h => absurd h hin, fun _ => if_neg hin, ?_⟩
    rw [if_neg hin]
    exact frame_of_effect (.rangeOut hk hin)

/-- Settles O35: message (c) of R62 carries no seed. -/
theorem retryKeyUpdate : Obligations.RetryKeyUpdate := fun _ _ _ hk hv =>
  ⟨_, exec_updK hk hv, rfl, rfl, frame_of_effect (.updK hk hv)⟩

end Sys2Proof.Machine
end

section
/-! The transitions of STAGE (R134): which edge of the graph each effect follows, and what a step that enters PRED_WAIT or
sets RV is (R129). -/

namespace Sys2Proof.Machine

/-- An effect follows an edge of the graph, or stays where it is. -/
theorem edge_of_effect {i : Instr} {s t : State} (h : Effect s i t) (hstage : ∀ g, stageOf i = some g → s.stage = g) :
    (s.stage, t.stage) ∈ stageGraph ∨ t.stage = s.stage := by
  cases h
  case bits2int | int2octets | bits2intmodq | bits2octets | predWait => exact .inr rfl
  case clear hg => exact .inr hg.symm
  case tBlockMore => exact .inr (hstage _ rfl).symm
  case generate hg _ _ | accept hg | reject hg => simp [hg, stageGraph]
  all_goals simp [hstage _ rfl, stageGraph]

/-- PRED_WAIT and the block loop alone keep STAGE on the engine's turn. -/
theorem edge_of_microOp {i : Instr} {s t : State} (h : Effect s i t) (hi : stageOf i = some s.stage) :
    (s.stage, t.stage) ∈ stageGraph ∨ t.stage = s.stage ∧ (restingStage s.stage = true ∨ s.stage = .tBlock) := by
  have hstage (g : Stage) (hg : stageOf i = some g) : s.stage = g := Option.some.inj (hi.symm.trans hg)
  refine (edge_of_effect h hstage).imp_right fun hstay => ⟨hstay, ?_⟩
  cases h
  case predWait => rw [hstage _ rfl]; decide
  case tBlockMore => exact .inr (hstage _ rfl)
  all_goals simp_all [stageOf]

/-- On the engine's turn the micro-operation of the stage is performed, or nothing at all in IDLE and FAULT (R32). -/
theorem edge_of_engine_turn {s t : State} (hstep : step s = .next t)
    (h : s.script = [] ∨ ∃ rest, s.script = .engine :: rest) :
    (s.stage, t.stage) ∈ stageGraph ∨ t.stage = s.stage ∧ (restingStage s.stage = true ∨ s.stage = .tBlock) := by
  obtain ⟨sc, hf⟩ : ∃ sc, fetch Config.params s = engineTurn { s with script := sc } :=
    h.elim (fun h => ⟨s.script, fetch_empty h⟩) fun ⟨rest, h⟩ => ⟨rest, fetch_engine h⟩
  obtain ⟨i, u, hi, hexec⟩ | hi := step_cases hstep
  · obtain ⟨hd, rfl⟩ := engineTurn_instr (hf.symm.trans hi)
    have hstage := stageOf_of_decodeStage4 hd
    exact edge_of_microOp (s := { s with script := sc }) (effect_of_microOp hstage hexec) hstage
  · obtain ⟨hg, rfl⟩ := engineTurn_settled (hf.symm.trans hi)
    refine .inr ⟨rfl, .inl ?_⟩
    rcases hg with hg | hg <;> rw [show s.stage = _ from hg] <;> rfl

/-- Settles O45: by the outcome of the step, an effect follows an edge or stays. -/
theorem stageGraphIsComplete : Obligations.StageGraphIsComplete := by
  refine fun s t hstep => ⟨?_, edge_of_engine_turn hstep⟩
  obtain ⟨sc, r, rfl⟩ | (⟨hs, c, sc, r, -, rfl⟩ | ⟨sc, hreset, rfl⟩) | ⟨-, q, x, ibuf, aint, sc, rfl⟩ |
    ⟨i, sc, heff, hstage⟩ := step_outcome hstep
  · exact .inr (.inl rfl)
  · exact .inr (.inr (.inl ⟨hs, rfl⟩))
  · exact .inr (.inr (.inr ⟨rfl, sc, hreset⟩))
  · exact .inr (.inl rfl)
  · exact (edge_of_effect heff hstage).imp_right .inl

/-! ### Offers and results -/

theorem offer_of_effect {i : Instr} {s t : State} (h : Effect s i t) (hstage : ∀ g, stageOf i = some g → s.stage = g)
    (ht : t.stage = .predWait) (hs : s.stage ≠ .predWait) :
    s.stage = .range ∧ ∃ k, t.kout = some k ∧ 1 ≤ k ∧ k < t.q := by
  cases h
  case rangeIn k hk h1 hq => exact ⟨hstage _ rfl, k, hk, h1, hq⟩
  all_goals simp_all

theorem result_of_effect {i : Instr} {s t : State} (h : Effect s i t) (ht : t.rv = true) (hs : s.rv = false) :
    s.stage = .predWait ∧ t.stage = .idle ∧ t.kout = s.kout ∧ t.eout = s.eout := by
  cases h
  case accept hg => exact ⟨hg, rfl, rfl, rfl⟩
  all_goals simp_all

/-- Settles O44: of the outcomes of a step an effect alone enters PRED_WAIT or sets RV. -/
theorem onlyRangedCandidatesAreOffered : Obligations.OnlyRangedCandidatesAreOffered := by
  intro s t hstep
  obtain ⟨sc, r, rfl⟩ | herase | ⟨-, q, x, ibuf, aint, sc, rfl⟩ | ⟨i, sc, heff, hstage⟩ := step_outcome hstep
  · exact ⟨fun ht hs => absurd ht hs, fun ht hs => by simp [hs] at ht⟩
  · exact ⟨fun ht => absurd ht herase.stage_ne_predWait, fun ht => by simp [herase.rv] at ht⟩
  · exact ⟨fun ht hs => absurd ht hs, fun ht hs => by simp [hs] at ht⟩
  · have hresult := result_of_effect (s := { s with script := sc }) heff
    exact ⟨offer_of_effect (s := { s with script := sc }) heff hstage, hresult⟩

end Sys2Proof.Machine
end

section
/-! The production loop (R119): how many blocks an attempt's T has, and how wide the candidate formed from it can be. -/

namespace Sys2Proof.Machine

section Production
variable (P : Params) (q : Nat)

theorem thresholdOf_le_blocks : thresholdOf q ≤ blocksOf P q * P.hlen :=
  Nat.le_of_not_lt (mt (lt_blocksOf_iff P q _).mpr (lt_irrefl _))

variable {P q} in
theorem eq_blocksOf {m : Nat} (hle : m ≤ blocksOf P q) (hge : thresholdOf q ≤ m * P.hlen) : m = blocksOf P q :=
  le_antisymm hle (Nat.le_of_not_lt (mt (lt_blocksOf_iff P q m).mp (Nat.not_lt.mpr hge)))

variable {P q} in
/-- Where HLEN divides the threshold the blocks fill it exactly. -/
theorem blocks_eq_thresholdOf (h : P.hlen ∣ thresholdOf q) : blocksOf P q * P.hlen = thresholdOf q := by
  obtain ⟨m, hm⟩ := h
  have hle : blocksOf P q ≤ m := by
    refine Nat.le_of_not_lt fun hlt => ?_
    have hbelow := (lt_blocksOf_iff P q m).mp hlt
    rw [hm, Nat.mul_comm] at hbelow
    exact lt_irrefl _ hbelow
  refine le_antisymm ?_ (thresholdOf_le_blocks P q)
  rw [hm, Nat.mul_comm]
  exact Nat.mul_le_mul_left _ hle

/-- From `m` whole blocks on, with fuel up to the threshold, the loop ends at nb whole blocks. -/
theorem produceLoop_length (k : Octets) {fuel m : Nat} {v t : Octets} (hm : t.length = m * P.hlen)
    (hle : m ≤ blocksOf P q) (hfuel : thresholdOf q ≤ t.length + fuel) :
    (produceLoop P (thresholdOf q) k fuel v t).2.length = blocksOf P q * P.hlen := by
  induction fuel generalizing m v t with
  | zero => rwa [eq_blocksOf hle (hm ▸ hfuel)] at hm
  | succ fuel ih =>
    rw [produceLoop]
    split
    · next hlt =>
      have hpos := hlen_pos P
      have hlen : (t ++ P.hmac k v).length = t.length + P.hlen := by rw [List.length_append, hmac_length]
      exact ih (by rw [hlen, hm, Nat.succ_mul]) ((lt_blocksOf_iff P q m).mpr (hm ▸ hlt)) (by omega)
    · next hge => rwa [eq_blocksOf hle (hm ▸ Nat.le_of_not_lt hge)] at hm

theorem produce_length (k v : Octets) : (produce P q k v).2.length = blocksOf P q * P.hlen :=
  produceLoop_length P q k (m := 0) (by simp) (Nat.zero_le _) (by simp)

/-- A candidate is below what the octets it is formed from allow (R120). -/
theorem bits2int_lt_of_length (o : Octets) (m : Nat) : bits2int o m < 2 ^ (8 * o.length) := by
  rw [bits2int_eq_div, ← pow256]
  exact (Nat.div_le_self ..).trans_lt (os2i_lt o)

end Production

/-- Settles O53: T has nb blocks, which fill the threshold exactly where HLEN divides it and pass it by an octet at least
where it does not. -/
theorem floorThresholdBoundsCandidates : Obligations.FloorThresholdBoundsCandidates := by
  intro P q k v
  have hlen := produce_length P q k v
  have hle := thresholdOf_le_blocks P q
  have hfloor : thresholdOf q = bitlen q / 8 := rfl
  refine ⟨hlen, fun ⟨hmod, hdvd⟩ => ?_, fun h => ?_⟩
  · rw [blocks_eq_thresholdOf hdvd, hfloor] at hlen
    exact ⟨by omega, hlen ▸ bits2int_lt_of_length _ _⟩
  · rcases h with hmod | hdvd
    · omega
    · have hne : thresholdOf q ≠ blocksOf P q * P.hlen := fun heq => hdvd (hfloor ▸ heq ▸ Nat.dvd_mul_left ..)
      omega

end Sys2Proof.Machine
end

section
/-! A machine that only a predicate agent serves: its next step is decided by STAGE and the script alone, is never a fault,
and leaves it so served. -/

namespace Sys2Proof.Machine

/-! ### What is fetched while a predicate agent's answers are to come -/

theorem fetch_command {P : Params} {s : State} {c : BitVec 8} {i : Instr} {rest : List Event} (hs : s.stage ≠ .fault)
    (h : s.script = .write 0 (.nat c.toNat) :: rest) (hd : decodeCmd8 c = .ok i) :
    fetch P s = .instr i { s with script := rest } := by
  have hacc := access_outside_fault (s := { s with script := rest }) hs .cmd .write
  refine (fetch_write h).trans ((hostWrite_cmd c.isLt hacc).trans ?_)
  simp only [issue, BitVec.ofNat_toNat, BitVec.setWidth_eq, hd]

/-- Outside PRED_WAIT an agent polls in vain or has nothing to say: it is the engine's turn (R154). -/
theorem fetch_answers {P : Params} {s : State} {as : List Bool} (h : s.script = answers as)
    (hs : s.stage ≠ .predWait) : fetch P s = engineTurn s := by
  have hvain : condHolds .predReq s = false := by simp [condHolds, State.predReq, hs]
  cases as with
  | nil => exact fetch_empty h
  | cons b as => cases b <;> exact fetch_await_vain h hvain

theorem decodeStage4_of_stageOf {i : Instr} {g : Stage} (h : stageOf i = some g) : decodeStage4 g.code = .ok i := by
  cases i <;> cases h <;> rfl

/-- In PRED_WAIT an agent's poll is done (R154). -/
theorem fetch_poll {P : Params} {s : State} {rest : List Event} (h : s.script = .await .predReq :: rest)
    (hg : s.stage = .predWait) :
    fetch P s = .settled { s with script := rest, reply := some (.nat s.status.toNat) } :=
  (fetch_await h).trans (if_pos (by simp [condHolds, State.predReq, hg]))

/-! ### A served machine -/

/-- `i` is what a served machine may perform in stage `g`: the stage's own micro-operation, or the agent's answer. -/
def Serves (i : Instr) (g : Stage) : Prop := stageOf i = some g ∨ g = .predWait ∧ i ∈ [Instr.accept, .reject]

/-- The agent's answers are to come; where it has just polled a request, its command is next. -/
def Served (g : Stage) (sc : List Event) : Prop :=
  (∃ as, sc = answers as) ∨ g = .predWait ∧ ∃ i ∈ [Instr.accept, .reject], ∃ as, sc = cmd i ++ answers as

theorem stage_of_serves {i : Instr} {g g' : Stage} (h : Serves i g) (hi : stageOf i = some g') : g = g' := by
  obtain h | ⟨-, h⟩ := h
  · exact Option.some.inj (h.symm.trans hi)
  · simp only [List.mem_cons, List.not_mem_nil, or_false] at h
    rcases h with rfl | rfl <;> cases hi

theorem effect_of_serves {i : Instr} {s t : State} (hi : Serves i s.stage) (h : exec i s = .next t) : Effect s i t := by
  obtain hi | ⟨hg, hi⟩ := hi
  · exact effect_of_microOp hi h
  · simp only [List.mem_cons, List.not_mem_nil, or_false] at hi
    rcases hi with rfl | rfl
    · cases (exec_accept hg).symm.trans h; exact .accept hg
    · cases (exec_reject hg).symm.trans h; exact .reject hg

/-- In stage `g` with the events `sc` to come nothing is performed, and `sc'` is still to come. -/
def Rests (g : Stage) (sc sc' : List Event) : Prop := ∀ s : State, s.stage = g → s.script = sc →
  ∃ r, fetch Config.params s = .settled { s with script := sc', reply := r }

/-- In stage `g` with the events `sc` to come `i` is performed, and `sc'` is still to come. -/
def Performs (g : Stage) (sc : List Event) (i : Instr) (sc' : List Event) : Prop := ∀ s : State, s.stage = g →
  s.script = sc → fetch Config.params s = .instr i { s with script := sc' }

theorem engine_turn_cases {g : Stage} {sc : List Event}
    (h : ∀ s : State, s.stage = g → s.script = sc → fetch Config.params s = engineTurn s) :
    Rests g sc sc ∨ ∃ i, stageOf i = some g ∧ Performs g sc i sc := by
  cases hd : decodeStage4 g.code with
  | ok i =>
    refine .inr ⟨i, stageOf_of_decodeStage4 hd, fun s hg hs => ?_⟩
    subst hg hs
    exact (h s rfl rfl).trans (engineTurn_of_decode hd)
  | error e =>
    refine .inl fun s hg hs => ⟨s.reply, ?_⟩
    subst hg hs
    exact (h s rfl rfl).trans (by simp only [engineTurn, hd])

theorem performs_cmd {i : Instr} {c : BitVec 8} {g : Stage} (hi : encode i = .cmd8 c) (hg : g ≠ .fault)
    (sc : List Event) : Performs g (cmd i ++ sc) i sc := by
  rintro s rfl hs
  rw [cmd, hi] at hs
  exact fetch_command hg hs (decodeCmd8_of_encode hi)

/-- What a served machine does next is decided by STAGE and the script alone. -/
theorem served_cases {g : Stage} {sc : List Event} (h : Served g sc) :
    (∃ sc', Served g sc' ∧ Rests g sc sc') ∨ ∃ i as, Serves i g ∧ Performs g sc i (answers as) := by
  obtain ⟨as, rfl⟩ | ⟨rfl, i, hi, as, rfl⟩ := h
  · have hturn (hf : ∀ s : State, s.stage = g → s.script = answers as → fetch Config.params s = engineTurn s) :
        (∃ sc', Served g sc' ∧ Rests g (answers as) sc') ∨
          ∃ i as', Serves i g ∧ Performs g (answers as) i (answers as') :=
      (engine_turn_cases hf).imp (fun hr => ⟨answers as, .inl ⟨as, rfl⟩, hr⟩)
        fun ⟨i, hi, hp⟩ => ⟨i, as, Or.inl hi, hp⟩
    by_cases hg : g = .predWait
    · subst hg
      match as with
      | [] => exact hturn fun s _ hs => fetch_empty hs
      | true :: as => exact .inl ⟨_, .inr ⟨rfl, .accept, by simp, as, rfl⟩, fun _ hg hs => ⟨_, fetch_poll hs hg⟩⟩
      | false :: as => exact .inl ⟨_, .inr ⟨rfl, .reject, by simp, as, rfl⟩, fun _ hg hs => ⟨_, fetch_poll hs hg⟩⟩
    · exact hturn fun s hs hsc => fetch_answers hsc (hs ▸ hg)
  · refine .inr ⟨i, as, .inr ⟨rfl, hi⟩, ?_⟩
    simp only [List.mem_cons, List.not_mem_nil, or_false] at hi
    rcases hi with rfl | rfl <;> exact performs_cmd rfl (by decide) _

/-- A step of a served machine: it rests, or it performs an instruction to its effect; it stays served. -/
theorem step_of_served {s t : State} (h : Served s.stage s.script) (hstep : step s = .next t) :
    Served t.stage t.script ∧
      ((∃ sc r, fetch Config.params s = .settled t ∧ t = { s with script := sc, reply := r }) ∨
        ∃ i as, fetch Config.params s = .instr i { s with script := answers as } ∧ Serves i s.stage ∧
          Effect { s with script := answers as } i t) := by
  obtain ⟨sc, hsc, hrest⟩ | ⟨i, as, hi, hperf⟩ := served_cases h
  · obtain ⟨r, hf⟩ := hrest s rfl rfl
    cases (step_of_settled hf).symm.trans hstep
    exact ⟨hsc, .inl ⟨sc, r, hf, rfl⟩⟩
  · have hf := hperf s rfl rfl
    have heff := effect_of_serves (s := { s with script := answers as }) hi ((step_of_instr hf).symm.trans hstep)
    obtain ⟨-, -, hscript, -⟩ := frame_of_effect heff
    exact ⟨.inl ⟨as, hscript⟩, .inr ⟨i, as, hf, hi, heff⟩⟩

end Sys2Proof.Machine
end

section
/-! A generation as a run. `Passage` carries a run together with the HMAC calls it makes and what it shows the predicate
agent; the set-up of the key chain, an attempt, a retry and the answers are passages, from which GenerateSecret (R125) is
put together. -/

namespace Sys2Proof.Machine

/-! ### Passages -/

/-- A run of at least one step is a step and a run. -/
theorem run_succ_inv {n : Nat} {s t : State} (h : core.run (n + 1) s = .next t) :
    ∃ u, step s = .next u ∧ core.run n u = .next t := by
  rw [run_succ_eq_andThen] at h
  cases hstep : step s with
  | next u => exact ⟨u, rfl, by rwa [hstep] at h⟩
  | fault | refused => rw [hstep] at h; cases h

theorem hmacCalls_add {a : Nat} {s t : State} (b : Nat) (h : core.run a s = .next t) :
    hmacCalls (a + b) s = hmacCalls a s + hmacCalls b t := by
  induction a generalizing s with
  | zero => cases h; simp [hmacCalls]
  | succ a ih =>
    obtain ⟨u, hstep, h⟩ := run_succ_inv h
    rw [Nat.add_right_comm]
    simp only [hmacCalls, hstep, ih h, Nat.add_assoc]

/-- `n` steps lead from `s` to `t`, make `calls` HMAC calls and show the predicate agent `pairs`. -/
structure Passage (n : Nat) (s t : State) (calls : Nat) (pairs : List (Option Nat × Option Nat)) : Prop where
  run : core.run n s = .next t
  calls_eq : hmacCalls n s = calls
  shown_eq : shown n s = pairs

section Passages
variable {s t u : State} {i : Instr}

theorem Passage.trans {a b c d : Nat} {l m : List (Option Nat × Option Nat)} (h : Passage a s t c l)
    (h' : Passage b t u d m) : Passage (a + b) s u (c + d) (l ++ m) :=
  ⟨(run_add b h.run).trans h'.run, by rw [hmacCalls_add b h.run, h.calls_eq, h'.calls_eq],
    by rw [shown_add b h.run, h.shown_eq, h'.shown_eq]⟩

theorem Passage.congr {n n' c c' : Nat} {l : List (Option Nat × Option Nat)} (h : Passage n s t c l) (hn : n = n')
    (hc : c = c') : Passage n' s t c' l := by subst hn hc; exact h

theorem Passage.of_instr (hf : fetch Config.params s = .instr i u) (hexec : exec i u = .next t) :
    Passage 1 s t (hmacCallsOf i u) (if t.stage = .predWait ∧ s.stage ≠ .predWait then [(t.kout, t.eout)] else []) := by
  have hstep := (step_of_instr hf).trans hexec
  exact ⟨run_one hstep, by simp [hmacCalls, hf, hstep], by simp [shown, hstep]⟩

theorem Passage.of_settled (hf : fetch Config.params s = .settled t) (ht : t.stage = s.stage) : Passage 1 s t 0 [] := by
  have hstep := step_of_settled hf
  exact ⟨run_one hstep, by simp [hmacCalls, hf, hstep], by simp [shown, hstep, ht]⟩

end Passages

/-! ### The engine's turn -/

/-- RANGE alone comes to PRED_WAIT (R134). -/
theorem stage_ne_predWait_of_effect {i : Instr} {s t : State} (h : Effect s i t) (hi : i ∉ [Instr.range, .predWait]) :
    t.stage ≠ .predWait := by
  cases h <;> simp_all

section Turns
variable {s t : State} {i : Instr} {as : List Bool}

/-- The engine's turn in a running stage. -/
theorem Passage.range_turn (h : s.script = answers as) (hi : stageOf i = some s.stage) (hne : i ≠ .predWait)
    (hexec : exec i s = .next t) :
    Passage 1 s t (hmacCallsOf i s) (if t.stage = .predWait then [(t.kout, t.eout)] else []) := by
  have hs : s.stage ≠ .predWait := fun hg => by
    rw [hg] at hi
    cases i <;> cases hi
    exact hne rfl
  have hf := (fetch_answers (P := Config.params) h hs).trans (engineTurn_of_decode (decodeStage4_of_stageOf hi))
  simpa [hs] using Passage.of_instr hf hexec

/-- A turn in a stage but RANGE shows nothing. -/
theorem Passage.turn (h : s.script = answers as) (hi : stageOf i = some s.stage) (hne : i ∉ [Instr.range, .predWait])
    (hexec : exec i s = .next t) : Passage 1 s t (hmacCallsOf i s) [] := by
  have ht := stage_ne_predWait_of_effect (effect_of_microOp hi hexec) hne
  simpa [ht] using Passage.range_turn h hi (by rintro rfl; simp at hne) hexec

end Turns

/-! ### An attempt -/

section Attempt
variable {s : State} {as : List Bool} {k : Octets}

/-- The last test of the loop: T is at the threshold, no block is left (R119). -/
theorem passage_loop_done {m : Nat} {v o : Octets} (hs : s.script = answers as) (hg : s.stage = .tBlock)
    (hv : s.v = some v) (ho : s.t = some o) (hm : o.length = m * Config.params.hlen)
    (hge : thresholdOf s.q ≤ o.length) :
    Passage (blocksOf Config.params s.q - m + 1) s { s with v := some v, t := some o, stage := .formK }
      (blocksOf Config.params s.q - m) [] := by
  have hleft : blocksOf Config.params s.q - m = 0 :=
    Nat.sub_eq_zero_of_le (Nat.le_of_not_lt (mt (lt_blocksOf_iff ..).mp (by omega)))
  have hcalls : hmacCallsOf .tBlock s = 0 := by simp [hmacCallsOf, ho, hge]
  have htest := Passage.turn hs (by rw [hg]; rfl) (by decide) (exec_tBlock_done ho hge)
  rw [← hv, ← ho]
  exact htest.congr (by omega) (by omega)

/-- The blocks of an attempt from its `m`-th on, and the last test, are what is left of the production loop. -/
theorem passage_blocks {fuel m : Nat} {v o : Octets} (hs : s.script = answers as) (hg : s.stage = .tBlock)
    (hk : s.k = some k) (hv : s.v = some v) (ho : s.t = some o) (hm : o.length = m * Config.params.hlen)
    (hfuel : thresholdOf s.q ≤ o.length + fuel) :
    Passage (blocksOf Config.params s.q - m + 1) s
      { s with
        v := some (produceLoop Config.params (thresholdOf s.q) k fuel v o).1
        t := some (produceLoop Config.params (thresholdOf s.q) k fuel v o).2
        stage := .formK }
      (blocksOf Config.params s.q - m) [] := by
  induction fuel generalizing s m v o with
  | zero => exact passage_loop_done hs hg hv ho hm hfuel
  | succ fuel ih =>
    rw [produceLoop]
    split
    · next hlt =>
      have hpos := hlen_pos Config.params
      have hlen : (o ++ Config.params.hmac k v).length = o.length + Config.params.hlen := by simp
      have hleft : blocksOf Config.params s.q - m = 1 + (blocksOf Config.params s.q - (m + 1)) := by
        have := (lt_blocksOf_iff Config.params s.q m).mpr (hm ▸ hlt)
        omega
      have hcalls : hmacCallsOf .tBlock s = 1 := by simp [hmacCallsOf, ho, hlt]
      have hblock := Passage.turn hs (by rw [hg]; rfl) (by decide) (exec_tBlock_more ho hk hv hlt)
      have hrest := ih (s := { s with
        v := some (Config.params.hmac k v), t := some (o ++ Config.params.hmac k v), stage := .tBlock })
        (m := m + 1) hs rfl hk rfl rfl (by rw [hlen, hm, Nat.succ_mul]) (hfuel.trans (by omega))
      exact (hblock.trans hrest).congr (by rw [hleft, Nat.add_assoc]) (by rw [hleft, hcalls])
    · next hge => exact passage_loop_done hs hg hv ho hm (Nat.le_of_not_lt hge)

/-- The state an attempt from K = `k` and V = `v` ends in (R118 to R121). -/
def attempted (s : State) (k v : Octets) : State :=
  let vt := produce Config.params s.q k v
  let cand := bits2int vt.2 (qlenOf s.q)
  { s with
    v := some vt.1, t := some vt.2, kout := some cand
    stage := if 1 ≤ cand ∧ cand < s.q then .predWait else .updK }

/-- An attempt takes nb + 4 steps and nb HMAC calls, and shows its candidate where it is in range. -/
theorem passage_attempt {v : Octets} (hs : s.script = answers as) (hg : s.stage = .tReset) (hk : s.k = some k)
    (hv : s.v = some v) :
    Passage (blocksOf Config.params s.q + 4) s (attempted s k v) (blocksOf Config.params s.q)
      (if (attempted s k v).stage = .predWait then [((attempted s k v).kout, s.eout)] else []) := by
  have hreset := Passage.turn hs (by rw [hg]; rfl) (by decide) (exec_tReset s)
  have hblocks := passage_blocks (s := { s with t := some [], stage := .tBlock }) (fuel := thresholdOf s.q) (m := 0)
    hs rfl hk hv rfl (by simp) (by simp)
  have hform := Passage.turn (s := { s with
      v := some (produce Config.params s.q k v).1, t := some (produce Config.params s.q k v).2, stage := .formK })
    hs rfl (by decide) (exec_formK rfl)
  have hrange := Passage.range_turn (s := { attempted s k v with stage := .range }) hs rfl (by decide) (exec_range rfl)
  exact (hreset.trans (hblocks.trans (hform.trans hrange))).congr (by simp; omega) (by simp [hmacCallsOf])

theorem exists_chain (h : Inv s) (hg : s.stage ∈ [Stage.tReset, .updK, .updV]) :
    ∃ k v, s.k = some k ∧ s.v = some v := by
  obtain ⟨-, -, ⟨⟨k, hk⟩, v, hv⟩, -, -⟩ := (stageFacts_producing hg).mp h.stage
  exact ⟨k, v, hk, hv⟩

/-- Settles O51: from K and V, which the invariant promises at T_RESET, an attempt is `passage_attempt`. -/
theorem attemptEndsAfterItsBlocks : Obligations.AttemptEndsAfterItsBlocks := by
  intro s h hg hs
  obtain ⟨k, v, hk, hv⟩ := exists_chain h (by simp [hg])
  exact ⟨attempted s k v, _, _, (passage_attempt (as := []) hs hg hk hv).run, rfl, produce_length .., rfl, rfl, rfl⟩

end Attempt

/-! ### A retry, and the answers to an offered candidate -/

section Answers
variable {s : State} {as : List Bool} {k v : Octets}

/-- UPD_K and UPD_V (R123, R124). -/
theorem passage_retry (hs : s.script = answers as) (hg : s.stage = .updK) (hk : s.k = some k) (hv : s.v = some v) :
    Passage 2 s
      { s with
        k := some (Config.params.hmac k (msgRetry v))
        v := some (Config.params.hmac (Config.params.hmac k (msgRetry v)) v)
        stage := .tReset } 2 [] := by
  have hupdK := Passage.turn hs (by rw [hg]; rfl) (by decide) (exec_updK hk hv)
  exact hupdK.trans (.turn hs rfl (by decide) (exec_updV rfl hv))

theorem hmacCallsOf_command {i : Instr} {c : BitVec 8} (hi : encode i = .cmd8 c) (s : State) : hmacCallsOf i s = 0 := by
  cases i <;> cases hi <;> rfl

/-- The line `CMD <mnemonic>` in PRED_WAIT (R78). -/
theorem passage_cmd {t : State} {i : Instr} {c : BitVec 8} {rest : List Event} (hi : encode i = .cmd8 c)
    (hs : s.script = cmd i ++ rest) (hg : s.stage = .predWait) (hexec : exec i { s with script := rest } = .next t) :
    Passage 1 s t 0 [] := by
  have hp := Passage.of_instr (performs_cmd hi (by simp [hg]) rest s rfl hs) hexec
  simpa [hg, hmacCallsOf_command hi] using hp

/-- The agent's poll is done, and its command is performed (R154). -/
theorem passage_answer {t : State} {i : Instr} {c : BitVec 8} {rest : List Event} (hi : encode i = .cmd8 c)
    (hs : s.script = .await .predReq :: (cmd i ++ rest)) (hg : s.stage = .predWait)
    (hexec : exec i { s with script := rest, reply := some (.nat s.status.toNat) } = .next t) : Passage 2 s t 0 [] := by
  have hpolled := Passage.of_settled (fetch_poll hs hg) rfl
  exact hpolled.trans (passage_cmd hi rfl hg hexec)

theorem passage_accept (hs : s.script = answers (true :: as)) (hg : s.stage = .predWait) :
    Passage 2 s
      { s with
        script := answers as, reply := some (.nat s.status.toNat)
        rv := true, k := none, v := none, t := none, stage := .idle } 0 [] :=
  passage_answer (i := .accept) rfl hs hg (exec_accept hg)

theorem passage_reject (hs : s.script = answers (false :: as)) (hg : s.stage = .predWait) :
    Passage 2 s { s with script := answers as, reply := some (.nat s.status.toNat), stage := .updK } 0 [] :=
  passage_answer (i := .reject) rfl hs hg (exec_reject hg)

end Answers

/-! ### The set-up of the key chain -/

/-- `int2octets(X, rolen) ‖ int2octets(e, rolen)` (R112). -/
def seedOf (q x : Nat) (digest : Octets) : Octets :=
  i2os x (rolenOf q) ++ i2os (bits2IntModQ digest q (qlenOf q)) (rolenOf q)

/-- K and V after the ratchet over a seed (R113 to R117). -/
def ratcheted (P : Params) (seed : Octets) : Octets × Octets :=
  let k1 := P.hmac (initK P) (msgSeed (initV P) 0x00#8 seed)
  let v1 := P.hmac k1 (initV P)
  let k2 := P.hmac k1 (msgSeed v1 0x01#8 seed)
  (k2, P.hmac k2 v1)

theorem generateSecret_admitted {P : Params} {q x : Nat} (hq : qlenMin ≤ qlenOf q) (h1 : 1 ≤ x) (hlt : x < q)
    (fuel : Nat) (digest : Octets) (as : List Bool) :
    generateSecret P fuel q x digest as = some (genLoop P q (bits2IntModQ digest q (qlenOf q)) fuel
      (ratcheted P (seedOf q x digest)).1 (ratcheted P (seedOf q x digest)).2 as []) := by
  have hx := int2octets_of_lt (hlt.trans (lt_two_pow_rolen q))
  have he := int2octets_bits2IntModQ digest (q := q) (by omega)
  rw [generateSecret, if_neg (by omega)]
  simp only [hx, he]
  rfl

theorem generateSecret_refused {P : Params} {q x : Nat} (h : qlenOf q < qlenMin ∨ x = 0 ∨ q ≤ x) (fuel : Nat)
    (digest : Octets) (as : List Bool) : generateSecret P fuel q x digest as = none := if_pos h

/-- From SEED to T_RESET: six steps, four HMAC calls (R112 to R117). -/
theorem passage_setup {s : State} {as : List Bool} {x : Nat} (hs : s.script = answers as) (hg : s.stage = .seed)
    (hx : s.x = some x) (hlt : x < s.q) :
    Passage 6 s
      { s with
        eout := some (bits2IntModQ s.ibuf s.q (qlenOf s.q))
        k := some (ratcheted Config.params (seedOf s.q x s.ibuf)).1
        v := some (ratcheted Config.params (seedOf s.q x s.ibuf)).2
        seed := none, x := none, stage := .tReset } 4 [] := by
  have hseed := Passage.turn hs (by rw [hg]; rfl) (by decide) (exec_seed hx hlt)
  have hinit := hseed.trans (.turn hs rfl (by decide) (exec_init _))
  have hkey := hinit.trans (.turn hs rfl (by decide) (exec_ratchD rfl rfl rfl))
  have hvalue := hkey.trans (.turn hs rfl (by decide) (exec_ratchE rfl rfl))
  have hkey' := hvalue.trans (.turn hs rfl (by decide) (exec_ratchF rfl rfl rfl))
  exact hkey'.trans (.turn hs rfl (by decide) (exec_ratchG rfl rfl))

/-! ### GenerateSecret -/

/-- A run from `s` reaches what GenerateSecret comes to; behind the pairs `before` it shows what the function offers. -/
def Reaches (s : State) (before : List (Option Nat × Option Nat)) : GenResult → Prop
  | .accepted k e offered => ∃ n t, core.run n s = .next t ∧ t.stage = .idle ∧ t.rv = true ∧ t.kout = some k ∧
      t.eout = some e ∧ before ++ shown n s = offers e (offered ++ [k])
  | .pending k e offered => ∃ n t, core.run n s = .next t ∧ t.stage = .predWait ∧ t.script = [] ∧ t.kout = some k ∧
      t.eout = some e ∧ before ++ shown n s = offers e (offered ++ [k])
  | .outOfFuel k v e left offered => ∃ n t, core.run n s = .next t ∧ t.stage = .tReset ∧ t.k = some k ∧ t.v = some v ∧
      t.eout = some e ∧ t.script = answers left ∧ before ++ shown n s = offers e offered

theorem Reaches.of_passage {m c : Nat} {s u : State} {before pairs : List (Option Nat × Option Nat)} {r : GenResult}
    (h : Passage m s u c pairs) (hr : Reaches u (before ++ pairs) r) : Reaches s before r := by
  have hpairs (n : Nat) : before ++ shown (m + n) s = (before ++ pairs) ++ shown n u := by
    rw [shown_add n h.run, h.shown_eq, List.append_assoc]
  cases r <;> obtain ⟨n, t, hrun, hrest⟩ := hr <;>
    exact ⟨m + n, t, (run_add n h.run).trans hrun, by rwa [hpairs]⟩

theorem offers_append (e k : Nat) (ks : List Nat) : offers e ks ++ [(some k, some e)] = offers e (ks ++ [k]) := by
  simp [offers]

/-- From T_RESET the engine carries out the loop of R125: an attempt, then the answer or the retry, then the rest. -/
theorem reaches_genLoop (fuel : Nat) {s : State} {as : List Bool} {k v : Octets} {e : Nat} (offered : List Nat)
    (hs : s.script = answers as) (hg : s.stage = .tReset) (hk : s.k = some k) (hv : s.v = some v)
    (he : s.eout = some e) :
    Reaches s (offers e offered) (genLoop Config.params s.q e fuel k v as offered) := by
  induction fuel generalizing s as k v offered with
  | zero => exact ⟨0, s, rfl, hg, hk, hv, he, hs, List.append_nil _⟩
  | succ fuel ih =>
    have hattempt := passage_attempt hs hg hk hv
    unfold genLoop
    dsimp only
    split
    · next hin =>
      have hwait : (attempted s k v).stage = .predWait := if_pos hin
      rw [if_pos hwait, he] at hattempt
      refine .of_passage hattempt ?_
      rw [show (attempted s k v).kout = some _ from rfl, offers_append]
      match as with
      | [] => exact ⟨0, attempted s k v, rfl, hwait, hs, rfl, he, List.append_nil _⟩
      | true :: as =>
        have haccept := passage_accept (s := attempted s k v) hs hwait
        exact ⟨2, _, haccept.run, rfl, rfl, rfl, he, by rw [haccept.shown_eq, List.append_nil]⟩
      | false :: as =>
        refine .of_passage (passage_reject (s := attempted s k v) hs hwait) ?_
        refine .of_passage (passage_retry (as := as) rfl rfl hk rfl) ?_
        simp only [List.append_nil]
        exact ih _ rfl rfl rfl rfl he
    · next hout =>
      have hupdK : (attempted s k v).stage = .updK := if_neg hout
      rw [if_neg (by simp [hupdK])] at hattempt
      refine .of_passage hattempt (.of_passage (passage_retry hs hupdK hk rfl) ?_)
      simp only [List.append_nil]
      exact ih offered hs rfl rfl rfl he

/-- GENERATE with admitted operands: the first step (R111). -/
theorem passage_generate {s : State} {as : List Bool} {x : Nat} (hs : s.script = .write 0 (.nat 0x10) :: answers as)
    (hg : s.stage = .idle) (hq : qlenMin ≤ qlenOf s.q) (hx : s.x = some x) (h1 : 1 ≤ x) (hlt : x < s.q) :
    Passage 1 s { s with script := answers as, rv := false, kout := none, eout := none, stage := .seed } 0 [] :=
  .of_instr (fetch_command (c := 0x10#8) (by simp [hg]) hs rfl)
    (exec_generate_admitted (s := { s with script := answers as }) hg hq hx h1 hlt)

/-- Settles O54: admitted operands lead through the set-up to the loop; the others are the function's missing value and
GENERATE's two faults. -/
theorem generationRefinesGenerateSecret : Obligations.GenerationRefinesGenerateSecret := by
  intro s x fuel as h hg hx hs
  by_cases hadm : qlenMin ≤ qlenOf s.q ∧ 1 ≤ x ∧ x < s.q
  · obtain ⟨hq, h1, hlt⟩ := hadm
    have hreach : Reaches s [] (genLoop Config.params s.q _ fuel _ _ as []) :=
      .of_passage (passage_generate hs hg hq hx h1 hlt)
        (.of_passage (passage_setup (as := as) rfl rfl hx hlt) (reaches_genLoop fuel [] rfl rfl rfl rfl rfl))
    rw [generateSecret_admitted hq h1 hlt]
    generalize genLoop Config.params s.q _ fuel _ _ as [] = r at hreach ⊢
    cases r <;> exact hreach
  · rw [generateSecret_refused (by omega)]
    have hstep := (step_command (c := 0x10#8) hs rfl).trans (exec_generate (s := { s with script := answers as }) hg)
    refine ⟨_, run_one hstep, ?_⟩
    split
    · exact ⟨rfl, .inl rfl⟩
    · next hq =>
      have hout : ¬ ∃ y, s.x = some y ∧ 1 ≤ y ∧ y < s.q := fun ⟨y, hy, h1, hlt⟩ => by
        cases hx.symm.trans hy
        exact hadm ⟨Nat.le_of_not_lt hq, h1, hlt⟩
      rw [if_neg hout]
      exact ⟨rfl, .inr rfl⟩

/-! ### Parts of a run -/

/-- Settles O34: the engine's turn in PRED_WAIT changes nothing, so no number of them does. -/
theorem predicateWaitHolds : Obligations.PredicateWaitHolds := by
  refine ⟨exec_predWait, fun s n hg hs => ?_⟩
  have hstep : step s = .next s :=
    step_of_instr ((fetch_empty hs).trans (engineTurn_of_decode (i := .predWait) (by rw [hg]; rfl)))
  induction n with
  | zero => rfl
  | succ n ih => exact (run_succ n hstep).trans ih

/-- Settles O40: the REJECT, the retry, and T_RESET. -/
theorem rejectionDrawsAfresh : Obligations.RejectionDrawsAfresh := by
  intro s k v _ hg hk hv hs
  have hreject := passage_cmd (i := .reject) (rest := answers []) rfl hs hg (exec_reject hg)
  have hretry := hreject.trans (passage_retry (as := []) rfl rfl hk hv)
  exact ⟨_, (hretry.trans (.turn (as := []) rfl rfl (by decide) (exec_tReset _))).run, rfl, rfl, rfl, rfl, rfl⟩

end Sys2Proof.Machine
end

section
/-! A generation is a function of Q, X and IBUF (R128): two machines that differ in the codec's registers alone stay so
while an agent serves them. -/

namespace Sys2Proof.Machine

/-- The same state with other codec registers and another reply. -/
def State.withCodec (a r : Nat) (o : Octets) (w : Option Value) (s : State) : State :=
  { s with aint := a, rint := r, obuf := o, reply := w }

/-- Two machines that differ in AINT, RINT, OBUF and the reply at most. -/
def Twin (s u : State) : Prop := ∃ a r o w, u = s.withCodec a r o w

/-- No instruction of a generation reads the codec's registers or the reply, or writes them (R60). -/
theorem effect_withCodec {i : Instr} {s t : State} {g : Stage} (hi : Serves i g) (h : Effect s i t) (a r : Nat)
    (o : Octets) (w : Option Value) : Effect (s.withCodec a r o w) i (t.withCodec a r o w) := by
  cases h
  case bits2int | int2octets | bits2intmodq | bits2octets | generate | clear => simp [Serves, stageOf] at hi
  all_goals constructor <;> assumption

theorem step_twin {s t u : State} (h : Served s.stage s.script) (htwin : Twin s u) (hstep : step s = .next t) :
    Served t.stage t.script ∧ ∃ w, step u = .next w ∧ Twin t w := by
  obtain ⟨h', -⟩ := step_of_served h hstep
  refine ⟨h', ?_⟩
  obtain ⟨a, r, o, w, rfl⟩ := htwin
  obtain ⟨sc, -, hrest⟩ | ⟨i, as, hi, hperf⟩ := served_cases h
  · obtain ⟨r₁, hf⟩ := hrest s rfl rfl
    obtain ⟨r₂, hf'⟩ := hrest (s.withCodec a r o w) rfl rfl
    cases (step_of_settled hf).symm.trans hstep
    exact ⟨_, step_of_settled hf', a, r, o, r₂, rfl⟩
  · have heff := effect_of_serves (s := { s with script := answers as }) hi
      ((step_of_instr (hperf s rfl rfl)).symm.trans hstep)
    have hexec := exec_of_effect (effect_withCodec hi heff a r o w)
    exact ⟨_, (step_of_instr (hperf (s.withCodec a r o w) rfl rfl)).trans hexec, a, r, o, w, rfl⟩

theorem run_twin (n : Nat) {s t u : State} (h : Served s.stage s.script) (htwin : Twin s u)
    (hrun : core.run n s = .next t) : ∃ w, core.run n u = .next w ∧ Twin t w := by
  induction n generalizing s u with
  | zero => cases hrun; exact ⟨u, rfl, htwin⟩
  | succ n ih =>
    obtain ⟨s', hstep, hrun⟩ := run_succ_inv hrun
    obtain ⟨h', u', hstep', htwin'⟩ := step_twin h htwin hstep
    obtain ⟨w, hw, htw⟩ := ih h' htwin' hrun
    exact ⟨w, (run_succ n hstep').trans hw, htw⟩

/-- GENERATE makes twins of two idle machines with the same three operands, or leaves both in the same fault. -/
theorem generate_twin {s t u : State} {as : List Bool} (hs : Inv s) (hu : Inv u) (hsg : s.stage = .idle)
    (hug : u.stage = .idle) (hq : s.q = u.q) (hx : s.x = u.x) (hi : s.ibuf = u.ibuf)
    (hsc : s.script = .write 0 (.nat 0x10) :: answers as) (huc : u.script = .write 0 (.nat 0x10) :: answers as)
    (hstep : step s = .next t) : Served t.stage t.script ∧ ∃ w, step u = .next w ∧ Twin t w := by
  obtain ⟨hsc0, ⟨hsk, hsv, hst, hss⟩, -⟩ := (stageFacts_idle hsg).mp hs.stage
  obtain ⟨huc0, ⟨huk, huv, hut, hus⟩, -⟩ := (stageFacts_idle hug).mp hu.stage
  have hgen := (step_command (c := 0x10#8) hsc rfl).trans (exec_generate (s := { s with script := answers as }) hsg)
  have hgen' := (step_command (c := 0x10#8) huc rfl).trans (exec_generate (s := { u with script := answers as }) hug)
  cases hgen.symm.trans hstep
  dsimp only at hgen' ⊢
  rw [← hq, ← hx] at hgen'
  refine ⟨?_, _, hgen', ?_⟩
  · split_ifs <;> exact .inl ⟨as, rfl⟩
  · split_ifs
    · exact ⟨0, 0, [], u.reply, rfl⟩
    · refine ⟨u.aint, u.rint, u.obuf, u.reply, ?_⟩
      simp [State.withCodec, hq, hx, hi, hsc0, huc0, hsk, hsv, hst, hss, huk, huv, hut, hus]
    · exact ⟨0, 0, [], u.reply, rfl⟩

/-- Settles O50: after GENERATE the two are twins, and stay so. -/
theorem generationIsDeterministic : Obligations.GenerationIsDeterministic := by
  intro s u t as n hs hu hsg hug hq hx hi hsc huc hrun
  obtain ⟨s', hstep, hrun⟩ := run_succ_inv hrun
  obtain ⟨h', u', hstep', htwin⟩ := generate_twin hs hu hsg hug hq hx hi hsc huc hstep
  obtain ⟨w, hw, a, r, o, v, rfl⟩ := run_twin n h' htwin hrun
  exact ⟨_, (run_succ n hstep').trans hw, rfl, rfl, rfl, rfl, rfl, rfl⟩

end Sys2Proof.Machine
end

section
/-! The HMAC calls of a generation (R131): the count is tied to STAGE, to the candidates formed and to T's length, and every
step of a served machine keeps the tie. -/

namespace Sys2Proof.Machine

/-- The HMAC calls still to be made before the next T_RESET, the blocks of the attempt apart. -/
def callsAhead : Stage → Nat
  | .seed | .init | .ratchD => 4
  | .ratchE => 3
  | .ratchF | .range | .predWait | .updK | .idle => 2
  | .ratchG | .updV => 1
  | .tReset | .tBlock | .formK | .fault => 0

/-- `m` is the number of blocks drawn in the attempt under way. -/
def BlocksDrawn (q m : Nat) (s : State) : Prop :=
  match s.stage with
  | .tBlock => m ≤ blocksOf Config.params q ∧ ∃ o, s.t = some o ∧ o.length = m * Config.params.hlen
  | .formK => m = blocksOf Config.params q
  | _ => m = 0

/-- The stages that come after a candidate of the generation only. -/
def afterCandidate : List Stage := [.range, .predWait, .updK, .updV, .idle]

/-- `a` candidates of a generation for the order `q` have been formed and `c` HMAC calls made when it stands at `s`. -/
def Tally (q a c : Nat) (s : State) : Prop :=
  (s.rv = true → s.stage = .idle) ∧ (s.stage = .fault ∨ s.q = q ∧ (s.stage ∈ afterCandidate → 1 ≤ a) ∧
    ∃ m, BlocksDrawn q m s ∧ c + callsAhead s.stage = 4 + a * (blocksOf Config.params q + 2) + m)

/-- The candidates an instruction forms: FORM_K one (R120). -/
def formedBy (i : Instr) : Nat := if i = .formK then 1 else 0

theorem blocksDrawn_outside {q m : Nat} {s : State} (h : s.stage ∉ [Stage.tBlock, .formK]) :
    BlocksDrawn q m s ↔ m = 0 := by
  unfold BlocksDrawn
  cases hg : s.stage <;> simp [hg] at h ⊢

section Tally
variable {q a c : Nat} {s t : State}

theorem Tally.running (h : Tally q a c s) (hs : s.stage ∉ [Stage.idle, .fault]) :
    s.rv = false ∧ s.q = q ∧ (s.stage ∈ afterCandidate → 1 ≤ a) ∧
      ∃ m, BlocksDrawn q m s ∧ c + callsAhead s.stage = 4 + a * (blocksOf Config.params q + 2) + m := by
  simp only [List.mem_cons, List.not_mem_nil, or_false, not_or] at hs
  obtain ⟨hidle, hfault⟩ := hs
  obtain ⟨hrv, hf | h⟩ := h
  · exact absurd hf hfault
  · exact ⟨Bool.eq_false_iff.mpr (mt hrv hidle), h⟩

/-- Outside the block loop the calls made come off the calls ahead. -/
theorem Tally.move {n : Nat} (h : Tally q a c s) (hs : s.stage ∉ [Stage.idle, .fault])
    (hs' : s.stage ∉ [Stage.tBlock, .formK]) (ht : t.stage ∉ [Stage.tBlock, .formK]) (hq : t.q = s.q)
    (hrv : t.rv = s.rv ∨ t.stage = .idle) (hafter : t.stage ∈ afterCandidate → s.stage ∈ afterCandidate)
    (hn : n + callsAhead t.stage = callsAhead s.stage) : Tally q a (c + n) t := by
  obtain ⟨hsrv, hsq, hcand, m, hm, hc⟩ := h.running hs
  rw [blocksDrawn_outside hs'] at hm
  refine ⟨fun h => ?_, .inr ⟨hq.trans hsq, hcand ∘ hafter, 0, (blocksDrawn_outside ht).mpr rfl, by omega⟩⟩
  exact hrv.elim (fun hrv => by rw [hrv, hsrv] at h; cases h) id

/-- A new block is one more drawn, and one call (R119). -/
theorem Tally.block {o v : Octets} (h : Tally q a c s) (hg : s.stage = .tBlock) (ho : s.t = some o)
    (hv : v.length = Config.params.hlen) (hlt : o.length < thresholdOf s.q) :
    Tally q a (c + 1) { s with v := some v, t := some (o ++ v), stage := .tBlock } := by
  obtain ⟨hrv, rfl, -, m, hm, hc⟩ := h.running (by simp [hg])
  simp only [BlocksDrawn, callsAhead, hg, ho, Option.some.injEq, exists_eq_left'] at hm hc
  obtain ⟨-, hlen⟩ := hm
  have hmore : m + 1 ≤ blocksOf Config.params s.q := (lt_blocksOf_iff ..).mpr (hlen ▸ hlt)
  refine ⟨by simp [hrv], .inr ⟨rfl, by simp [afterCandidate], m + 1, ⟨hmore, _, rfl, ?_⟩, ?_⟩⟩
  · rw [List.length_append, hlen, hv, Nat.succ_mul]
  · simp only [callsAhead]
    omega

/-- At the threshold all nb blocks have been drawn (R119). -/
theorem Tally.lastTest {o : Octets} (h : Tally q a c s) (hg : s.stage = .tBlock) (ho : s.t = some o)
    (hge : thresholdOf s.q ≤ o.length) : Tally q a c { s with stage := .formK } := by
  obtain ⟨hrv, rfl, -, m, hm, hc⟩ := h.running (by simp [hg])
  simp only [BlocksDrawn, callsAhead, hg, ho, Option.some.injEq, exists_eq_left'] at hm hc
  obtain ⟨hle, hlen⟩ := hm
  exact ⟨by simp [hrv], .inr ⟨rfl, by simp [afterCandidate], m, eq_blocksOf hle (hlen ▸ hge), hc⟩⟩

/-- A candidate counts from FORM_K on: two calls are ahead again, those of its retry (R120). -/
theorem Tally.candidate (h : Tally q a c s) (hg : s.stage = .formK) (k : Nat) :
    Tally q (a + 1) c { s with kout := some k, stage := .range } := by
  obtain ⟨hrv, rfl, -, m, hm, hc⟩ := h.running (by simp [hg])
  simp only [BlocksDrawn, callsAhead, hg] at hm hc
  refine ⟨by simp [hrv], .inr ⟨rfl, fun _ => by omega, 0, rfl, ?_⟩⟩
  rw [Nat.succ_mul]
  simp only [callsAhead]
  omega

theorem Tally.tReset (h : Tally q a c s) (hg : s.stage = .tReset) :
    Tally q a c { s with t := some [], stage := .tBlock } := by
  obtain ⟨hrv, rfl, -, m, hm, hc⟩ := h.running (by simp [hg])
  simp only [BlocksDrawn, callsAhead, hg] at hm hc
  exact ⟨by simp [hrv], .inr ⟨rfl, by simp [afterCandidate], 0, ⟨Nat.zero_le _, [], rfl, by simp⟩, hm ▸ hc⟩⟩

theorem tally_of_effect {i : Instr} (h : Tally q a c s) (hi : Serves i s.stage) (heff : Effect s i t) :
    Tally q (a + formedBy i) (c + hmacCallsOf i s) t := by
  have hstage (g : Stage) (hg : stageOf i = some g) : s.stage = g := stage_of_serves hi hg
  cases heff
  case bits2int | int2octets | bits2intmodq | bits2octets | generate | clear => simp [Serves, stageOf] at hi
  case predWait => exact h
  case tReset => exact h.tReset (hstage _ rfl)
  case tBlockMore o _ _ ho _ _ hlt =>
    have hcalls : hmacCallsOf .tBlock s = 1 := by simp [hmacCallsOf, ho, hlt]
    exact hcalls ▸ h.block (hstage _ rfl) ho (hmac_length ..) hlt
  case tBlockDone o ho hge =>
    have hcalls : hmacCallsOf .tBlock s = 0 := by simp [hmacCallsOf, ho, hge]
    exact hcalls ▸ h.lastTest (hstage _ rfl) ho hge
  case formK => exact h.candidate (hstage _ rfl) _
  case accept hg | reject hg =>
    exact h.move (by simp [hg]) (by simp [hg]) (by simp) rfl (by simp) (by simp [hg, afterCandidate])
      (by simp [hg, callsAhead, hmacCallsOf])
  all_goals
    have hg := hstage _ rfl
    exact h.move (by simp [hg]) (by simp [hg]) (by simp) rfl (by simp) (by simp [hg, afterCandidate])
      (by simp [hg, callsAhead, hmacCallsOf])

/-- A step of a served machine adds its candidate and its HMAC call to the tally. -/
theorem run_tally (n : Nat) (h : Tally q a c s) (hserved : Served s.stage s.script) (hrun : core.run n s = .next t) :
    Tally q (a + candidatesFormed n s) (c + hmacCalls n s) t := by
  induction n generalizing a c s with
  | zero => cases hrun; exact h
  | succ n ih =>
    obtain ⟨u, hstep, hrun⟩ := run_succ_inv hrun
    obtain ⟨hserved', ⟨sc, r, hf, rfl⟩ | ⟨i, as, hf, hi, heff⟩⟩ := step_of_served hserved hstep
    · have hu : Tally q a c { s with script := sc, reply := r } := h
      simpa [candidatesFormed, hmacCalls, hf, hstep] using ih hu hserved' hrun
    · have hu : Tally q (a + formedBy i) (c + hmacCallsOf i { s with script := answers as }) u :=
        tally_of_effect (s := { s with script := answers as }) h hi heff
      simpa [candidatesFormed, hmacCalls, hf, hstep, formedBy, Nat.add_assoc] using ih hu hserved' hrun

/-- Where a candidate is offered, sent to the retry, or has been accepted, the tally is the closed formula of R131. -/
theorem Tally.total (h : Tally q a c s) (hs : s.stage = .predWait ∨ s.stage = .updK ∨ s.rv = true) :
    1 ≤ a ∧ c = 4 + a * blocksOf Config.params q + 2 * (a - 1) := by
  obtain ⟨hrv, h⟩ := h
  have hstage : s.stage ∈ [Stage.predWait, .updK, .idle] := by
    rcases hs with hs | hs | hs
    · simp [hs]
    · simp [hs]
    · simp [hrv hs]
  simp only [List.mem_cons, List.not_mem_nil, or_false] at hstage
  have hout : s.stage ∉ [Stage.tBlock, .formK] := by rcases hstage with hg | hg | hg <;> simp [hg]
  have hafter : s.stage ∈ afterCandidate := by rcases hstage with hg | hg | hg <;> simp [hg, afterCandidate]
  have hahead : callsAhead s.stage = 2 := by rcases hstage with hg | hg | hg <;> rw [hg] <;> rfl
  obtain hf | ⟨-, hcand, m, hm, hc⟩ := h
  · simp [hf] at hstage
  · have ha := hcand hafter
    rw [blocksDrawn_outside hout] at hm
    rw [hahead, hm, Nat.mul_add] at hc
    omega

end Tally

section Generate
variable {s t : State} {as : List Bool} (hg : s.stage = .idle) (hs : s.script = .write 0 (.nat 0x10) :: answers as)
  (hstep : step s = .next t)
include hg hs hstep

/-- The tally begins with GENERATE: at SEED, or in the fault it takes. -/
theorem tally_of_generate : Tally s.q 0 0 t ∧ Served t.stage t.script := by
  have hgen := (step_command (c := 0x10#8) hs rfl).trans (exec_generate (s := { s with script := answers as }) hg)
  cases hgen.symm.trans hstep
  split_ifs
  · exact ⟨⟨by simp, .inl rfl⟩, .inl ⟨as, rfl⟩⟩
  · exact ⟨⟨by simp, .inr ⟨rfl, by simp [afterCandidate], 0, rfl, by simp [callsAhead]⟩⟩, .inl ⟨as, rfl⟩⟩
  · exact ⟨⟨by simp, .inl rfl⟩, .inl ⟨as, rfl⟩⟩

/-- GENERATE itself forms no candidate and makes no call. -/
theorem counts_after_generate (n : Nat) :
    candidatesFormed (n + 1) s = candidatesFormed n t ∧ hmacCalls (n + 1) s = hmacCalls n t := by
  have hf := fetch_command (P := Config.params) (c := 0x10#8) (by simp [hg]) hs rfl
  simp [candidatesFormed, hmacCalls, hf, hstep, hmacCallsOf]

end Generate

/-- Settles O52: the parts are the passages; the total is the tally where the run ends. -/
theorem hmacCallsAreCounted : Obligations.HmacCallsAreCounted := by
  refine ⟨fun s h hs => ⟨fun hg => ?_, fun hg => ?_, fun hg => ?_⟩, fun s t as n a _ hg hs hrun hend ha => ?_⟩
  · obtain ⟨-, ⟨x, hx, -, hlt⟩, -⟩ := (stageFacts_seed hg).mp h.stage
    have hsetup := passage_setup (as := []) hs hg hx hlt
    exact ⟨hsetup.calls_eq, _, hsetup.run, rfl⟩
  · obtain ⟨k, v, hk, hv⟩ := exists_chain h (by simp [hg])
    exact (passage_attempt (as := []) hs hg hk hv).calls_eq
  · obtain ⟨k, v, hk, hv⟩ := exists_chain h (by simp [hg])
    have hretry := passage_retry (as := []) hs hg hk hv
    exact ⟨hretry.calls_eq, _, hretry.run, rfl⟩
  · obtain ⟨u, hstep, hrun⟩ := run_succ_inv hrun
    obtain ⟨htally, hserved⟩ := tally_of_generate hg hs hstep
    obtain ⟨hformed, hcalls⟩ := counts_after_generate hg hs hstep n
    have hfinal := run_tally n htally hserved hrun
    rw [Nat.zero_add, Nat.zero_add, ← hformed, ← hcalls, ha] at hfinal
    exact hfinal.total hend

end Sys2Proof.Machine
end

section
/-! Progress (R162): what a step leaves of the script, and that from an invariant state neither an instruction nor a
transaction is ever stuck. -/

namespace Sys2Proof.Machine

/-! ### The script after a step -/

theorem exec_script {i : Instr} {s t : State} (h : exec i s = .next t) : t.script = s.script := by
  obtain ⟨-, rfl⟩ | ⟨-, c, -, rfl⟩ | heff := exec_outcome h
  · rfl
  · rfl
  · obtain ⟨-, -, hscript, -⟩ := frame_of_effect heff
    exact hscript

theorem fetch_instr_script {P : Params} {s u : State} {i : Instr} (h : fetch P s = .instr i u) :
    u.script = s.script ∨ ∃ e, s.script = e :: u.script := by
  obtain ⟨c, rest, hs, -, -, -, rfl⟩ | ⟨-, rfl | ⟨rest, hs, rfl⟩⟩ := fetch_instr h
  · exact .inr ⟨_, hs⟩
  · exact .inl rfl
  · exact .inr ⟨_, hs⟩

/-- A step leaves the script or takes its head off (R57). -/
theorem step_script {s t : State} (h : step s = .next t) : t.script = s.script ∨ ∃ e, s.script = e :: t.script := by
  obtain ⟨i, u, hf, hexec⟩ | hf := step_cases h
  · rw [exec_script hexec]
    exact fetch_instr_script hf
  · exact fetch_settled_script hf

theorem scriptWf_of_step {s t : State} (h : step s = .next t) (hwf : scriptWf s.script = true) :
    scriptWf t.script = true := by
  obtain hs | ⟨e, hs⟩ := step_script h
  · rwa [hs]
  · rw [hs] at hwf
    exact (Bool.and_eq_true_iff.mp hwf).2

/-! ### Every instruction completes -/

/-- In IDLE these six have an outcome for all operands: their faults are next states (R180). -/
theorem exec_idle_command_completes {i : Instr} {s : State}
    (hi : i ∈ [Instr.bits2int, .int2octets, .bits2intmodq, .bits2octets, .generate, .clear]) (hg : s.stage = .idle) :
    ∃ t, exec i s = .next t := by
  simp only [List.mem_cons, List.not_mem_nil, or_false] at hi
  rcases hi with rfl | rfl | rfl | rfl | rfl | rfl
  · exact ⟨_, exec_bits2int hg⟩
  · cases ho : int2octets s.aint (rolenOf s.q) with
    | none => exact ⟨_, exec_int2octets_range hg ho⟩
    | some o => exact ⟨_, exec_int2octets hg ho⟩
  · exact ⟨_, exec_bits2intmodq hg⟩
  · exact ⟨_, exec_bits2octets hg⟩
  · exact ⟨_, exec_generate hg⟩
  · exact ⟨_, exec_clear hg⟩

theorem exec_answer_completes {i : Instr} {s : State} (hi : i ∈ [Instr.accept, .reject]) (hg : s.stage = .predWait) :
    ∃ t, exec i s = .next t := by
  simp only [List.mem_cons, List.not_mem_nil, or_false] at hi
  rcases hi with rfl | rfl
  · exact ⟨_, exec_accept hg⟩
  · exact ⟨_, exec_reject hg⟩

/-- A command is performed in its class, PROTOCOL in another, nothing in FAULT: in every state it completes. -/
theorem exec_command_completes {i : Instr} (hi : stageOf i = none) (s : State) : ∃ t, exec i s = .next t := by
  have hcmd : i ∈ [Instr.bits2int, .int2octets, .bits2intmodq, .bits2octets, .generate, .clear] ++
      [Instr.accept, .reject] := by
    cases i <;> cases hi <;> decide
  by_cases hf : s.stage = .fault
  · exact ⟨s, exec_command_ignored hcmd hf⟩
  · obtain h | h := List.mem_append.mp hcmd
    · by_cases hg : s.stage = .idle
      · exact exec_idle_command_completes h hg
      · exact ⟨_, exec_idle_command_refused h hf hg⟩
    · by_cases hg : s.stage = .predWait
      · exact exec_answer_completes h hg
      · exact ⟨_, exec_answer_refused h hf hg⟩

section MicroOperations
variable {s : State} (h : Inv s)
include h

/-- From RATCH_D to RATCH_G the key chain and the seed hold values. -/
theorem exists_chain_seed (hg : s.stage ∈ [Stage.ratchD, .ratchE, .ratchF, .ratchG]) :
    ∃ k v sd, s.k = some k ∧ s.v = some v ∧ s.seed = some sd := by
  obtain ⟨-, -, -, -, ⟨sd, hsd⟩, ⟨⟨k, hk⟩, v, hv⟩, -⟩ := (stageFacts_ratch hg).mp h.stage
  exact ⟨k, v, sd, hk, hv, hsd⟩

theorem exec_tBlock_completes (hg : s.stage = .tBlock) : ∃ t, exec .tBlock s = .next t := by
  obtain ⟨⟨-, -, ⟨⟨k, hk⟩, v, hv⟩, -, -⟩, o, ho⟩ := (stageFacts_tBlock hg).mp h.stage
  by_cases hlt : o.length < thresholdOf s.q
  · exact ⟨_, exec_tBlock_more ho hk hv hlt⟩
  · exact ⟨_, exec_tBlock_done ho (Nat.le_of_not_lt hlt)⟩

/-- The invariant promises every micro-operation, at its own stage, the items it reads (R8). -/
theorem exec_microOp_completes {i : Instr} (hi : stageOf i = some s.stage) : ∃ t, exec i s = .next t := by
  generalize hg : s.stage = g at hi
  cases i <;> cases hi
  case seed =>
    obtain ⟨-, ⟨x, hx, -, hlt⟩, -⟩ := (stageFacts_seed hg).mp h.stage
    exact ⟨_, exec_seed hx hlt⟩
  case init => exact ⟨_, exec_init s⟩
  case ratchD =>
    obtain ⟨k, v, sd, hk, hv, hsd⟩ := exists_chain_seed h (by simp [hg])
    exact ⟨_, exec_ratchD hk hv hsd⟩
  case ratchE =>
    obtain ⟨k, v, -, hk, hv, -⟩ := exists_chain_seed h (by simp [hg])
    exact ⟨_, exec_ratchE hk hv⟩
  case ratchF =>
    obtain ⟨k, v, sd, hk, hv, hsd⟩ := exists_chain_seed h (by simp [hg])
    exact ⟨_, exec_ratchF hk hv hsd⟩
  case ratchG =>
    obtain ⟨k, v, -, hk, hv, -⟩ := exists_chain_seed h (by simp [hg])
    exact ⟨_, exec_ratchG hk hv⟩
  case tReset => exact ⟨_, exec_tReset s⟩
  case tBlock => exact exec_tBlock_completes h hg
  case formK =>
    obtain ⟨-, o, ho, -⟩ := (stageFacts_formK hg).mp h.stage
    exact ⟨_, exec_formK ho⟩
  case range =>
    obtain ⟨-, -, k, hk, -⟩ := (stageFacts_range hg).mp h.stage
    exact ⟨_, exec_range hk⟩
  case predWait => exact ⟨_, exec_predWait s⟩
  case updK =>
    obtain ⟨k, v, hk, hv⟩ := exists_chain h (by simp [hg])
    exact ⟨_, exec_updK hk hv⟩
  case updV =>
    obtain ⟨k, v, hk, hv⟩ := exists_chain h (by simp [hg])
    exact ⟨_, exec_updV hk hv⟩

theorem exec_completes {i : Instr} (hstage : ∀ g, stageOf i = some g → s.stage = g) : ∃ t, exec i s = .next t := by
  cases hi : stageOf i with
  | none => exact exec_command_completes hi s
  | some g => exact exec_microOp_completes h (by rw [hi, hstage g hi])

end MicroOperations

/-! ### Every fetch finds something to do -/

/-- The fetch finds an instruction or settles the transaction: it is neither stuck nor malformed. -/
def Finds (f : Fetched) : Prop := (∃ i u, f = .instr i u) ∨ ∃ u, f = .settled u

section Fetching
variable {P : Params} {s : State}

theorem finds_engineTurn (s : State) : Finds (engineTurn s) := by
  unfold engineTurn
  split
  · exact .inl ⟨_, _, rfl⟩
  · exact .inr ⟨_, rfl⟩

theorem finds_hostAwait (c : Cond) (rest : List Event) (s : State) : Finds (hostAwait c rest s) := by
  unfold hostAwait
  split
  · exact .inr ⟨_, rfl⟩
  · exact finds_engineTurn s

theorem finds_issue (c : BitVec 8) (s : State) : Finds (issue c s) := by
  unfold issue
  split
  · exact .inl ⟨_, _, rfl⟩
  · exact .inr ⟨_, rfl⟩

/-- A register the host may read holds a value: KOUT and EOUT inside their window by the invariant, CMD and X are never
readable, and the others always hold one (R8, R39). -/
theorem exists_regValue_of_access_ok (h : InvOf P s) {r : Reg} (hacc : access r .read s.cls s.rv = .ok) :
    ∃ v, regValue P s r = some v := by
  have hgated (hr : r = .kout ∨ r = .eout) : s.windowOpen = true := by
    have hs : s.stage ≠ .fault := by
      intro hf
      rcases hr with rfl | rfl <;> simp [access, hf] at hacc
    rw [access_read_gated hs hr] at hacc
    by_contra hw
    rw [if_neg hw] at hacc
    cases hacc
  cases r
  case kout =>
    obtain ⟨-, k, e, hk, -⟩ := candidate_of_windowOpen h (hgated (.inl rfl))
    exact ⟨.nat k, by rw [regValue, hk]; rfl⟩
  case eout =>
    obtain ⟨-, k, e, -, he, -⟩ := candidate_of_windowOpen h (hgated (.inr rfl))
    exact ⟨.nat e, by rw [regValue, he]; rfl⟩
  case cmd | x => simp only [access, accessOutsideFault] at hacc; split at hacc <;> simp at hacc
  all_goals exact ⟨_, rfl⟩

theorem finds_hostRead (h : InvOf P s) (n : Nat) : Finds (hostRead P n s) := by
  obtain hn | ⟨r, rfl⟩ := unassigned_or_regNum n
  · exact .inr ⟨_, hostRead_unassigned hn⟩
  · cases hacc : access r .read s.cls s.rv with
    | protocol => exact .inr ⟨_, hostRead_protocol hacc⟩
    | image => exact .inr ⟨_, hostRead_image hacc⟩
    | ok =>
      obtain ⟨v, hv⟩ := exists_regValue_of_access_ok h hacc
      exact .inr ⟨_, hostRead_ok hacc hv⟩

/-- A value that fits CMD is an octet (R77). -/
theorem exists_opcode_of_valueFits {v : Value} (h : valueFits .cmd v = true) : ∃ c, c < 256 ∧ v = .nat c := by
  cases v with
  | nat c => exact ⟨c, of_decide_eq_true h, rfl⟩
  | octets o => cases h

theorem finds_hostWrite (s : State) {n : Nat} {v : Value} (hwf : eventWf (.write n v) = true) :
    Finds (hostWrite P n v s) := by
  obtain hn | ⟨r, rfl⟩ := unassigned_or_regNum n
  · simp only [hostWrite, regOfNum_unassigned hn]
    split <;> exact .inr ⟨_, rfl⟩
  · rw [eventWf_write_regNum] at hwf
    cases hacc : access r .write s.cls s.rv with
    | protocol => exact .inr ⟨_, hostWrite_protocol hwf hacc⟩
    | image => exact .inr ⟨_, hostWrite_image hwf hacc⟩
    | ok =>
      by_cases hr : r = .cmd
      · subst hr
        obtain ⟨c, hc, rfl⟩ := exists_opcode_of_valueFits hwf
        rw [hostWrite_cmd hc hacc]
        exact finds_issue _ s
      · exact .inr ⟨_, hostWrite_store hr hwf hacc⟩

theorem finds_fetch (h : InvOf P s) (hwf : scriptWf s.script = true) : Finds (fetch P s) := by
  match hs : s.script with
  | [] => rw [fetch_empty hs]; exact finds_engineTurn s
  | .engine :: rest => rw [fetch_engine hs]; exact finds_engineTurn _
  | .await c :: rest => rw [fetch_await hs]; exact finds_hostAwait c rest s
  | .read n :: rest => rw [fetch_read hs]; exact finds_hostRead (h.setOwn rest s.reply) n
  | .write n v :: rest =>
    rw [hs] at hwf
    rw [fetch_write hs]
    exact finds_hostWrite _ (Bool.and_eq_true_iff.mp hwf).1
  | .reset :: rest => exact .inr ⟨resetEntry { s with script := rest }, by simp only [fetch, hs]⟩

end Fetching

/-- Settles O42: the fetch finds an instruction, which the invariant lets complete, or settles the transaction. -/
theorem everyStepCompletes : Obligations.EveryStepCompletes := by
  intro s h hwf
  have hnext : ∃ t, step s = .next t := by
    obtain ⟨i, u, hf⟩ | ⟨u, hf⟩ := finds_fetch h hwf
    · obtain ⟨sc, rfl⟩ := eq_of_fetch_instr hf
      obtain ⟨t, hexec⟩ := exec_completes (h.setOwn sc s.reply) fun g hg => (stage_of_fetch_instr hf hg : s.stage = g)
      exact ⟨t, (step_of_instr hf).trans hexec⟩
    · exact ⟨u, step_of_settled hf⟩
  obtain ⟨t, hstep⟩ := hnext
  exact ⟨t, hstep, scriptWf_of_step hstep hwf⟩

end Sys2Proof.Machine
end

section
/-! The predicate port and CLEAR (R151 to R153); what the assemblers' predicates accept where the modular operations are
exact (R155, R156, R164). -/

namespace Sys2Proof.Machine

/-! ### The predicate port -/

/-- Settles O36: the invariant at the offered candidate gives what stays readable, the invariant after the ACCEPT gives
STATUS. -/
theorem acceptEndsTheGeneration : Obligations.AcceptEndsTheGeneration := by
  obtain ⟨-, hrefused, -⟩ := commandsOutsideTheirClassFault
  refine fun s => ⟨fun hg => ?_, hrefused .accept (by simp) s⟩
  refine ⟨_, exec_accept hg, rfl, rfl, rfl, rfl, rfl, frame_of_effect (.accept hg), fun h => ?_⟩
  obtain ⟨⟨-, -, -, hx, hseed⟩, -, hk⟩ := (stageFacts_predWait hg).mp h.stage
  obtain ⟨hstatus, -⟩ := statusShowsItsListedValues _ (h.accept hg)
  exact ⟨hstatus rfl, hx, hseed, hk⟩

/-- Settles O37: UPD_K is a running stage, so the window is closed and STATUS shows BUSY alone. -/
theorem rejectTakesTheRetryPath : Obligations.RejectTakesTheRetryPath := by
  obtain ⟨-, hrefused, -⟩ := commandsOutsideTheirClassFault
  refine fun s => ⟨fun hg => ?_, hrefused .reject (by simp) s⟩
  refine ⟨_, exec_reject hg, rfl, rfl, fun h => ?_, frame_of_effect (.reject hg)⟩
  obtain ⟨-, hstatus, -⟩ := statusShowsItsListedValues _ (h.retry (.inr hg))
  exact hstatus rfl

/-- Settles O38: CLEAR is the erasure of all items. -/
theorem clearErasesEverything : Obligations.ClearErasesEverything := by
  obtain ⟨hrefused, -⟩ := commandsOutsideTheirClassFault
  exact ⟨rfl, fun s => ⟨fun hg => ⟨_, exec_clear hg, resetItems_eraseItems s, rfl, rfl⟩, hrefused .clear (by simp) s⟩⟩

/-! ### The predicates -/

section Exact
variable {C : Collaborators} (hC : ModularExact C)
include hC

/-- The formula spelt as modular operations is the formula of R155 and R156. -/
theorem modularExact_s (inv e d r n : Nat) :
    C.modMul inv (C.modAdd e (C.modMul d r n) n) n = inv * (e + d * r) % n := by
  obtain ⟨-, hmul, hadd⟩ := hC
  rw [hmul, hadd, hmul, Nat.add_mod_mod, Nat.mul_mod_mod]

/-- The order added to e makes no difference (R164). -/
theorem signWith_add_order (n d inv r e : Nat) : signWith C n d inv r (e + n) = signWith C n d inv r e := by
  have hs : inv * (e + n + d * r) % n = inv * (e + d * r) % n := by
    rw [Nat.mul_mod, Nat.add_right_comm, Nat.add_mod_right, ← Nat.mul_mod]
  simp only [signWith, modularExact_s hC, hs]

/-- An accepted pair is reduced, with the values of R155 and R156. -/
theorem signWith_modRed_some {n d inv a e r s : Nat} (hn : 0 < n)
    (h : signWith C n d inv (C.modRed a n) e = some (r, s)) :
    r < n ∧ s < n ∧ r = a % n ∧ s = inv * (e + d * r) % n := by
  obtain ⟨rfl, -, -, rfl⟩ := signWith_some h
  rw [modularExact_s hC, hC.1]
  exact ⟨Nat.mod_lt _ hn, Nat.mod_lt _ hn, rfl, rfl⟩

end Exact

/-- An accepted pair is not zero, and is what the collaborators make of the candidate (R155, R156). -/
theorem signWith_some_values {C : Collaborators} {n d inv r e r' s : Nat} (h : signWith C n d inv r e = some (r', s)) :
    r' ≠ 0 ∧ s ≠ 0 ∧ r' = r ∧ s = C.modMul inv (C.modAdd e (C.modMul d r' n) n) n := by
  obtain ⟨rfl, hr, hs, hval⟩ := signWith_some h
  exact ⟨hr, hs, rfl, hval⟩

/-- A step of the assembled system comes to keep a pair only on the predicate's verdict (R157, R158). -/
theorem signStep_returning {C : Collaborators} {c : Call} {g g' : SignState} {r s : Nat}
    (h : signStep C c g = .next g') (hp : g'.phase = .returning r s) :
    g.phase = .returning r s ∨
      ∃ k e, g.phase = .digestInt k ∧ g.engine.reply = some (.nat e) ∧ verdictOf C c k e = some (r, s) := by
  obtain ⟨-, hmove, -⟩ | ⟨-, hsame, -⟩ := signStep_cases h
  · exact .inr (hostTurn_returning (hmove.symm.trans hp))
  · exact .inl (hsame.symm.trans hp)

/-- A step returns only a pair that was kept. -/
theorem signStep_signature {C : Collaborators} {c : Call} {g g' : SignState} {r s : Nat}
    (h : signStep C c g = .next g') (hp : g'.phase = .done (.signature r s)) :
    g.phase = .done (.signature r s) ∨ g.phase = .returning r s := by
  obtain ⟨-, hmove, -⟩ | ⟨-, hsame, -⟩ := signStep_cases h
  · exact (hostTurn_signature (hmove.symm.trans hp)).symm
  · exact .inl (hsame.symm.trans hp)

/-- Settles O58: both predicates are `signWith` over their own r and inverse, and the program keeps nothing else. -/
theorem assemblersNeverEmitZero : Obligations.AssemblersNeverEmitZero := by
  intro C
  refine ⟨fun _ _ _ _ _ _ h => signWith_some_values h, fun _ _ _ _ _ _ _ _ h => signWith_some_values h,
    fun hC p n g d k e hn => ?_, fun c g g' h => ?_⟩
  · exact ⟨signWith_add_order hC .., signWith_add_order hC .., fun _ _ h => signWith_modRed_some hC hn h,
      fun _ _ h => signWith_modRed_some hC hn h⟩
  · refine ⟨fun r s hp => (signStep_returning h hp).imp_right ?_, fun r s hp => signStep_signature h hp⟩
    rintro ⟨k, e, hphase, hreply, hv⟩
    obtain ⟨hr, hs⟩ := verdictOf_some hv
    exact ⟨hr, hs, k, e, hphase, hreply, hv⟩

end Sys2Proof.Machine
end

section
/-! The assembled system (R157, R158, R213): it runs the engine's own steps while transactions are to come and while it
awaits a request, answers a request with the predicate, and so carries out GenerateSecret (R125). -/

namespace Sys2Proof.Machine

/-! ### Runs of the assembled system as runs of the engine -/

section Engine
variable (C : Collaborators) (c : Call)

/-- While there are events enough the program waits: the assembled system runs as the engine does. -/
theorem signRun_of_run {n : Nat} {s t : State} (p : Phase) (h : core.run n s = .next t) (hn : n ≤ s.script.length) :
    signRun C c n ⟨s, p⟩ = .next ⟨t, p⟩ := by
  induction n generalizing s with
  | zero => cases h; rfl
  | succ n ih =>
    obtain ⟨u, hstep, h⟩ := run_succ_inv h
    have hne : s.script ≠ [] := List.ne_nil_of_length_pos (by omega)
    have hlen : n ≤ u.script.length := by
      obtain hu | ⟨e, hu⟩ := step_script hstep
      · rw [hu]; omega
      · rw [hu, List.length_cons] at hn; omega
    exact (signRun_succ n (signStep_engine C c p hne hstep)).trans (ih h hlen)

/-- The program's move, where its answer to the last reply is known. -/
theorem signStep_hostTurn {s : State} {p p' : Phase} {es : List Event} (hs : s.script = [])
    (hmove : hostTurn C c s.reply p = (p', es)) : signStep C c ⟨s, p⟩ = .next ⟨{ s with script := es }, p'⟩ := by
  rw [signStep_move C c p hs, hmove]

/-- Outside PRED_WAIT a poll for a request is the engine's turn, and the poll stays to come (R78). -/
theorem step_awaiting {s u : State} {rest : List Event} (hs : s.script = .await .predReq :: rest)
    (hg : s.stage ≠ .predWait) (h : step { s with script := [] } = .next u) :
    u.script = [] ∧ step s = .next { u with script := s.script } := by
  have hvain := fetch_await_vain (P := Config.params) hs (by simp [condHolds, State.predReq, hg])
  have halone := fetch_empty (P := Config.params) (s := { s with script := [] }) rfl
  cases hd : decodeStage4 s.stage.code with
  | ok i =>
    rw [step_of_instr (halone.trans (engineTurn_of_decode hd))] at h
    obtain ⟨hscript, hexec⟩ := exec_microOp_script (stageOf_of_decodeStage4 hd) h s.script
    exact ⟨hscript, (step_of_instr (hvain.trans (engineTurn_of_decode hd))).trans hexec⟩
  | error =>
    have hrest (w : State) (hw : w.stage = s.stage) : engineTurn w = .settled w := by simp only [engineTurn, hw, hd]
    cases (step_of_settled (halone.trans (hrest _ rfl))).symm.trans h
    exact ⟨rfl, step_of_settled (hvain.trans (hrest s rfl))⟩

/-- While the program awaits a request the engine runs as it does alone; once it is offered, the engine holds (R122). -/
theorem signRun_awaiting {n : Nat} {s t : State} {rest : List Event} (p : Phase)
    (hs : s.script = .await .predReq :: rest) (h : core.run n { s with script := [] } = .next t) :
    ∃ m, signRun C c m ⟨s, p⟩ = .next ⟨{ t with script := s.script }, p⟩ := by
  induction n generalizing s with
  | zero => cases h; exact ⟨0, rfl⟩
  | succ n ih =>
    by_cases hg : s.stage = .predWait
    · obtain ⟨-, hholds⟩ := predicateWaitHolds
      cases (hholds { s with script := [] } (n + 1) hg rfl).symm.trans h
      exact ⟨0, rfl⟩
    · obtain ⟨u, hstep, h⟩ := run_succ_inv h
      obtain ⟨hu, hstep'⟩ := step_awaiting hs hg hstep
      have hu' : { u with script := [] } = u := by rw [← hu]
      obtain ⟨m, hm⟩ := ih (s := { u with script := s.script }) hs (by rw [← h, ← hu'])
      exact ⟨m + 1, (signRun_succ m (signStep_engine C c p (by simp [hs]) hstep')).trans hm⟩

end Engine

/-! ### The answer to a request -/

section Request
variable {C : Collaborators} {c : Call} {s : State} {k e : Nat}

/-- In PRED_WAIT KOUT and EOUT are readable (R27). -/
theorem step_read_candidate {r : Reg} {v : Value} {rest : List Event} (hg : s.stage = .predWait)
    (hr : r = .kout ∨ r = .eout) (hs : s.script = rd r :: rest) (hv : regValue Config.params s r = some v) :
    step s = .next { s with script := rest, reply := some v } := by
  have hopen : s.windowOpen = true := by simp [State.windowOpen, hg]
  exact step_read_ok hs ((access_read_gated (by simp [hg]) hr).trans (if_pos hopen)) hv

variable (hg : s.stage = .predWait) (hs : s.script = nextCandidate) (hk : s.kout = some k) (he : s.eout = some e)
include hg hs hk he

/-- The program reads the candidate and then the digest integer (R150). -/
theorem signRun_request :
    signRun C c 4 ⟨s, .candidate⟩ = .next ⟨{ s with script := [], reply := some (.nat e) }, .digestInt k⟩ := by
  have hpoll := step_await_holds hs (by simp [condHolds, State.predReq, hg])
  have hkout := step_read_candidate (s := { s with script := [rd .kout], reply := some (.nat s.status.toNat) }) hg
    (.inl rfl) rfl (v := .nat k) (by rw [regValue, hk]; rfl)
  have hmove := signStep_hostTurn C c (s := { s with script := [], reply := some (.nat k) }) (p := .candidate) rfl rfl
  have heout := step_read_candidate (s := { s with script := [rd .eout], reply := some (.nat k) }) hg (.inr rfl) rfl
    (v := .nat e) (by rw [regValue, he]; rfl)
  exact (signRun_succ 3 (signStep_engine C c _ (by simp [hs, nextCandidate]) hpoll)).trans <|
    (signRun_succ 2 (signStep_engine C c _ (by simp) hkout)).trans <|
    (signRun_succ 1 hmove).trans (signRun_one (signStep_engine C c _ (by simp) heout))

/-- A rejected candidate takes the retry path, and the next request is awaited (R152). -/
theorem signRun_reject (hverdict : verdictOf C c k e = none) :
    signRun C c 6 ⟨s, .candidate⟩
      = .next ⟨{ s with script := nextCandidate, reply := some (.nat e), stage := .updK }, .candidate⟩ := by
  have hmove := signStep_hostTurn C c (s := { s with script := [], reply := some (.nat e) }) (p := .digestInt k)
    (p' := .candidate) (es := cmd .reject ++ nextCandidate) rfl (by simp [hostTurn, hverdict, answerOf])
  have hreject := (step_cmd (s := { s with script := cmd .reject ++ nextCandidate, reply := some (.nat e) }) rfl
    rfl).trans (exec_reject hg)
  exact (signRun_add 2 (signRun_request hg hs hk he)).trans <|
    (signRun_succ 1 hmove).trans (signRun_one (signStep_engine C c _ (by simp [cmd, encode]) hreject))

/-- An accepted candidate ends the call with its pair, the engine cleared (R151, R153). -/
theorem signRun_accept {r z : Nat} (hverdict : verdictOf C c k e = some (r, z)) :
    signRun C c 8 ⟨s, .candidate⟩
      = .next ⟨eraseItems { s with script := [], reply := some (.nat e) }, .done (.signature r z)⟩ := by
  have hmove := signStep_hostTurn C c (s := { s with script := [], reply := some (.nat e) }) (p := .digestInt k)
    (p' := .returning r z) (es := cmd .accept ++ cmd .clear) rfl (by simp [hostTurn, hverdict, answerOf])
  have haccept := (step_cmd (s := { s with script := cmd .accept ++ cmd .clear, reply := some (.nat e) }) rfl
    rfl).trans (exec_accept hg)
  have hclear := (step_cmd (rest := []) (s := { s with
    script := cmd .clear, reply := some (.nat e), rv := true, k := none, v := none, t := none, stage := .idle }) rfl
    rfl).trans (exec_clear rfl)
  have hreturn := signStep_hostTurn C c (s := eraseItems { s with script := [], reply := some (.nat e) })
    (p := .returning r z) rfl rfl
  exact (signRun_add 4 (signRun_request hg hs hk he)).trans <|
    (signRun_succ 3 hmove).trans <|
    (signRun_succ 2 (signStep_engine C c _ (by simp [cmd, encode]) haccept)).trans <|
    (signRun_succ 1 (signStep_engine C c _ (by simp [cmd, encode]) hclear)).trans (signRun_one hreturn)

end Request

/-! ### The start of a call -/

/-- A call whose contract holds issues GENSECRET with its three operands (R157, R158). -/
theorem startOf_ok {c : Call} {es : List Event} (h : startOf c = .ok es) :
    es = genSecret c.order c.scalar c.digest := by
  unfold startOf startEcdsa startDsa at h
  split at h <;> split at h <;> cases h <;> rfl

/-- STATUS bit 3 is clear outside FAULT (R31). -/
theorem status_testBit_three {s : State} (hs : s.stage ≠ .fault) : s.status.toNat.testBit 3 = false := by
  have hclass : classBits s.cls ≤ 3 := by
    have hcls := cls_ne_fault hs
    cases h : s.cls <;> simp_all [classBits]
  have hrv := Bool.toNat_le s.rv
  rw [status_toNat, Nat.testBit_eq_decide_div_mod_eq, decide_eq_false_iff_not]
  omega

/-- With admitted operands the call starts a generation and awaits its first request; STATUS shows no fault (R111). -/
theorem signRun_start (C : Collaborators) {c : Call} {s : State} {es : List Event} (hg : s.stage = .idle)
    (hs : s.script = []) (hstart : startOf c = .ok es) (hq : FitsQbitsMax Config.params c.order)
    (hd : FitsDlenMax Config.params c.digest) (hq8 : 8 ≤ bitlen c.order) (h1 : 1 ≤ c.scalar)
    (hlt : c.scalar < c.order) :
    ∃ t : State, signRun C c 7 ⟨s, .called⟩ = .next ⟨t, .candidate⟩ ∧ t.q = c.order ∧ t.x = some c.scalar ∧
      t.ibuf = c.digest ∧ t.stage = .seed ∧ t.script = nextCandidate := by
  have hcall := signStep_hostTurn C c (p := .called) (p' := .started) (es := es ++ [rd .status]) hs
    (by simp [hostTurn, hstart])
  obtain rfl := startOf_ok hstart
  obtain ⟨t, hrun, htq, htx, htd, htg, -, hts⟩ :=
    gensecretStartsAGeneration { s with script := genSecret c.order c.scalar c.digest ++ [rd .status] } _ _ _
      [rd .status] hg hq hd hq8 h1 hlt rfl
  have hgen := signRun_of_run C c .started hrun (Nat.le_succ 4)
  have hstatus := step_read_readable (s := t) (r := .status) (by simp [htg]) hts (by simp) rfl
  have hlook := signStep_hostTurn C c (s := { t with script := [], reply := some (.nat t.status.toNat) })
    (p := .started) (p' := .candidate) (es := nextCandidate) rfl
    (by simp [hostTurn, status_testBit_three (s := t) (by simp [htg])])
  refine ⟨{ t with script := nextCandidate, reply := some (.nat t.status.toNat) }, ?_, htq, htx, htd, htg, rfl⟩
  exact (signRun_succ 6 hcall).trans <| (signRun_add 2 hgen).trans <|
    (signRun_succ 1 (signStep_engine C c _ (by simp [hts]) hstatus)).trans (signRun_one hlook)

/-! ### GenerateSecret with the predicate's own answers -/

/-- The candidate of the attempt that starts from K = `k` and V = `v` (R120). -/
def candidateOf (P : Params) (q : Nat) (k v : Octets) : Nat := bits2int (produce P q k v).2 (qlenOf q)

/-- K and V after the retry that follows that attempt (R123, R124). -/
def retried (P : Params) (q : Nat) (k v : Octets) : Octets × Octets :=
  let k' := P.hmac k (msgRetry (produce P q k v).1)
  (k', P.hmac k' (produce P q k v).1)

section Loop
variable {P : Params} {q e fuel : Nat} {k v : Octets} {as : List Bool} {offered : List Nat}

theorem genLoop_accept (hin : 1 ≤ candidateOf P q k v ∧ candidateOf P q k v < q) :
    genLoop P q e (fuel + 1) k v (true :: as) offered = .accepted (candidateOf P q k v) e offered := if_pos hin

theorem genLoop_reject (hin : 1 ≤ candidateOf P q k v ∧ candidateOf P q k v < q) :
    genLoop P q e (fuel + 1) k v (false :: as) offered
      = genLoop P q e fuel (retried P q k v).1 (retried P q k v).2 as (offered ++ [candidateOf P q k v]) := if_pos hin

theorem genLoop_outOfRange (hout : ¬ (1 ≤ candidateOf P q k v ∧ candidateOf P q k v < q)) :
    genLoop P q e (fuel + 1) k v as offered
      = genLoop P q e fuel (retried P q k v).1 (retried P q k v).2 as offered := if_neg hout

end Loop

/-- The assembled system reaches from `g` what GenerateSecret comes to, each candidate answered with its verdict. -/
def SignReaches (C : Collaborators) (c : Call) (g : SignState) : GenResult → Prop
  | .accepted k e offered => (∀ j ∈ offered, verdictOf C c j e = none) ∧
      ∃ (r z m : Nat) (t : State), verdictOf C c k e = some (r, z) ∧
        signRun C c m g = .next ⟨t, .done (.signature r z)⟩ ∧ ResetItems t ∧ t.script = []
  | .outOfFuel k v e left offered => left = [] ∧ (∀ j ∈ offered, verdictOf C c j e = none) ∧
      ∃ (m : Nat) (t : State), signRun C c m g = .next ⟨t, .candidate⟩ ∧ t.stage = .tReset ∧
        t.k = some k ∧ t.v = some v ∧ t.eout = some e ∧ t.script = nextCandidate
  | .pending _ _ _ => False

section Refinement
variable {C : Collaborators} {c : Call}

theorem SignReaches.of_run {n : Nat} {g g' : SignState} {res : GenResult} (h : signRun C c n g = .next g')
    (hr : SignReaches C c g' res) : SignReaches C c g res := by
  cases res with
  | accepted =>
    obtain ⟨hoff, r, z, m, t, hv, hrun, hend⟩ := hr
    exact ⟨hoff, r, z, n + m, t, hv, (signRun_add m h).trans hrun, hend⟩
  | outOfFuel =>
    obtain ⟨hleft, hoff, m, t, hrun, hend⟩ := hr
    exact ⟨hleft, hoff, n + m, t, (signRun_add m h).trans hrun, hend⟩
  | pending => exact hr

/-- An attempt, while the program awaits its request (R118 to R121). -/
theorem signRun_attempt {s : State} {k v : Octets} (hs : s.script = nextCandidate) (hg : s.stage = .tReset)
    (hk : s.k = some k) (hv : s.v = some v) :
    ∃ m, signRun C c m ⟨s, .candidate⟩ = .next ⟨attempted s k v, .candidate⟩ :=
  signRun_awaiting C c _ hs (passage_attempt (s := { s with script := [] }) (as := []) rfl hg hk hv).run

/-- A retry, while the program awaits the next request (R123, R124). -/
theorem signRun_retry {s : State} {k v : Octets} (hs : s.script = nextCandidate) (hg : s.stage = .updK)
    (hk : s.k = some k) (hv : s.v = some v) :
    ∃ m, signRun C c m ⟨s, .candidate⟩ = .next ⟨{ s with
      k := some (Config.params.hmac k (msgRetry v))
      v := some (Config.params.hmac (Config.params.hmac k (msgRetry v)) v)
      stage := .tReset }, .candidate⟩ :=
  signRun_awaiting C c _ hs (passage_retry (s := { s with script := [] }) (as := []) rfl hg hk hv).run

/-- From T_RESET the assembled system carries out the loop of R125, with the verdicts on its candidates for answers. -/
theorem signReaches_genLoop (fuel : Nat) {s : State} {k v : Octets} {e : Nat} {offered : List Nat}
    (hoff : ∀ j ∈ offered, verdictOf C c j e = none) (hs : s.script = nextCandidate) (hg : s.stage = .tReset)
    (hk : s.k = some k) (hv : s.v = some v) (he : s.eout = some e) :
    ∃ as, SignReaches C c ⟨s, .candidate⟩ (genLoop Config.params s.q e fuel k v as offered) := by
  induction fuel generalizing s k v offered with
  | zero => exact ⟨[], rfl, hoff, 0, s, rfl, hg, hk, hv, he, hs⟩
  | succ fuel ih =>
    obtain ⟨m, hattempt⟩ := signRun_attempt (C := C) (c := c) hs hg hk hv
    have hafter {u : State} {offered' : List Nat} (hoff' : ∀ j ∈ offered', verdictOf C c j e = none)
        (hus : u.script = nextCandidate) (hug : u.stage = .updK) (huk : u.k = some k)
        (huv : u.v = some (produce Config.params s.q k v).1) (hue : u.eout = some e) (huq : u.q = s.q) :
        ∃ as, SignReaches C c ⟨u, .candidate⟩ (genLoop Config.params s.q e fuel
          (retried Config.params s.q k v).1 (retried Config.params s.q k v).2 as offered') := by
      obtain ⟨m', hretry⟩ := signRun_retry (C := C) (c := c) hus hug huk huv
      obtain ⟨as, hrest⟩ := ih hoff' (s := { u with
        k := some (retried Config.params s.q k v).1, v := some (retried Config.params s.q k v).2
        stage := .tReset }) hus rfl rfl rfl hue
      exact ⟨as, .of_run hretry (huq ▸ hrest)⟩
    by_cases hin : 1 ≤ candidateOf Config.params s.q k v ∧ candidateOf Config.params s.q k v < s.q
    · have hwait : (attempted s k v).stage = .predWait := if_pos hin
      cases hverdict : verdictOf C c (candidateOf Config.params s.q k v) e with
      | some pair =>
        have haccept := signRun_accept (s := attempted s k v) hwait hs rfl he hverdict
        refine ⟨[true], .of_run hattempt ?_⟩
        rw [genLoop_accept hin]
        exact ⟨hoff, _, _, 8, _, hverdict, haccept, resetItems_eraseItems _, rfl⟩
      | none =>
        have hreject := signRun_reject (s := attempted s k v) hwait hs rfl he hverdict
        have hoff' := List.forall_mem_append.mpr ⟨hoff, List.forall_mem_singleton.mpr hverdict⟩
        obtain ⟨as, hrest⟩ := hafter hoff' (u := { attempted s k v with
          script := nextCandidate, reply := some (.nat e), stage := .updK }) rfl rfl hk rfl he rfl
        refine ⟨false :: as, .of_run hattempt (.of_run hreject ?_)⟩
        rwa [genLoop_reject hin]
    · have hupdK : (attempted s k v).stage = .updK := if_neg hin
      obtain ⟨as, hrest⟩ := hafter hoff (u := attempted s k v) hs hupdK hk rfl he rfl
      refine ⟨as, .of_run hattempt ?_⟩
      rwa [genLoop_outOfRange hin]

/-- A call with admitted operands: its start, the set-up of the key chain, and the loop. -/
theorem signReaches_generateSecret (fuel : Nat) {s : State} {es : List Event} (hg : s.stage = .idle)
    (hs : s.script = []) (hstart : startOf c = .ok es) (hq : FitsQbitsMax Config.params c.order)
    (hd : FitsDlenMax Config.params c.digest) (hq8 : 8 ≤ bitlen c.order) (h1 : 1 ≤ c.scalar)
    (hlt : c.scalar < c.order) :
    ∃ as res, generateSecret Config.params fuel c.order c.scalar c.digest as = some res ∧
      SignReaches C c ⟨s, .called⟩ res := by
  obtain ⟨t, hrun, htq, htx, htd, htg, hts⟩ := signRun_start C hg hs hstart hq hd hq8 h1 hlt
  rw [← htq] at hlt
  obtain ⟨m, hsetup⟩ := signRun_awaiting C c .candidate hts
    (passage_setup (s := { t with script := [] }) (as := []) rfl htg htx hlt).run
  obtain ⟨as, hloop⟩ := signReaches_genLoop (C := C) (c := c) fuel (offered := []) (by simp) (s := { t with
    eout := some (bits2IntModQ t.ibuf t.q (qlenOf t.q))
    k := some (ratcheted Config.params (seedOf t.q c.scalar t.ibuf)).1
    v := some (ratcheted Config.params (seedOf t.q c.scalar t.ibuf)).2
    seed := none, x := none, stage := .tReset }) hts rfl rfl rfl rfl
  refine ⟨as, _, ?_, .of_run hrun (.of_run hsetup hloop)⟩
  rw [← htq, ← htd]
  exact generateSecret_admitted (htq ▸ hq8) h1 hlt fuel _ as

end Refinement

/-- Settles O60: one request and its answer, and the loop of such answers from the call's start; operands that are not
admitted are the function's missing value. -/
theorem assemblersReturnTheAcceptedSignature : Obligations.AssemblersReturnTheAcceptedSignature := by
  refine fun C c => ⟨fun s k e hg hs hk he => ⟨fun r z hverdict => ?_, fun hverdict => ?_⟩,
    fun s es fuel hg hs hstart hq hd => ?_⟩
  · exact ⟨_, signRun_accept hg hs hk he hverdict, resetItems_eraseItems _, rfl⟩
  · exact ⟨_, signRun_reject hg hs hk he hverdict, rfl, rfl,
      frame_of_effect (Effect.reject (s := { s with script := nextCandidate, reply := some (.nat e) }) hg)⟩
  · by_cases hadm : 8 ≤ bitlen c.order ∧ 1 ≤ c.scalar ∧ c.scalar < c.order
    · obtain ⟨hq8, h1, hlt⟩ := hadm
      obtain ⟨as, res, hval, hreach⟩ := signReaches_generateSecret (C := C) fuel hg hs hstart hq hd hq8 h1 hlt
      refine ⟨as, ?_⟩
      rw [hval]
      cases res <;> exact hreach
    · have hout : bitlen c.order < 8 ∨ c.scalar = 0 ∨ c.order ≤ c.scalar := by omega
      refine ⟨[], ?_⟩
      rw [generateSecret_refused hout]
      exact hout

end Sys2Proof.Machine
end

section
/-! The exceptions (60_exceptions): what FAULT answers to each event, the opcodes that name no command, the operands that do
not fit; that the engine's own turn takes no fault (R180); and the host's contract checks (R191, R192). -/

namespace Sys2Proof.Machine

/-! ### In FAULT -/

section InFault
variable {s : State} {rest : List Event} (hs : s.stage = .fault)
include hs

/-- Every write is ignored, of an unassigned number too (R189, log 22). -/
theorem step_write_in_fault {n : Nat} {v : Value} (h : s.script = .write n v :: rest)
    (hwf : eventWf (.write n v) = true) : step s = .next { s with script := rest } := by
  refine step_of_settled ((fetch_write h).trans ?_)
  obtain hn | ⟨r, rfl⟩ := unassigned_or_regNum n
  · simp only [hostWrite, regOfNum_unassigned hn]
    exact if_pos ((cls_fault_iff _).mpr hs)
  · rw [eventWf_write_regNum] at hwf
    exact hostWrite_image hwf (access_write_image hs)

theorem step_read_status_in_fault (h : s.script = rd .status :: rest) :
    step s = .next { s with script := rest, reply := some (.nat s.status.toNat) } :=
  step_read_ok h (by simp [access, hs]) rfl

theorem step_read_image_in_fault {r : Reg} (hr : r ≠ .status) (h : s.script = .read (regNum r) :: rest) :
    step s = .next { s with script := rest, reply := some (resetImage Config.params r) } :=
  step_of_settled ((fetch_read h).trans (hostRead_image (by simp [access, hs, hr])))

theorem step_read_unassigned_in_fault {n : Nat} (hn : 13 ≤ n) (h : s.script = .read n :: rest) :
    step s = .next { s with script := rest, reply := some (.nat 0) } := by
  refine step_of_settled ((fetch_read h).trans ((hostRead_unassigned hn).trans ?_))
  exact congrArg _ (if_pos ((cls_fault_iff _).mpr hs))

/-- A WAIT line is a read of STATUS or a vain poll: neither changes STAGE or CAUSE (R78). -/
theorem step_await_in_fault {c : Cond} (h : s.script = .await c :: rest) :
    ∃ t, step s = .next t ∧ t.stage = .fault ∧ t.cause = s.cause := by
  cases hc : condHolds c s with
  | true => exact ⟨_, step_await_holds h hc, hs, rfl⟩
  | false => exact ⟨s, step_of_settled ((fetch_await_vain h hc).trans (engineTurn_resting (.inr hs))), hs, rfl⟩

end InFault

/-- What a read of register number `n` gives in FAULT with the cause `c` (R39, R189; log 22). -/
def faultReading (P : Params) (c : Cause) (n : Nat) : Value :=
  if n = 1 then .nat (16 * c.code + 8) else if n = 12 then .nat P.hlen
  else if n = 4 ∨ n = 7 then .octets [] else .nat 0

theorem faultReading_of_ne_status (P : Params) (c : Cause) {r : Reg} (hr : r ≠ .status) :
    faultReading P c (regNum r) = resetImage P r := by
  cases r
  case status => exact absurd rfl hr
  all_goals rfl

theorem faultReading_unassigned (P : Params) (c : Cause) {n : Nat} (hn : 13 ≤ n) : faultReading P c n = .nat 0 := by
  rw [faultReading, if_neg (by omega), if_neg (by omega), if_neg (by omega)]

theorem step_read_in_fault {s : State} {n : Nat} {rest : List Event} (hinv : Inv s) (hs : s.stage = .fault)
    (h : s.script = .read n :: rest) :
    step s = .next { s with script := rest, reply := some (faultReading Config.params s.cause n) } := by
  obtain hn | ⟨r, rfl⟩ := unassigned_or_regNum n
  · rw [faultReading_unassigned _ _ hn]
    exact step_read_unassigned_in_fault hs hn h
  · by_cases hr : r = .status
    · subst hr
      obtain ⟨-, -, -, hfault⟩ := statusShowsItsListedValues s hinv
      obtain ⟨-, hstatus⟩ := hfault ((cls_fault_iff s).mpr hs)
      rw [step_read_status_in_fault hs h, hstatus]
      rfl
    · rw [faultReading_of_ne_status _ _ hr]
      exact step_read_image_in_fault hs hr h

theorem step_reset {s : State} {rest : List Event} (h : s.script = .reset :: rest) :
    step s = .next (resetEntry { s with script := rest }) :=
  step_of_settled (by simp only [fetch, h])

/-- Settles O9: the events one by one. -/
theorem faultIsLeftByResetOnly : Obligations.FaultIsLeftByResetOnly := by
  intro s hinv hs
  obtain ⟨-, -, hrest⟩ := stepRunsTheDecodedInstruction
  obtain ⟨hempty, hengine⟩ := hrest s (.inr hs)
  exact ⟨hempty, hengine, fun n v rest h hwf => step_write_in_fault hs h hwf,
    fun n rest h => step_read_in_fault hinv hs h, fun c rest h => step_await_in_fault hs h,
    fun rest h => ⟨_, step_reset h, resetItems_eraseItems { s with script := rest }, rfl⟩⟩

/-! ### Undefined opcodes -/

/-- The opcode map holds eight codes (R71). -/
theorem cmd8Table_codes : cmd8Table.map (fun r => r.1.toNat) = [0x01, 0x02, 0x03, 0x04, 0x10, 0x11, 0x12, 0x1F] := rfl

/-- The other 248 codes decode to nothing (R72). -/
theorem decodeCmd8_undefined {c : BitVec 8} (h : c.toNat ∉ cmd8Table.map fun r => r.1.toNat) :
    ∃ e, decodeCmd8 c = .error e := by
  cases hd : decodeCmd8 c with
  | ok i => exact absurd (List.mem_map_of_mem (mem_cmd8Table_of_decodeCmd8 hd)) h
  | error e => exact ⟨e, rfl⟩

theorem issue_undefined {c : BitVec 8} {s : State} (h : c.toNat ∉ cmd8Table.map fun r => r.1.toNat) :
    issue c s = .settled (faultEntry .illegalCmd s) := by
  obtain ⟨e, he⟩ := decodeCmd8_undefined h
  simp only [issue, he]

/-- Settles O3: outside FAULT the write is performed and its octet decodes to nothing; in FAULT it is ignored. -/
theorem undefinedOpcodeIsIllegalCommand : Obligations.UndefinedOpcodeIsIllegalCommand := by
  intro s c rest h hc hundef
  refine ⟨fun hs => stepFaults_of_fetch ?_, fun hs => step_write_in_fault hs h (decide_eq_true hc)⟩
  have hacc := access_outside_fault (s := { s with script := rest }) hs .cmd .write
  have hoctet : (BitVec.ofNat 8 c).toNat = c := Nat.mod_eq_of_lt hc
  rw [← cmd8Table_codes, ← hoctet] at hundef
  exact (fetch_write h).trans ((hostWrite_cmd hc hacc).trans (issue_undefined hundef))

/-! ### The engine's own turn -/

/-- Outside FAULT there is no cause (R31). -/
theorem cause_eq_none {P : Params} {s : State} (h : InvOf P s) (hs : s.stage ≠ .fault) : s.cause = .none := by
  cases hc : s.cls with
  | idle =>
    obtain ⟨hcause, -⟩ := (stageFacts_idle ((cls_idle_iff s).mp hc)).mp h.stage
    exact hcause
  | run =>
    obtain ⟨-, -, hcause⟩ := generating_of_cls h (.inl hc)
    exact hcause
  | wait =>
    obtain ⟨-, -, hcause⟩ := generating_of_cls h (.inr hc)
    exact hcause
  | fault => exact absurd ((cls_fault_iff s).mp hc) hs

/-- The engine's turn performs the micro-operation STAGE names, which completes and enters no fault, or does nothing. -/
theorem step_of_engineTurn {s u : State} (hinv : Inv u) (hu : u.stage ≠ .fault)
    (hf : fetch Config.params s = engineTurn u) : ∃ t, step s = .next t ∧ Inv t ∧ t.stage ≠ .fault := by
  cases hd : decodeStage4 u.stage.code with
  | ok i =>
    have hi := stageOf_of_decodeStage4 hd
    obtain ⟨t, hexec⟩ := exec_microOp_completes hinv hi
    have heff := effect_of_microOp hi hexec
    exact ⟨t, (step_of_instr (hf.trans (engineTurn_of_decode hd))).trans hexec,
      inv_of_effect hinv heff fun g hg => Option.some.inj (hi.symm.trans hg), stage_ne_fault_of_effect heff hu⟩
  | error e => exact ⟨u, step_of_settled (hf.trans (by simp only [engineTurn, hd])), hinv, hu⟩

/-- Settles O11: where the turn leads the invariant holds, and outside FAULT it says CAUSE is 0. -/
theorem engineNeverRaisesAFault : Obligations.EngineNeverRaisesAFault := by
  intro s hinv hs hscript
  have hstep : ∃ t, step s = .next t ∧ Inv t ∧ t.stage ≠ .fault := by
    obtain h | ⟨rest, h⟩ := hscript
    · exact step_of_engineTurn hinv hs (fetch_empty h)
    · exact step_of_engineTurn (hinv.setOwn rest s.reply) hs (fetch_engine h)
  obtain ⟨t, ht, hinv', hs'⟩ := hstep
  exact ⟨t, ht, hs', cause_eq_none hinv' hs'⟩

/-! ### Operands that do not fit -/

/-- In IDLE a write of an operand register stores the operand where it fits (`fits`) and is OPERAND_SIZE where it does not,
in every implementation (R39, R187). -/
theorem fetch_operandWrite {P : Params} {s stored : State} {r : Reg} {v : Value} {rest : List Event} {fits : Prop}
    [Decidable fits] (hr : r ∈ [Reg.q, .x, .ibuf, .aint]) (hfit : valueFits r v = true) (hg : s.stage = .idle)
    (hstore : storeOperand P r v { s with script := rest }
      = if fits then stored else faultEntry .operandSize { s with script := rest })
    (h : s.script = wr r v :: rest) :
    (fits → fetch P s = .settled stored) ∧ (¬ fits → FetchFaults P .operandSize s rest) := by
  have hacc := access_write_operand (s := { s with script := rest }) hg hr
  have hcmd : r ≠ .cmd := by rintro rfl; simp at hr
  have hfetch := (fetch_write (P := P) h).trans (hostWrite_store hcmd hfit hacc)
  rw [hstore] at hfetch
  refine ⟨fun hf => hfetch.trans (congrArg _ (if_pos hf)), fun hf => ⟨_, hfetch.trans (congrArg _ (if_neg hf)), ?_⟩⟩
  exact ⟨faulted_faultEntry .operandSize _, rfl, rfl⟩

/-- A store of one operand changes that item alone (R38). -/
theorem frame_setOperand (s : State) :
    (∀ n, Frame [.q] s { s with q := n }) ∧ (∀ n, Frame [.x] s { s with x := some n }) ∧
      (∀ o, Frame [.ibuf] s { s with ibuf := o }) ∧ ∀ n, Frame [.aint] s { s with aint := n } := by
  refine ⟨fun _ => ?_, fun _ => ?_, fun _ => ?_, fun _ => ?_⟩ <;>
    exact frame_of_items (fun i hi => by cases i <;> simp [SameItem] at hi ⊢) rfl rfl

/-- Settles O12: the four operand registers, each with the check of its size. -/
theorem operandWriteStoresOrFaults : Obligations.OperandWriteStoresOrFaults := by
  refine ⟨fun P s rest hg => ?_, fun s t => step_of_settled⟩
  obtain ⟨hq, hx, hibuf, haint⟩ := frame_setOperand { s with script := rest }
  simp only [← fitsInt_iff, ← fitsOctets_iff]
  refine ⟨fun n h => ?_, fun n h => ?_, fun o h => ?_, fun n h => ?_⟩
  · exact (fetch_operandWrite (r := .q) (by simp) rfl hg rfl h).imp_left fun hs hn => ⟨_, hs hn, rfl, hq n⟩
  · exact (fetch_operandWrite (r := .x) (by simp) rfl hg rfl h).imp_left fun hs hn => ⟨_, hs hn, rfl, hx n⟩
  · exact (fetch_operandWrite (r := .ibuf) (by simp) rfl hg rfl h).imp_left fun hs ho => ⟨_, hs ho, rfl, hibuf o⟩
  · exact (fetch_operandWrite (r := .aint) (by simp) rfl hg rfl h).imp_left fun hs hn => ⟨_, hs hn, rfl, haint n⟩

/-! ### The host's contract checks -/

theorem check_error_iff {ε α : Type} {p : Prop} [Decidable p] {e : ε} {a : α} :
    (if p then Except.error e else .ok a) = .error e ↔ p := by
  split <;> simp [*]

theorem check_ok_iff {ε α : Type} {p : Prop} [Decidable p] {e : ε} {a : α} :
    (if p then Except.error e else .ok a) = .ok a ↔ ¬ p := by
  split <;> simp [*]

/-- A call whose check fails is over at once, with the engine untouched (R191, R192). -/
theorem signStep_refused (C : Collaborators) {c : Call} {s : State} {e : HostError} (hs : s.script = [])
    (h : startOf c = .error e) : signStep C c ⟨s, .called⟩ = .next ⟨s, .done (failureOf c e)⟩ := by
  rw [signStep_hostTurn C c (p' := .done (failureOf c e)) (es := []) hs (by simp only [hostTurn, h]), ← hs]

/-- GENSECRET's three stores, where the operands fit (R79). -/
theorem run_genSecret_stores {s : State} {q x : Nat} {d : Octets} {rest : List Event} (hg : s.stage = .idle)
    (hq : FitsQbitsMax Config.params q) (hx : FitsQbitsMax Config.params x) (hd : FitsDlenMax Config.params d)
    (h : s.script = genSecret q x d ++ rest) :
    core.run 3 s = .next { s with script := cmd .generate ++ rest, q := q, x := some x, ibuf := d } := by
  have hstepQ := step_write_q h hg hq
  have hstepX := step_wr_x (s := { s with script := _, q := q }) (rest := wr .ibuf (.octets d) :: (cmd .generate ++ rest))
    rfl hg hx
  have hstepD := step_wr_ibuf (s := { s with script := _, q := q, x := some x }) (rest := cmd .generate ++ rest) rfl hg hd
  exact (run_succ 2 hstepQ).trans ((run_succ 1 hstepX).trans (run_one hstepD))

/-- The cause GENERATE raises for operands it does not admit; the order is checked first (R184, R185, R190). -/
def admissionCause (q : Nat) : Cause := if bitlen q < 8 then .qRange else .xRange

theorem exec_generate_refused {s : State} {x : Nat} (hg : s.stage = .idle) (hx : s.x = some x)
    (hout : bitlen s.q < 8 ∨ x = 0 ∨ s.q ≤ x) : exec .generate s = .next (faultEntry (admissionCause s.q) s) := by
  rw [exec_generate hg, admissionCause]
  by_cases hq : bitlen s.q < 8
  · rw [if_pos (show qlenOf s.q < qlenMin from hq), if_pos hq]
  · have hnot : ¬ ∃ y, s.x = some y ∧ 1 ≤ y ∧ y < s.q := by
      rintro ⟨y, hy, h1, hlt⟩
      cases hx.symm.trans hy
      omega
    rw [if_neg (show ¬ qlenOf s.q < qlenMin from hq), if_neg hnot, if_neg hq]

/-- STATUS bit 3 is set after a fault entry (R31). -/
theorem status_testBit_three_of_fault (c : Cause) (s : State) : (faultEntry c s).status.toNat.testBit 3 = true := by
  rw [status_faulted]
  cases c <;> rfl

/-- GENSECRET with operands that GENERATE does not admit, and the look at STATUS that shows the fault (R184, R185). -/
theorem run_genSecret_refused {s : State} {q x : Nat} {d : Octets} {rest : List Event} (hg : s.stage = .idle)
    (hq : FitsQbitsMax Config.params q) (hx : FitsQbitsMax Config.params x) (hd : FitsDlenMax Config.params d)
    (hout : bitlen q < 8 ∨ x = 0 ∨ q ≤ x) (h : s.script = genSecret q x d ++ rd .status :: rest) :
    ∃ (t : State) (st : Nat), core.run 5 s = .next t ∧ t.stage = .fault ∧ t.cause = admissionCause q ∧
      t.script = rest ∧ t.reply = some (.nat st) ∧ st.testBit 3 = true := by
  have hgen := (step_cmd (s := { s with
    script := cmd .generate ++ rd .status :: rest, q := q, x := some x, ibuf := d }) rfl rfl).trans
      (exec_generate_refused hg rfl hout)
  have hstatus := step_read_status_in_fault (s := faultEntry (admissionCause q) { s with
    script := rd .status :: rest, q := q, x := some x, ibuf := d }) rfl rfl
  exact ⟨_, _, (run_add 2 (run_genSecret_stores hg hq hx hd h)).trans ((run_succ 1 hgen).trans (run_one hstatus)),
    rfl, rfl, rfl, rfl, status_testBit_three_of_fault ..⟩

/-- A call that passes its check with operands that GENERATE does not admit: the program reads STATUS and gives up
(log 23). -/
theorem signRun_engineFault (C : Collaborators) {c : Call} {s : State} {es : List Event} (hg : s.stage = .idle)
    (hs : s.script = []) (hstart : startOf c = .ok es) (hq : FitsQbitsMax Config.params c.order)
    (hx : FitsQbitsMax Config.params c.scalar) (hd : FitsDlenMax Config.params c.digest)
    (hout : bitlen c.order < 8 ∨ c.scalar = 0 ∨ c.order ≤ c.scalar) :
    ∃ (t : State) (r : Option Value), signRun C c 7 ⟨s, .called⟩ = .next ⟨t, .done (.engineFault r)⟩ ∧
      t.stage = .fault ∧ t.cause = admissionCause c.order := by
  have hcall := signStep_hostTurn C c (p := .called) (p' := .started) (es := es ++ [rd .status]) hs
    (by simp only [hostTurn, hstart])
  obtain rfl := startOf_ok hstart
  obtain ⟨t, st, hrun, htg, htc, hts, htr, hbit⟩ := run_genSecret_refused (rest := [])
    (s := { s with script := genSecret c.order c.scalar c.digest ++ [rd .status] }) hg hq hx hd hout rfl
  have hengine := signRun_of_run C c .started hrun (Nat.le_refl 5)
  have hgiveUp := signStep_hostTurn C c (p := .started) (p' := .done (.engineFault t.reply)) (es := []) hts
    (by simp [hostTurn, htr, hbit])
  exact ⟨_, _, (signRun_succ 6 hcall).trans ((signRun_add 1 hengine).trans (signRun_one hgiveUp)), htg, htc⟩

/-- Settles O59: the two checks, a call that fails its check, and a call that only the engine stops. -/
theorem hostContractChecks : Obligations.HostContractChecks := by
  refine ⟨fun n d digest => ?_, fun C n d p b digest s hs => ⟨fun h => ?_, fun h => ?_⟩,
    fun C c s es => signRun_engineFault C⟩
  · exact ⟨check_error_iff, check_ok_iff.trans not_not, check_error_iff, check_ok_iff.trans Nat.not_le⟩
  · exact signStep_refused C hs (if_pos h)
  · exact signStep_refused C hs (if_pos h)

end Sys2Proof.Machine
end

section
/-! Reset and the hazards of a generation (70_reset_and_hazards): reset restores every item and forgets the rest (R210, R211);
the operands are locked while a generation runs or waits (R214), and X is consumed by it (R215). -/

namespace Sys2Proof.Machine

/-! ### Reset -/

/-- Settles O6: reset is the erasure of all items. -/
theorem resetEventRestoresEveryItem : Obligations.ResetEventRestoresEveryItem :=
  ⟨resetItems_eraseItems State.reset,
    fun _ _ h => ⟨_, step_reset h, resetItems_eraseItems _, rfl, rfl⟩⟩

/-- Of the state before it, reset keeps the model's own fields alone. -/
theorem resetEntry_congr {s u : State} (hscript : s.script = u.script) (hreply : s.reply = u.reply) :
    resetEntry s = resetEntry u := by
  simp only [resetEntry, eraseItems, hscript, hreply]

/-- Settles O8: the two resets lead to one state, and the runs go on from there. -/
theorem resetForgetsTheAbandonedGeneration : Obligations.ResetForgetsTheAbandonedGeneration := by
  intro s u es n hs hu hreply
  have hone : resetEntry { s with script := es } = resetEntry { u with script := es } := resetEntry_congr rfl hreply
  rw [run_succ n (step_reset hs), run_succ n (step_reset hu), hone]

/-! ### The lock on the operands -/

section Busy
variable {s : State} (hbusy : s.busy = true)
include hbusy

theorem cls_of_busy : s.cls = .run ∨ s.cls = .wait := by
  simpa only [State.busy, Bool.or_eq_true, beq_iff_eq] using hbusy

theorem stage_ne_idle_of_busy : s.stage ≠ .idle := fun h => by
  rcases cls_of_busy hbusy with hc | hc <;> cases ((cls_idle_iff s).mpr h).symm.trans hc

/-- Q, X, IBUF and AINT are writable in IDLE alone (R39). -/
theorem access_write_locked {r : Reg} (hr : r ∈ [Reg.q, .x, .ibuf, .aint]) :
    access r .write s.cls s.rv = .protocol := by
  revert r
  rcases cls_of_busy hbusy with hc | hc <;> simp [hc, access, accessOutsideFault, onlyIn]

end Busy

/-- The numbers of the operand registers (R76). -/
theorem operand_numbers : [Reg.q, .x, .ibuf, .aint].map regNum = [2, 3, 4, 5] := rfl

/-- Settles O13: the access table refuses the write before its size is looked at (R190). -/
theorem lockedOperandWriteFaults : Obligations.LockedOperandWriteFaults := by
  intro s n v rest hn hwf hbusy h
  rw [← operand_numbers] at hn
  obtain ⟨r, hr, rfl⟩ := List.mem_map.mp hn
  have hacc := access_write_locked (s := { s with script := rest }) hbusy hr
  exact stepFaults_of_fetch ((fetch_write h).trans (hostWrite_protocol (eventWf_write_regNum ▸ hwf) hacc))

/-! ### The operands during a generation -/

/-- Of the effects CLEAR's alone writes Q, IBUF or AINT, and RATCH_G's alone besides writes X. -/
theorem operands_of_effect {i : Instr} {s t : State} (h : Effect s i t) (hi : i ≠ .clear) :
    t.q = s.q ∧ t.ibuf = s.ibuf ∧ t.aint = s.aint ∧ (t.x = s.x ∨ i = .ratchG ∧ t.x = none) := by
  cases h
  case clear => exact absurd rfl hi
  case ratchG => exact ⟨rfl, rfl, rfl, .inr ⟨rfl, rfl⟩⟩
  all_goals exact ⟨rfl, rfl, rfl, .inl rfl⟩

/-- CLEAR is performed in IDLE alone (R153). -/
theorem ne_clear_of_effect {i : Instr} {s t : State} (h : Effect s i t) (hs : s.stage ≠ .idle) : i ≠ .clear := by
  rintro rfl
  cases h with
  | clear hg => exact hs hg

/-- Settles O46: a step that is no fault and no reset changes no item, or is a store or an effect; a store and CLEAR are
performed in IDLE alone. -/
theorem operandsAreImmutableDuringAGeneration : Obligations.OperandsAreImmutableDuringAGeneration := by
  intro s t hbusy hstep hfault hreset
  have hidle := stage_ne_idle_of_busy hbusy
  obtain ⟨sc, r, rfl⟩ | (⟨-, c, sc, r, -, rfl⟩ | ⟨sc, h, -⟩) | ⟨hg, -⟩ | ⟨i, sc, heff, hstage⟩ := step_outcome hstep
  · exact ⟨rfl, rfl, rfl, .inl rfl⟩
  · exact absurd rfl hfault
  · exact absurd h (hreset sc)
  · exact absurd hg hidle
  · obtain ⟨hq, hibuf, haint, hx⟩ := operands_of_effect heff (ne_clear_of_effect heff hidle)
    exact ⟨hq, hibuf, haint, hx.imp_right (And.imp_left fun hi => hstage .ratchG (by rw [hi]; rfl))⟩

/-- With an admitted order and no X it is X that GENERATE refuses (R185). -/
theorem stepFaults_generate_without_scalar {s : State} {rest : List Event} (h : s.script = cmd .generate ++ rest)
    (hg : s.stage = .idle) (hq : 8 ≤ bitlen s.q) (hx : s.x = none) : StepFaults .xRange s rest := by
  obtain ⟨t, ht, hfaulted⟩ := generate_xRange (s := { s with script := rest }) hg hq
    fun x hsx => by cases hx.symm.trans hsx
  exact ⟨t, (step_cmd rfl h).trans ht, hfaulted⟩

/-- Settles O39: a generation keeps its order, and RATCH_G has erased its X. -/
theorem scalarIsConsumed : Obligations.ScalarIsConsumed := by
  intro s rest hinv hg h
  obtain ⟨⟨⟨hq, -⟩, -, -, hx, -⟩, -⟩ := (stageFacts_predWait hg).mp hinv.stage
  have haccept := (step_cmd (i := .accept) (rest := cmd .generate ++ rest) rfl h).trans (exec_accept hg)
  obtain ⟨t, hgenerate, hfaulted, hscript, -⟩ := stepFaults_generate_without_scalar (rest := rest) (s := { s with
    script := cmd .generate ++ rest, rv := true, k := none, v := none, t := none, stage := .idle }) rfl rfl hq hx
  exact ⟨t, (run_succ 1 haccept).trans (run_one hgenerate), hfaulted, hscript⟩

end Sys2Proof.Machine
end
